-- ==== Sys2Proof/Word.lean ====
section
/-!
DEFINITION. The machine's words: bytes, CPU-space addresses and picture-space addresses (spec R4, R40, R41).
-/

namespace Sys2Proof

/-- A byte: 8 bits, the width of every register and of every bus transfer (R4 `XLEN`, R41). -/
abbrev Byte := BitVec 8

/-- A CPU-space address or a 16-bit quantity (R4 `CPU_ABITS`, R40); arithmetic wraps modulo 2^16 (R5). -/
abbrev Word := BitVec 16

/-- A picture-space address, 14 bits (R4 `PPU_ABITS`, R40); arithmetic wraps modulo 2^14 (R5). -/
abbrev PicAddr := BitVec 14

/-- The internal picture address registers `v` and `t`, 15 bits (R27). -/
abbrev ScrollAddr := BitVec 15

/-- A pixel of a framebuffer: a 6-bit colour index (R33, R288). -/
abbrev Colour := BitVec 6

end Sys2Proof
end

