-- ==== Sys2Proof/Config.lean ====
section
/-!
DEFINITION. What does not change while the machine runs (spec R4) and the free values: opaque constants nothing
in Lean can evaluate, for what the spec says an external collaborator answers.
-/

namespace Sys2Proof

/-- Which controller port: port 1 is read at 0x4016, port 2 at 0x4017 (R52). -/
inductive Port
  | one
  | two
  deriving DecidableEq, Repr

namespace Config

/-- `RAM_SIZE` (R4). -/
def ramSize : Nat := 2048

/-- `NT_SIZE` (R4). -/
def ntSize : Nat := 2048

/-- `PAL_SIZE` (R4). -/
def palSize : Nat := 32

/-- `OAM_SIZE` (R4). -/
def oamSize : Nat := 256

/-- `SRAM_SIZE` (R4). -/
def sramSize : Nat := 8192

/-- The bytes of one PRG bank (R4 `N16 = len(PRG) / 16384`). -/
def prgBank : Nat := 16384

/-- The bytes of one CHR bank (R4 `N4 = len(CHR) / 4096`). -/
def chrBank : Nat := 4096

/-- `DOTS_PER_LINE` (R4, R260). -/
def dotsPerLine : Nat := 341

/-- `LINES_PER_FRAME` (R4, R260). -/
def linesPerFrame : Nat := 262

/-- `FB_W` (R4, R33). -/
def fbWidth : Nat := 256

/-- `FB_H` (R4, R33). -/
def fbHeight : Nat := 240

/-- `MAX_SPRITES_PER_LINE` (R4). -/
def maxSprites : Nat := 8

/-- `PPU_PER_CPU` (R4): picture dots per CPU cycle. -/
def dotsPerCycle : Nat := 3

/-- `NMI_DELAY` (R4, R263), the spec's value 15. DESIGN CHOICE, unsafe (log 5): D36 lets a model take another. -/
def nmiDelay : Nat := 15

/-- Free value (log 6): the byte the audio port returns at the `draw`-th external read (R34, R50, U19). -/
opaque audioByte (draw : Nat) : Byte

/-- Free value (log 7): whether the button under read index `index` of a controller is pressed at the `draw`-th
external read (R34, R52, U19). -/
opaque buttonDown (port : Port) (index draw : Nat) : Bool

/-- `PALETTE_RGBA` (R4, D42, log 17): the RGBA value of a colour index, which the spec does not give. DESIGN CHOICE: the
spec states no width of an RGBA value either; 32 bits are the model's. -/
opaque paletteRgba (c : Colour) : BitVec 32

end Config

end Sys2Proof
end

