-- ==== Sys2Proof/Syntax.lean ====
section
/-!
DEFINITION. The instructions as syntax. One constructor of `Instr` per operation of spec/opcode_table.json; its
argument is a type whose constructors are exactly the addressing modes (the table's rows) that operation has, so
a form the table does not hold cannot be written (log 15). Operand bytes are part of the instruction.
-/

namespace Sys2Proof

/-- The addressing modes that name a data byte in memory (R87 to R91, R93 to R95). -/
inductive MemOperand
  | zp (d : Byte)
  | zpx (d : Byte)
  | zpy (d : Byte)
  | abs (a : Word)
  | abx (a : Word)
  | aby (a : Word)
  | izx (d : Byte)
  | izy (d : Byte)
  deriving DecidableEq, Repr

/-- A data operand that is read: the byte after the opcode (R86) or a byte in memory. -/
inductive Operand
  | imm (v : Byte)
  | mem (m : MemOperand)
  deriving DecidableEq, Repr

/-- The eight rows of ADC, SBC, AND, ORA, EOR, CMP and LDA (R101 to R105, R121, R125). -/
inductive AluOperand
  | imm (v : Byte)
  | zp (d : Byte)
  | zpx (d : Byte)
  | abs (a : Word)
  | abx (a : Word)
  | aby (a : Word)
  | izx (d : Byte)
  | izy (d : Byte)
  deriving DecidableEq, Repr

/-- The five rows of LDX (R126). -/
inductive LdxOperand
  | imm (v : Byte)
  | zp (d : Byte)
  | zpy (d : Byte)
  | abs (a : Word)
  | aby (a : Word)
  deriving DecidableEq, Repr

/-- The five rows of LDY (R127). -/
inductive LdyOperand
  | imm (v : Byte)
  | zp (d : Byte)
  | zpx (d : Byte)
  | abs (a : Word)
  | abx (a : Word)
  deriving DecidableEq, Repr

/-- The three rows of CPX and CPY (R122, R123). -/
inductive CpOperand
  | imm (v : Byte)
  | zp (d : Byte)
  | abs (a : Word)
  deriving DecidableEq, Repr

/-- The two rows of BIT (R106). -/
inductive BitOperand
  | zp (d : Byte)
  | abs (a : Word)
  deriving DecidableEq, Repr

/-- The seven rows of STA (R128). -/
inductive StaOperand
  | zp (d : Byte)
  | zpx (d : Byte)
  | abs (a : Word)
  | abx (a : Word)
  | aby (a : Word)
  | izx (d : Byte)
  | izy (d : Byte)
  deriving DecidableEq, Repr

/-- The three rows of STX (R129). -/
inductive StxOperand
  | zp (d : Byte)
  | zpy (d : Byte)
  | abs (a : Word)
  deriving DecidableEq, Repr

/-- The three rows of STY (R130). -/
inductive StyOperand
  | zp (d : Byte)
  | zpx (d : Byte)
  | abs (a : Word)
  deriving DecidableEq, Repr

/-- The four rows of INC and DEC, and the memory rows of the shifts and rotates (R107, R108, R115). -/
inductive RmwOperand
  | zp (d : Byte)
  | zpx (d : Byte)
  | abs (a : Word)
  | abx (a : Word)
  deriving DecidableEq, Repr

/-- The five rows of ASL, LSR, ROL and ROR (R116 to R119): the accumulator (R85) or a memory byte. -/
inductive ShiftOperand
  | acc
  | mem (m : RmwOperand)
  deriving DecidableEq, Repr

/-- The two rows of JMP (R154). -/
inductive JmpOperand
  | abs (a : Word)
  | ind (a : Word)
  deriving DecidableEq, Repr

def AluOperand.operand : AluOperand → Operand
  | .imm v => .imm v
  | .zp d => .mem (.zp d)
  | .zpx d => .mem (.zpx d)
  | .abs a => .mem (.abs a)
  | .abx a => .mem (.abx a)
  | .aby a => .mem (.aby a)
  | .izx d => .mem (.izx d)
  | .izy d => .mem (.izy d)

def LdxOperand.operand : LdxOperand → Operand
  | .imm v => .imm v
  | .zp d => .mem (.zp d)
  | .zpy d => .mem (.zpy d)
  | .abs a => .mem (.abs a)
  | .aby a => .mem (.aby a)

def LdyOperand.operand : LdyOperand → Operand
  | .imm v => .imm v
  | .zp d => .mem (.zp d)
  | .zpx d => .mem (.zpx d)
  | .abs a => .mem (.abs a)
  | .abx a => .mem (.abx a)

def CpOperand.operand : CpOperand → Operand
  | .imm v => .imm v
  | .zp d => .mem (.zp d)
  | .abs a => .mem (.abs a)

def BitOperand.operand : BitOperand → Operand
  | .zp d => .mem (.zp d)
  | .abs a => .mem (.abs a)

def StaOperand.mem : StaOperand → MemOperand
  | .zp d => .zp d
  | .zpx d => .zpx d
  | .abs a => .abs a
  | .abx a => .abx a
  | .aby a => .aby a
  | .izx d => .izx d
  | .izy d => .izy d

def StxOperand.mem : StxOperand → MemOperand
  | .zp d => .zp d
  | .zpy d => .zpy d
  | .abs a => .abs a

def StyOperand.mem : StyOperand → MemOperand
  | .zp d => .zp d
  | .zpx d => .zpx d
  | .abs a => .abs a

def RmwOperand.mem : RmwOperand → MemOperand
  | .zp d => .zp d
  | .zpx d => .zpx d
  | .abs a => .abs a
  | .abx a => .abx a

/-- The instruction set (R81): the 56 official operations and the illegal opcode bytes (R168). A branch carries its
signed offset byte (R96). BRK's padding byte is never read, so it is no part of the instruction (R158, log 14). -/
inductive Instr
  | adc (o : AluOperand)
  | sbc (o : AluOperand)
  | and (o : AluOperand)
  | ora (o : AluOperand)
  | eor (o : AluOperand)
  | bit (o : BitOperand)
  | inc (o : RmwOperand)
  | dec (o : RmwOperand)
  | inx
  | iny
  | dex
  | dey
  | asl (o : ShiftOperand)
  | lsr (o : ShiftOperand)
  | rol (o : ShiftOperand)
  | ror (o : ShiftOperand)
  | cmp (o : AluOperand)
  | cpx (o : CpOperand)
  | cpy (o : CpOperand)
  | lda (o : AluOperand)
  | ldx (o : LdxOperand)
  | ldy (o : LdyOperand)
  | sta (o : StaOperand)
  | stx (o : StxOperand)
  | sty (o : StyOperand)
  | tax
  | tay
  | txa
  | tya
  | tsx
  | txs
  | pha
  | php
  | pla
  | plp
  | bcc (d : Byte)
  | bcs (d : Byte)
  | beq (d : Byte)
  | bne (d : Byte)
  | bmi (d : Byte)
  | bpl (d : Byte)
  | bvc (d : Byte)
  | bvs (d : Byte)
  | jmp (o : JmpOperand)
  | jsr (a : Word)
  | rts
  | rti
  | brk
  | clc
  | sec
  | cli
  | sei
  | cld
  | sed
  | clv
  | nop
  | illegal (op : Byte)
  deriving DecidableEq, Repr

end Sys2Proof
end

