-- ==== Sys2Proof/WellFormed.lean ====
section
/-!
DEFINITION. Which instructions as syntax the opcode table holds: every term but an `illegal` one whose byte is an
official opcode, since the operand types already admit only the table's modes.
-/

namespace Sys2Proof

/-- The illegal opcode bytes of R168, row 1 of its list. -/
def illegalRow1 : List Byte :=
  [0x02, 0x03, 0x04, 0x07, 0x0B, 0x0C, 0x0F, 0x12, 0x13, 0x14, 0x17, 0x1A, 0x1B, 0x1C, 0x1F]

/-- The illegal opcode bytes of R168, row 2 of its list. -/
def illegalRow2 : List Byte :=
  [0x22, 0x23, 0x27, 0x2B, 0x2F, 0x32, 0x33, 0x34, 0x37, 0x3A, 0x3B, 0x3C, 0x3F, 0x42, 0x43]

/-- The illegal opcode bytes of R168, row 3 of its list. -/
def illegalRow3 : List Byte :=
  [0x44, 0x47, 0x4B, 0x4F, 0x52, 0x53, 0x54, 0x57, 0x5A, 0x5B, 0x5C, 0x5F, 0x62, 0x63, 0x64]

/-- The illegal opcode bytes of R168, row 4 of its list. -/
def illegalRow4 : List Byte :=
  [0x67, 0x6B, 0x6F, 0x72, 0x73, 0x74, 0x77, 0x7A, 0x7B, 0x7C, 0x7F, 0x80, 0x82, 0x83, 0x87]

/-- The illegal opcode bytes of R168, row 5 of its list. -/
def illegalRow5 : List Byte :=
  [0x89, 0x8B, 0x8F, 0x92, 0x93, 0x97, 0x9B, 0x9C, 0x9E, 0x9F, 0xA3, 0xA7, 0xAB, 0xAF, 0xB2]

/-- The illegal opcode bytes of R168, row 6 of its list. -/
def illegalRow6 : List Byte :=
  [0xB3, 0xB7, 0xBB, 0xBF, 0xC2, 0xC3, 0xC7, 0xCB, 0xCF, 0xD2, 0xD3, 0xD4, 0xD7, 0xDA, 0xDB]

/-- The illegal opcode bytes of R168, row 7 of its list. -/
def illegalRow7 : List Byte :=
  [0xDC, 0xDF, 0xE2, 0xE3, 0xE7, 0xEB, 0xEF, 0xF2, 0xF3, 0xF4, 0xF7, 0xFA, 0xFB, 0xFC, 0xFF]

/-- The 105 opcode bytes that are not official instructions, as R168 lists them. -/
def illegalOpcodes : List Byte :=
  illegalRow1 ++ illegalRow2 ++ illegalRow3 ++ illegalRow4 ++ illegalRow5 ++ illegalRow6 ++ illegalRow7

/-- The instruction is one the opcode table holds (R81, R98): an `illegal` term carries one of the 105 illegal bytes. -/
def Instr.wellFormed : Instr → Bool
  | .illegal op => illegalOpcodes.contains op
  | .adc _ | .sbc _ | .and _ | .ora _ | .eor _ | .bit _ | .inc _ | .dec _ | .inx | .iny | .dex | .dey
  | .asl _ | .lsr _ | .rol _ | .ror _ | .cmp _ | .cpx _ | .cpy _ | .lda _ | .ldx _ | .ldy _
  | .sta _ | .stx _ | .sty _ | .tax | .tay | .txa | .tya | .tsx | .txs | .pha | .php | .pla | .plp
  | .bcc _ | .bcs _ | .beq _ | .bne _ | .bmi _ | .bpl _ | .bvc _ | .bvs _
  | .jmp _ | .jsr _ | .rts | .rti | .brk | .clc | .sec | .cli | .sei | .cld | .sed | .clv | .nop => true

end Sys2Proof
end

