-- ==== Sys2Proof/Decode.lean ====
section
/-!
DEFINITION. Decoding: the opcode matrix of spec 30_encoding.md section 6 (R81), the decoder on any list of bytes, and
after it the encoder, written from the Encoding tables of the instruction rules (files 40 to 45).
-/

namespace Sys2Proof

/-- What an opcode byte announces (R80): how many bytes follow it and the instruction they make. -/
inductive Shape
  /-- One of the 105 illegal bytes (R98). -/
  | bad
  /-- Format F1: the opcode alone. -/
  | alone (i : Instr)
  /-- BRK: length 2, its second byte never read (R80, R158). -/
  | padded (i : Instr)
  /-- Format F2: one operand byte. -/
  | byte (f : Byte → Instr)
  /-- Format F3: two operand bytes, low byte first. -/
  | word (f : Word → Instr)

/-- Opcodes 0x00 to 0x0F of the matrix. -/
def opRow0 : List Shape :=
  [ .padded .brk,
    .byte fun d => .ora (.izx d),
    .bad,
    .bad,
    .bad,
    .byte fun d => .ora (.zp d),
    .byte fun d => .asl (.mem (.zp d)),
    .bad,
    .alone .php,
    .byte fun d => .ora (.imm d),
    .alone (.asl .acc),
    .bad,
    .bad,
    .word fun a => .ora (.abs a),
    .word fun a => .asl (.mem (.abs a)),
    .bad ]

/-- Opcodes 0x10 to 0x1F of the matrix. -/
def opRow1 : List Shape :=
  [ .byte .bpl,
    .byte fun d => .ora (.izy d),
    .bad,
    .bad,
    .bad,
    .byte fun d => .ora (.zpx d),
    .byte fun d => .asl (.mem (.zpx d)),
    .bad,
    .alone .clc,
    .word fun a => .ora (.aby a),
    .bad,
    .bad,
    .bad,
    .word fun a => .ora (.abx a),
    .word fun a => .asl (.mem (.abx a)),
    .bad ]

/-- Opcodes 0x20 to 0x2F of the matrix. -/
def opRow2 : List Shape :=
  [ .word .jsr,
    .byte fun d => .and (.izx d),
    .bad,
    .bad,
    .byte fun d => .bit (.zp d),
    .byte fun d => .and (.zp d),
    .byte fun d => .rol (.mem (.zp d)),
    .bad,
    .alone .plp,
    .byte fun d => .and (.imm d),
    .alone (.rol .acc),
    .bad,
    .word fun a => .bit (.abs a),
    .word fun a => .and (.abs a),
    .word fun a => .rol (.mem (.abs a)),
    .bad ]

/-- Opcodes 0x30 to 0x3F of the matrix. -/
def opRow3 : List Shape :=
  [ .byte .bmi,
    .byte fun d => .and (.izy d),
    .bad,
    .bad,
    .bad,
    .byte fun d => .and (.zpx d),
    .byte fun d => .rol (.mem (.zpx d)),
    .bad,
    .alone .sec,
    .word fun a => .and (.aby a),
    .bad,
    .bad,
    .bad,
    .word fun a => .and (.abx a),
    .word fun a => .rol (.mem (.abx a)),
    .bad ]

/-- Opcodes 0x40 to 0x4F of the matrix. -/
def opRow4 : List Shape :=
  [ .alone .rti,
    .byte fun d => .eor (.izx d),
    .bad,
    .bad,
    .bad,
    .byte fun d => .eor (.zp d),
    .byte fun d => .lsr (.mem (.zp d)),
    .bad,
    .alone .pha,
    .byte fun d => .eor (.imm d),
    .alone (.lsr .acc),
    .bad,
    .word fun a => .jmp (.abs a),
    .word fun a => .eor (.abs a),
    .word fun a => .lsr (.mem (.abs a)),
    .bad ]

/-- Opcodes 0x50 to 0x5F of the matrix. -/
def opRow5 : List Shape :=
  [ .byte .bvc,
    .byte fun d => .eor (.izy d),
    .bad,
    .bad,
    .bad,
    .byte fun d => .eor (.zpx d),
    .byte fun d => .lsr (.mem (.zpx d)),
    .bad,
    .alone .cli,
    .word fun a => .eor (.aby a),
    .bad,
    .bad,
    .bad,
    .word fun a => .eor (.abx a),
    .word fun a => .lsr (.mem (.abx a)),
    .bad ]

/-- Opcodes 0x60 to 0x6F of the matrix. -/
def opRow6 : List Shape :=
  [ .alone .rts,
    .byte fun d => .adc (.izx d),
    .bad,
    .bad,
    .bad,
    .byte fun d => .adc (.zp d),
    .byte fun d => .ror (.mem (.zp d)),
    .bad,
    .alone .pla,
    .byte fun d => .adc (.imm d),
    .alone (.ror .acc),
    .bad,
    .word fun a => .jmp (.ind a),
    .word fun a => .adc (.abs a),
    .word fun a => .ror (.mem (.abs a)),
    .bad ]

/-- Opcodes 0x70 to 0x7F of the matrix. -/
def opRow7 : List Shape :=
  [ .byte .bvs,
    .byte fun d => .adc (.izy d),
    .bad,
    .bad,
    .bad,
    .byte fun d => .adc (.zpx d),
    .byte fun d => .ror (.mem (.zpx d)),
    .bad,
    .alone .sei,
    .word fun a => .adc (.aby a),
    .bad,
    .bad,
    .bad,
    .word fun a => .adc (.abx a),
    .word fun a => .ror (.mem (.abx a)),
    .bad ]

/-- Opcodes 0x80 to 0x8F of the matrix. -/
def opRow8 : List Shape :=
  [ .bad,
    .byte fun d => .sta (.izx d),
    .bad,
    .bad,
    .byte fun d => .sty (.zp d),
    .byte fun d => .sta (.zp d),
    .byte fun d => .stx (.zp d),
    .bad,
    .alone .dey,
    .bad,
    .alone .txa,
    .bad,
    .word fun a => .sty (.abs a),
    .word fun a => .sta (.abs a),
    .word fun a => .stx (.abs a),
    .bad ]

/-- Opcodes 0x90 to 0x9F of the matrix. -/
def opRow9 : List Shape :=
  [ .byte .bcc,
    .byte fun d => .sta (.izy d),
    .bad,
    .bad,
    .byte fun d => .sty (.zpx d),
    .byte fun d => .sta (.zpx d),
    .byte fun d => .stx (.zpy d),
    .bad,
    .alone .tya,
    .word fun a => .sta (.aby a),
    .alone .txs,
    .bad,
    .bad,
    .word fun a => .sta (.abx a),
    .bad,
    .bad ]

/-- Opcodes 0xA0 to 0xAF of the matrix. -/
def opRowA : List Shape :=
  [ .byte fun d => .ldy (.imm d),
    .byte fun d => .lda (.izx d),
    .byte fun d => .ldx (.imm d),
    .bad,
    .byte fun d => .ldy (.zp d),
    .byte fun d => .lda (.zp d),
    .byte fun d => .ldx (.zp d),
    .bad,
    .alone .tay,
    .byte fun d => .lda (.imm d),
    .alone .tax,
    .bad,
    .word fun a => .ldy (.abs a),
    .word fun a => .lda (.abs a),
    .word fun a => .ldx (.abs a),
    .bad ]

/-- Opcodes 0xB0 to 0xBF of the matrix. -/
def opRowB : List Shape :=
  [ .byte .bcs,
    .byte fun d => .lda (.izy d),
    .bad,
    .bad,
    .byte fun d => .ldy (.zpx d),
    .byte fun d => .lda (.zpx d),
    .byte fun d => .ldx (.zpy d),
    .bad,
    .alone .clv,
    .word fun a => .lda (.aby a),
    .alone .tsx,
    .bad,
    .word fun a => .ldy (.abx a),
    .word fun a => .lda (.abx a),
    .word fun a => .ldx (.aby a),
    .bad ]

/-- Opcodes 0xC0 to 0xCF of the matrix. -/
def opRowC : List Shape :=
  [ .byte fun d => .cpy (.imm d),
    .byte fun d => .cmp (.izx d),
    .bad,
    .bad,
    .byte fun d => .cpy (.zp d),
    .byte fun d => .cmp (.zp d),
    .byte fun d => .dec (.zp d),
    .bad,
    .alone .iny,
    .byte fun d => .cmp (.imm d),
    .alone .dex,
    .bad,
    .word fun a => .cpy (.abs a),
    .word fun a => .cmp (.abs a),
    .word fun a => .dec (.abs a),
    .bad ]

/-- Opcodes 0xD0 to 0xDF of the matrix. -/
def opRowD : List Shape :=
  [ .byte .bne,
    .byte fun d => .cmp (.izy d),
    .bad,
    .bad,
    .bad,
    .byte fun d => .cmp (.zpx d),
    .byte fun d => .dec (.zpx d),
    .bad,
    .alone .cld,
    .word fun a => .cmp (.aby a),
    .bad,
    .bad,
    .bad,
    .word fun a => .cmp (.abx a),
    .word fun a => .dec (.abx a),
    .bad ]

/-- Opcodes 0xE0 to 0xEF of the matrix. -/
def opRowE : List Shape :=
  [ .byte fun d => .cpx (.imm d),
    .byte fun d => .sbc (.izx d),
    .bad,
    .bad,
    .byte fun d => .cpx (.zp d),
    .byte fun d => .sbc (.zp d),
    .byte fun d => .inc (.zp d),
    .bad,
    .alone .inx,
    .byte fun d => .sbc (.imm d),
    .alone .nop,
    .bad,
    .word fun a => .cpx (.abs a),
    .word fun a => .sbc (.abs a),
    .word fun a => .inc (.abs a),
    .bad ]

/-- Opcodes 0xF0 to 0xFF of the matrix. -/
def opRowF : List Shape :=
  [ .byte .beq,
    .byte fun d => .sbc (.izy d),
    .bad,
    .bad,
    .bad,
    .byte fun d => .sbc (.zpx d),
    .byte fun d => .inc (.zpx d),
    .bad,
    .alone .sed,
    .word fun a => .sbc (.aby a),
    .bad,
    .bad,
    .bad,
    .word fun a => .sbc (.abx a),
    .word fun a => .inc (.abx a),
    .bad ]

/-- The opcode matrix, row after row: entry `op` is what opcode byte `op` announces (R81). -/
def opMatrix : List Shape :=
  opRow0 ++ opRow1 ++ opRow2 ++ opRow3 ++ opRow4 ++ opRow5 ++ opRow6 ++ opRow7 ++
  opRow8 ++ opRow9 ++ opRowA ++ opRowB ++ opRowC ++ opRowD ++ opRowE ++ opRowF

/-- The table look-up `OPTABLE[op]` (R81): all eight bits of the opcode byte are significant. -/
def opShape (op : Byte) : Shape := opMatrix.getD op.toNat .bad

/-- The 16-bit operand of format F3: its low byte stands first (R42, R83). -/
def operandWord (lo hi : Byte) : Word := hi ++ lo

/-- Why bytes are no instruction. -/
inductive DecodeError
  /-- There is no opcode byte. -/
  | noOpcode
  /-- The opcode's operand bytes are not all there. -/
  | operandMissing (op : Byte)
  deriving DecidableEq, Repr

/-- The instruction at the head of a list of bytes, and the bytes after it (R80, R81, R83). -/
def decode : List Byte → Except DecodeError (Instr × List Byte)
  | [] => .error .noOpcode
  | op :: rest =>
    match opShape op, rest with
    | .bad, r => .ok (.illegal op, r)
    | .alone i, r => .ok (i, r)
    | .padded i, [] => .ok (i, [])
    | .padded i, _ :: r => .ok (i, r)
    | .byte _, [] => .error (.operandMissing op)
    | .byte f, d :: r => .ok (f d, r)
    | .word _, [] => .error (.operandMissing op)
    | .word _, [_] => .error (.operandMissing op)
    | .word f, lo :: hi :: r => .ok (f (operandWord lo hi), r)

/-- The two bytes of a 16-bit operand as memory holds them, low byte first (R42). -/
def wordBytes (a : Word) : List Byte := [a.setWidth 8, (a >>> 8).setWidth 8]

/-! The opcode of each row, by operand; the arguments are the opcode bytes in the order of the rules' Encoding tables. -/

def AluOperand.opcode (imm' zp' zpx' abs' abx' aby' izx' izy' : Byte) : AluOperand → Byte
  | .imm _ => imm'
  | .zp _ => zp'
  | .zpx _ => zpx'
  | .abs _ => abs'
  | .abx _ => abx'
  | .aby _ => aby'
  | .izx _ => izx'
  | .izy _ => izy'

def AluOperand.bytes : AluOperand → List Byte
  | .imm d => [d]
  | .zp d => [d]
  | .zpx d => [d]
  | .abs a => wordBytes a
  | .abx a => wordBytes a
  | .aby a => wordBytes a
  | .izx d => [d]
  | .izy d => [d]

def LdxOperand.opcode (imm' zp' zpy' abs' aby' : Byte) : LdxOperand → Byte
  | .imm _ => imm'
  | .zp _ => zp'
  | .zpy _ => zpy'
  | .abs _ => abs'
  | .aby _ => aby'

def LdxOperand.bytes : LdxOperand → List Byte
  | .imm d => [d]
  | .zp d => [d]
  | .zpy d => [d]
  | .abs a => wordBytes a
  | .aby a => wordBytes a

def LdyOperand.opcode (imm' zp' zpx' abs' abx' : Byte) : LdyOperand → Byte
  | .imm _ => imm'
  | .zp _ => zp'
  | .zpx _ => zpx'
  | .abs _ => abs'
  | .abx _ => abx'

def LdyOperand.bytes : LdyOperand → List Byte
  | .imm d => [d]
  | .zp d => [d]
  | .zpx d => [d]
  | .abs a => wordBytes a
  | .abx a => wordBytes a

def CpOperand.opcode (imm' zp' abs' : Byte) : CpOperand → Byte
  | .imm _ => imm'
  | .zp _ => zp'
  | .abs _ => abs'

def CpOperand.bytes : CpOperand → List Byte
  | .imm d => [d]
  | .zp d => [d]
  | .abs a => wordBytes a

def BitOperand.opcode (zp' abs' : Byte) : BitOperand → Byte
  | .zp _ => zp'
  | .abs _ => abs'

def BitOperand.bytes : BitOperand → List Byte
  | .zp d => [d]
  | .abs a => wordBytes a

def StaOperand.opcode (zp' zpx' abs' abx' aby' izx' izy' : Byte) : StaOperand → Byte
  | .zp _ => zp'
  | .zpx _ => zpx'
  | .abs _ => abs'
  | .abx _ => abx'
  | .aby _ => aby'
  | .izx _ => izx'
  | .izy _ => izy'

def StaOperand.bytes : StaOperand → List Byte
  | .zp d => [d]
  | .zpx d => [d]
  | .abs a => wordBytes a
  | .abx a => wordBytes a
  | .aby a => wordBytes a
  | .izx d => [d]
  | .izy d => [d]

def StxOperand.opcode (zp' zpy' abs' : Byte) : StxOperand → Byte
  | .zp _ => zp'
  | .zpy _ => zpy'
  | .abs _ => abs'

def StxOperand.bytes : StxOperand → List Byte
  | .zp d => [d]
  | .zpy d => [d]
  | .abs a => wordBytes a

def StyOperand.opcode (zp' zpx' abs' : Byte) : StyOperand → Byte
  | .zp _ => zp'
  | .zpx _ => zpx'
  | .abs _ => abs'

def StyOperand.bytes : StyOperand → List Byte
  | .zp d => [d]
  | .zpx d => [d]
  | .abs a => wordBytes a

def RmwOperand.opcode (zp' zpx' abs' abx' : Byte) : RmwOperand → Byte
  | .zp _ => zp'
  | .zpx _ => zpx'
  | .abs _ => abs'
  | .abx _ => abx'

def RmwOperand.bytes : RmwOperand → List Byte
  | .zp d => [d]
  | .zpx d => [d]
  | .abs a => wordBytes a
  | .abx a => wordBytes a

def JmpOperand.opcode (abs' ind' : Byte) : JmpOperand → Byte
  | .abs _ => abs'
  | .ind _ => ind'

def JmpOperand.bytes : JmpOperand → List Byte
  | .abs a => wordBytes a
  | .ind a => wordBytes a

def ShiftOperand.opcode (acc' zp' zpx' abs' abx' : Byte) : ShiftOperand → Byte
  | .acc => acc'
  | .mem m => m.opcode zp' zpx' abs' abx'

def ShiftOperand.bytes : ShiftOperand → List Byte
  | .acc => []
  | .mem m => m.bytes

/-- The opcode byte of an instruction (the Encoding tables of R101 to R168). -/
def Instr.opcode : Instr → Byte
  | .adc o => o.opcode 0x69 0x65 0x75 0x6D 0x7D 0x79 0x61 0x71
  | .sbc o => o.opcode 0xE9 0xE5 0xF5 0xED 0xFD 0xF9 0xE1 0xF1
  | .and o => o.opcode 0x29 0x25 0x35 0x2D 0x3D 0x39 0x21 0x31
  | .ora o => o.opcode 0x09 0x05 0x15 0x0D 0x1D 0x19 0x01 0x11
  | .eor o => o.opcode 0x49 0x45 0x55 0x4D 0x5D 0x59 0x41 0x51
  | .bit o => o.opcode 0x24 0x2C
  | .inc o => o.opcode 0xE6 0xF6 0xEE 0xFE
  | .dec o => o.opcode 0xC6 0xD6 0xCE 0xDE
  | .inx => 0xE8
  | .iny => 0xC8
  | .dex => 0xCA
  | .dey => 0x88
  | .asl o => o.opcode 0x0A 0x06 0x16 0x0E 0x1E
  | .lsr o => o.opcode 0x4A 0x46 0x56 0x4E 0x5E
  | .rol o => o.opcode 0x2A 0x26 0x36 0x2E 0x3E
  | .ror o => o.opcode 0x6A 0x66 0x76 0x6E 0x7E
  | .cmp o => o.opcode 0xC9 0xC5 0xD5 0xCD 0xDD 0xD9 0xC1 0xD1
  | .cpx o => o.opcode 0xE0 0xE4 0xEC
  | .cpy o => o.opcode 0xC0 0xC4 0xCC
  | .lda o => o.opcode 0xA9 0xA5 0xB5 0xAD 0xBD 0xB9 0xA1 0xB1
  | .ldx o => o.opcode 0xA2 0xA6 0xB6 0xAE 0xBE
  | .ldy o => o.opcode 0xA0 0xA4 0xB4 0xAC 0xBC
  | .sta o => o.opcode 0x85 0x95 0x8D 0x9D 0x99 0x81 0x91
  | .stx o => o.opcode 0x86 0x96 0x8E
  | .sty o => o.opcode 0x84 0x94 0x8C
  | .tax => 0xAA
  | .tay => 0xA8
  | .txa => 0x8A
  | .tya => 0x98
  | .tsx => 0xBA
  | .txs => 0x9A
  | .pha => 0x48
  | .php => 0x08
  | .pla => 0x68
  | .plp => 0x28
  | .bcc _ => 0x90
  | .bcs _ => 0xB0
  | .beq _ => 0xF0
  | .bne _ => 0xD0
  | .bmi _ => 0x30
  | .bpl _ => 0x10
  | .bvc _ => 0x50
  | .bvs _ => 0x70
  | .jmp o => o.opcode 0x4C 0x6C
  | .jsr _ => 0x20
  | .rts => 0x60
  | .rti => 0x40
  | .brk => 0x00
  | .clc => 0x18
  | .sec => 0x38
  | .cli => 0x58
  | .sei => 0x78
  | .cld => 0xD8
  | .sed => 0xF8
  | .clv => 0xB8
  | .nop => 0xEA
  | .illegal op => op

/-- The bytes after the opcode. BRK's padding byte is written as 0x00 (DESIGN CHOICE, log 14: any byte encodes BRK). -/
def Instr.operandBytes : Instr → List Byte
  | .adc o => o.bytes
  | .sbc o => o.bytes
  | .and o => o.bytes
  | .ora o => o.bytes
  | .eor o => o.bytes
  | .bit o => o.bytes
  | .inc o => o.bytes
  | .dec o => o.bytes
  | .inx => []
  | .iny => []
  | .dex => []
  | .dey => []
  | .asl o => o.bytes
  | .lsr o => o.bytes
  | .rol o => o.bytes
  | .ror o => o.bytes
  | .cmp o => o.bytes
  | .cpx o => o.bytes
  | .cpy o => o.bytes
  | .lda o => o.bytes
  | .ldx o => o.bytes
  | .ldy o => o.bytes
  | .sta o => o.bytes
  | .stx o => o.bytes
  | .sty o => o.bytes
  | .tax => []
  | .tay => []
  | .txa => []
  | .tya => []
  | .tsx => []
  | .txs => []
  | .pha => []
  | .php => []
  | .pla => []
  | .plp => []
  | .bcc d => [d]
  | .bcs d => [d]
  | .beq d => [d]
  | .bne d => [d]
  | .bmi d => [d]
  | .bpl d => [d]
  | .bvc d => [d]
  | .bvs d => [d]
  | .jmp o => o.bytes
  | .jsr a => wordBytes a
  | .rts => []
  | .rti => []
  | .brk => [0x00]
  | .clc => []
  | .sec => []
  | .cli => []
  | .sei => []
  | .cld => []
  | .sed => []
  | .clv => []
  | .nop => []
  | .illegal _ => []

/-- The bytes of an instruction, in increasing address order (R80). -/
def encode (i : Instr) : List Byte := i.opcode :: i.operandBytes

/-- The first three bytes of an instruction whose bits are `w`, numbered as spec/opcode_table.json numbers them: bit 0
is the least significant bit of the first byte, and every bit above `nbits` is 0. -/
def tableBytes (nbits w : Nat) : List Byte :=
  let v := w % 2 ^ nbits
  [BitVec.ofNat 8 v, BitVec.ofNat 8 (v / 2 ^ 8), BitVec.ofNat 8 (v / 2 ^ 16)]

/-- The instruction the decoder reads from a word of the opcode table. -/
def decodeTableWord (nbits w : Nat) : Option Instr :=
  match decode (tableBytes nbits w) with
  | .ok (i, _) => some i
  | .error _ => none

end Sys2Proof
end

