-- ==== Sys2Proof/Machine/State.lean ====
section
/-!
DEFINITION. The state of the machine as plain data, the ways a step can stop, and the state after reset
(spec 10_state.md; INVENTORY.md, heading State, lists every field with its rule and its reset value).
-/

namespace Sys2Proof.Machine

/-- A sparse storage of `w`-bit cells: the listed (index, value) pairs, an unlisted index reading as 0 (log 2). In
canonical form the indexes strictly rise and no listed value is 0 (`Memory.wf`). -/
abbrev Memory (w : Nat) := List (Nat × BitVec w)

/-- The interrupt slot (R15). -/
inductive IrqSlot
  | none
  | nmi
  | irq
  deriving DecidableEq, Repr

/-- CPU Engine state (R10 to R17). -/
structure Cpu where
  a : Byte
  x : Byte
  y : Byte
  sp : Byte
  pc : Word
  p : Byte
  irqSlot : IrqSlot
  stall : Nat
  cycles : Nat
  deriving DecidableEq, Repr

/-- The memories the Bus owns and its diagnostic counter (R20, R21). -/
structure Bus where
  ram : Memory 8
  nt : Memory 8
  pal : Memory 8
  unmapped : Nat
  deriving DecidableEq, Repr

/-- The nametable mirroring modes (R55, C10). -/
inductive Mirroring
  | horizontal
  | vertical
  | single0
  | single1
  | four
  deriving DecidableEq, Repr

/-- What the cartridge holds (R22, R201). `n16`, `n4`, `mirror0` and `prg` are configuration (R4) that the loader
supplies; they stand here so that a program is data of a state, and no step changes them (log 12). -/
structure Cartridge where
  n16 : Nat
  n4 : Nat
  mirror0 : Mirroring
  prg : Memory 8
  sram : Memory 8
  chr : Memory 8
  deriving DecidableEq, Repr

/-- MapperState of variant A (R23). -/
structure MapperA where
  bank : Nat
  deriving DecidableEq, Repr

/-- MapperState of variant B (R24): the serial port, the four registers, and what each commit recomputes. -/
structure MapperB where
  shift : BitVec 5
  count : Nat
  control : BitVec 5
  chr0 : BitVec 5
  chr1 : BitVec 5
  prg : BitVec 4
  prgOff0 : Nat
  prgOff1 : Nat
  chrOff0 : Nat
  chrOff1 : Nat
  mirror : Mirroring
  deriving DecidableEq, Repr

/-- The Mapper: `MAPPER_VARIANT` (R4, R202) and its state. -/
inductive Mapper
  | variantA (st : MapperA)
  | variantB (st : MapperB)
  deriving DecidableEq, Repr

/-- One entry of the sprite buffers (R32): pattern, position, priority, source index. -/
structure Sprite where
  pattern : BitVec 32
  x : Byte
  prio : Bool
  idx : BitVec 6
  deriving DecidableEq, Repr

/-- Picture Engine state (R26 to R33). -/
structure Ppu where
  dot : Nat
  scanline : Nat
  frame : Nat
  v : ScrollAddr
  t : ScrollAddr
  x : BitVec 3
  w : Bool
  ctrl : Byte
  mask : Byte
  sprOverflow : Bool
  spr0Hit : Bool
  nmiOccurred : Bool
  oamAddr : Byte
  readBuffer : Byte
  regLatch : Byte
  oam : Memory 8
  nmiPrevious : Bool
  nmiDelay : Nat
  ntByte : Byte
  atBits : BitVec 4
  loTile : Byte
  hiTile : Byte
  tileData : BitVec 64
  sprCount : Nat
  sprites : List Sprite
  front : Memory 6
  back : Memory 6
  deriving DecidableEq, Repr

/-- The shift-register contract of one controller port (R52, log 7). -/
structure Pad where
  strobe : Bool
  index : Nat
  deriving DecidableEq, Repr

/-- The model's own fields for the outside (R34, R303): the controllers' contract state, the counter of the free
external values, the schedule of `triggerIRQ()` calls, and the writes the audio port has received, newest first. -/
structure Ext where
  pad1 : Pad
  pad2 : Pad
  draws : Nat
  irqCalls : List Bool
  audioLog : List (Word × Byte)
  deriving DecidableEq, Repr

/-- The whole machine (R1, R18). -/
structure State where
  cpu : Cpu
  bus : Bus
  cart : Cartridge
  mapper : Mapper
  ppu : Ppu
  ext : Ext
  deriving DecidableEq, Repr

/-- Why a step stops with a fault. -/
inductive Fault
  /-- `UnimplementedOpcode(op, pc)` (R98, R168, R312): raised by the meaning of `illegal` for the 105 opcode bytes that
  are not official. Safe: the spec gives the step no successor state. -/
  | unimplementedOpcode (op : Byte) (pc : Word)
  deriving DecidableEq, Repr

/-- Why something has no meaning. -/
inductive Refusal
  /-- An instruction without a meaning: raised by no arm of `exec` in this model. Safe. -/
  | notModelled (mnemonic : String)
  /-- The refusal of an image the loader must reject (R201, R202, U21; R313 leaves the LoadError itself outside the model,
  log 16): raised by `construct`, never by a step. Safe: no machine is built. -/
  | loadError
  deriving DecidableEq, Repr

/-- What the external loader produces (R22): bank counts (`chrBanks = 0`: the image has no CHR data, R201), mapper
identifier, mirroring mode, the PRG and CHR bytes and the persisted save-RAM. -/
structure RomImage where
  mapperId : Nat
  prgBanks : Nat
  chrBanks : Nat
  mirror : Mirroring
  prg : Memory 8
  chr : Memory 8
  sram : Memory 8
  deriving DecidableEq, Repr

/-- `N4` of an image: 8 KB of CHR storage is provided when it has none (R201, D23). -/
def RomImage.n4 (img : RomImage) : Nat := if img.chrBanks = 0 then 2 else img.chrBanks

/-- The CPU Engine at power-on (R36): `irqSlot`, `stall` and `cycles` as the table says; the six registers have no value
before `reset()`, which sets PC, SP and P and leaves A, X and Y: DESIGN CHOICE 0 (log 1). -/
def Cpu.powerOn : Cpu :=
  { a := 0, x := 0, y := 0, sp := 0, pc := 0, p := 0, irqSlot := .none, stall := 0, cycles := 0 }

/-- The Bus at power-on (R36); the memories are unspecified: DESIGN CHOICE nothing listed (log 2). -/
def Bus.powerOn : Bus := { ram := [], nt := [], pal := [], unmapped := 0 }

/-- The mapper at power-on (R36): identifier 1 selects variant B, the others an accepted image can have variant A
(R202). -/
def Mapper.powerOn (img : RomImage) : Mapper :=
  if img.mapperId = 1 then
    .variantB
      { shift := 0, count := 0, control := 0x0C, chr0 := 0, chr1 := 0, prg := 0,
        prgOff0 := 0, prgOff1 := (img.prgBanks - 1) * Config.prgBank,
        chrOff0 := 0, chrOff1 := Config.chrBank, mirror := img.mirror }
  else .variantA { bank := 0 }

/-- An empty sprite entry: the buffers' unspecified power-on contents (R36), DESIGN CHOICE zero (log 10). -/
def Sprite.powerOn : Sprite := { pattern := 0, x := 0, prio := false, idx := 0 }

/-- The Picture Engine at power-on (R36); OAM is DESIGN CHOICE zero (log 2), both framebuffers hold `FB_POWER_ON`,
DESIGN CHOICE 0 (log 4). -/
def Ppu.powerOn : Ppu :=
  { dot := 0, scanline := 0, frame := 0, v := 0, t := 0, x := 0, w := false, ctrl := 0, mask := 0,
    sprOverflow := false, spr0Hit := false, nmiOccurred := false, oamAddr := 0, readBuffer := 0, regLatch := 0,
    oam := [], nmiPrevious := false, nmiDelay := 0, ntByte := 0, atBits := 0, loTile := 0, hiTile := 0,
    tileData := 0, sprCount := 0, sprites := List.replicate Config.maxSprites Sprite.powerOn,
    front := [], back := [] }

/-- The outside before anything happened (logs 6 to 9). -/
def Ext.powerOn : Ext :=
  { pad1 := { strobe := false, index := 0 }, pad2 := { strobe := false, index := 0 },
    draws := 0, irqCalls := [], audioLog := [] }

/-- The machine built around an image, before `reset()` (R36, R341, R342 step 2). -/
def State.powerOn (img : RomImage) : State :=
  { cpu := Cpu.powerOn
    bus := Bus.powerOn
    cart :=
      { n16 := img.prgBanks, n4 := img.n4, mirror0 := img.mirror, prg := img.prg, sram := img.sram,
        chr := if img.chrBanks = 0 then [] else img.chr }
    mapper := Mapper.powerOn img
    ppu := Ppu.powerOn
    ext := Ext.powerOn }

/-- The image `State.reset` is built from: variant A, two 16 KB PRG banks of zeros, no CHR data, horizontal mirroring.
DESIGN CHOICE (log 3): the spec takes the image as a parameter; this is the default machine of 95_test_vectors.md. -/
def RomImage.blank : RomImage :=
  { mapperId := 0, prgBanks := 2, chrBanks := 0, mirror := .horizontal, prg := [], chr := [], sram := [] }

/-- The machine after power-on and `reset()` (R36, R340, R342) with the blank image, whose reset vector reads 0x0000:
PC from the vector, SP 0xFD, P 0x24. `Laws.reset_is_resetCall` says it is `resetCall` of the power-on state. -/
def State.reset : State :=
  { State.powerOn RomImage.blank with
    cpu := { Cpu.powerOn with pc := 0x0000, sp := 0xFD, p := 0x24 } }

end Sys2Proof.Machine
end

