-- ==== Sys2Proof/Machine/Flags.lean ====
section
/-!
DEFINITION. The status byte and every flag computation of the instruction set (R13, R14, R100 to R123), on plain bytes;
and how bits are put into a byte.
-/

namespace Sys2Proof.Machine

/-- A byte whose bit `n` is `b` and whose other bits are 0. -/
def bitByte (b : Bool) (n : Nat) : Byte := if b then (1 : Byte) <<< n else 0

/-- The flags of the status register (R13). -/
inductive Flag
  | c
  | z
  | i
  | d
  | b
  | u
  | v
  | n
  deriving DecidableEq, Repr

/-- The bit of the status byte each flag is (R13, D2). -/
def Flag.pos : Flag → Nat
  | .c => 0
  | .z => 1
  | .i => 2
  | .d => 3
  | .b => 4
  | .u => 5
  | .v => 6
  | .n => 7

/-- The flag's bit in a status byte. -/
def getFlag (f : Flag) (p : Byte) : Bool := p.getLsbD f.pos

/-- The status byte with one flag set to `b` and the others as they were. -/
def putFlag (f : Flag) (b : Bool) (p : Byte) : Byte := (p &&& ~~~((1 : Byte) <<< f.pos)) ||| bitByte b f.pos

/-- The status byte as it is pushed: bits 7, 6, 3, 2, 1, 0 of P, bit 5 = 1, bit 4 = `b` (R14). -/
def packP (b : Bool) (p : Byte) : Byte := (p &&& 0xCF) ||| 0x20 ||| bitByte b 4

/-- The status register after a pull of `m`: bit 5 becomes 1 and bit 4 becomes 0 (R14). -/
def unpackP (m : Byte) : Byte := (m &&& 0xCF) ||| 0x20

/-- `SetZN(v)` on a status byte (R100). -/
def putZN (v : Byte) (p : Byte) : Byte := putFlag .n (v.getLsbD 7) (putFlag .z (v == 0) p)

/-- The 9-bit unsigned sum of ADC (R101). -/
def addSum (a m : Byte) (c : Bool) : BitVec 9 := a.setWidth 9 + m.setWidth 9 + (if c then 1 else 0)

/-- The result byte of an addition (R101). -/
def addResult (a m : Byte) (c : Bool) : Byte := (addSum a m c).setWidth 8

/-- The carry out of an addition: bit 8 of the sum (R101). -/
def addCarry (a m : Byte) (c : Bool) : Bool := (addSum a m c).getLsbD 8

/-- The signed overflow of an addition: both addends have the sign the result has not (R101). -/
def addOverflow (a m : Byte) (c : Bool) : Bool :=
  ((a ^^^ addResult a m c) &&& (m ^^^ addResult a m c)).getLsbD 7

/-- The operand SBC adds: the one's complement of the memory byte (R102). -/
def borrowOperand (m : Byte) : Byte := m ^^^ 0xFF

/-- The status byte after an addition into the accumulator (R101): C, V, then Z and N of the result. -/
def addFlags (a m : Byte) (c : Bool) (p : Byte) : Byte :=
  putZN (addResult a m c) (putFlag .v (addOverflow a m c) (putFlag .c (addCarry a m c) p))

/-- The status byte after a compare of `r` with `m` (R120 to R123). -/
def compareFlags (r m : Byte) (p : Byte) : Byte :=
  putZN (r - m) (putFlag .c (decide (m.toNat ≤ r.toNat)) p)

/-- The status byte after BIT (R106): Z from the AND, V and N from bits 6 and 7 of memory. -/
def bitFlags (a m : Byte) (p : Byte) : Byte :=
  putFlag .n (m.getLsbD 7) (putFlag .v (m.getLsbD 6) (putFlag .z ((a &&& m) == 0) p))

/-- What a shift or rotate makes of a byte and the old carry: the result and the carry out (R116 to R119). -/
structure Shifted where
  result : Byte
  carry : Bool
  deriving DecidableEq, Repr

/-- ASL (R116): bit 0 of the result is 0. -/
def shiftAsl (v : Byte) : Shifted := { result := v <<< 1, carry := v.getLsbD 7 }

/-- LSR (R117): bit 7 of the result is 0. -/
def shiftLsr (v : Byte) : Shifted := { result := v >>> 1, carry := v.getLsbD 0 }

/-- ROL (R118): the old carry enters at bit 0. -/
def shiftRol (v : Byte) (c : Bool) : Shifted := { result := v <<< 1 ||| bitByte c 0, carry := v.getLsbD 7 }

/-- ROR (R119): the old carry enters at bit 7. -/
def shiftRor (v : Byte) (c : Bool) : Shifted := { result := v >>> 1 ||| bitByte c 7, carry := v.getLsbD 0 }

/-- The status byte after a shift or rotate: C, then Z and N of the result (R116 to R119). -/
def shiftFlags (r : Shifted) (p : Byte) : Byte := putZN r.result (putFlag .c r.carry p)

end Sys2Proof.Machine
end

