-- ==== Sys2Proof/Machine/Update.lean ====
section
/-!
DEFINITION. The named updates of the state: one per CPU register and one per block. Laws/State.lean says of each what
every field is after it.
-/

namespace Sys2Proof.Machine

def State.setA (s : State) (v : Byte) : State := { s with cpu := { s.cpu with a := v } }

def State.setX (s : State) (v : Byte) : State := { s with cpu := { s.cpu with x := v } }

def State.setY (s : State) (v : Byte) : State := { s with cpu := { s.cpu with y := v } }

def State.setSp (s : State) (v : Byte) : State := { s with cpu := { s.cpu with sp := v } }

def State.setPc (s : State) (v : Word) : State := { s with cpu := { s.cpu with pc := v } }

def State.setP (s : State) (v : Byte) : State := { s with cpu := { s.cpu with p := v } }

def State.setSlot (s : State) (v : IrqSlot) : State := { s with cpu := { s.cpu with irqSlot := v } }

def State.setStall (s : State) (n : Nat) : State := { s with cpu := { s.cpu with stall := n } }

/-- `charge n`: add `n` cycles to the running total (R17, R82). -/
def State.charge (s : State) (n : Nat) : State := { s with cpu := { s.cpu with cycles := s.cpu.cycles + n } }

def State.setBus (s : State) (b : Bus) : State := { s with bus := b }

def State.setCart (s : State) (c : Cartridge) : State := { s with cart := c }

def State.setMapper (s : State) (m : Mapper) : State := { s with mapper := m }

def State.setPpu (s : State) (p : Ppu) : State := { s with ppu := p }

def State.setExt (s : State) (e : Ext) : State := { s with ext := e }

/-- A flag of the status register. -/
def State.flag (s : State) (f : Flag) : Bool := getFlag f s.cpu.p

/-- The state with one flag written. -/
def State.setFlag (s : State) (f : Flag) (b : Bool) : State := s.setP (putFlag f b s.cpu.p)

/-- `SetZN(v)` (R100). -/
def State.setZN (s : State) (v : Byte) : State := s.setP (putZN v s.cpu.p)

end Sys2Proof.Machine
end

