-- ==== Sys2Proof/Machine/External.lean ====
section
/-!
DEFINITION. The interfaces to the outside: the audio port (R50), the two controller ports (R52), and the calls that
request an interrupt (R314, R315). What an external port answers is a free value (logs 6 and 7).
-/

namespace Sys2Proof.Machine

/-- `Audio.read` (R50): a free byte, drawn with the counter of external reads (log 6). -/
def audioRead (s : State) : Byte × State :=
  (Config.audioByte s.ext.draws, s.setExt { s.ext with draws := s.ext.draws + 1 })

/-- `Audio.write(a, v)` (R50): no core state changes; the write is recorded for the host (R305, log 9). -/
def audioWrite (s : State) (a : Word) (v : Byte) : State :=
  s.setExt { s.ext with audioLog := (a, v) :: s.ext.audioLog }

/-- `Audio.step()` (R300, R303): no effect on core state. -/
def audioStep (s : State) : State := s

/-- The contract state of a controller port. -/
def Ext.pad (e : Ext) : Port → Pad
  | .one => e.pad1
  | .two => e.pad2

/-- The outside with one controller's contract state replaced. -/
def Ext.setPad (e : Ext) (port : Port) (p : Pad) : Ext :=
  match port with
  | .one => { e with pad1 := p }
  | .two => { e with pad2 := p }

/-- The bit a controller read returns (R52): the free state of the next button, and "no button" past index 7 (log 7). -/
def padBit (e : Ext) (port : Port) : Bool :=
  if (e.pad port).index < 8 then Config.buttonDown port (e.pad port).index e.draws else false

/-- The read index after a read (R52): held at 0 under the strobe, else advanced and clamped. -/
def Pad.advance (p : Pad) : Pad := { p with index := if p.strobe then 0 else min (p.index + 1) 8 }

/-- `Controller.read()` as a byte: the bit in bit 0, bits 7:1 zero (R44, R52, D18). -/
def padRead (s : State) (port : Port) : Byte × State :=
  (bitByte (padBit s.ext port) 0,
    s.setExt { s.ext.setPad port (s.ext.pad port).advance with draws := s.ext.draws + 1 })

/-- `Controller.write(v)` (R52): the strobe is the value's low bit; an odd value resets the read index to 0. -/
def Pad.strobeWrite (p : Pad) (v : Byte) : Pad :=
  { strobe := v.getLsbD 0, index := if v.getLsbD 0 then 0 else p.index }

/-- A CPU write of 0x4016 reaches both controllers (R45, R52). -/
def padWrite (s : State) (v : Byte) : State :=
  s.setExt { s.ext with pad1 := s.ext.pad1.strobeWrite v, pad2 := s.ext.pad2.strobeWrite v }

/-- `triggerNMI()` (R314): unconditional. -/
def triggerNmi (s : State) : State := s.setSlot .nmi

/-- `triggerIRQ()` (R315): dropped while I is set or an NMI is pending. -/
def triggerIrq (s : State) : State :=
  if s.flag .i then s
  else if s.cpu.irqSlot = .nmi then s
  else s.setSlot .irq

/-- The outside's call before a step, if its schedule holds one (R303, U20, log 8); the schedule advances. -/
def takeIrqCall (s : State) : State :=
  match s.ext.irqCalls with
  | [] => s
  | true :: r => triggerIrq (s.setExt { s.ext with irqCalls := r })
  | false :: r => s.setExt { s.ext with irqCalls := r }

end Sys2Proof.Machine
end

