-- ==== Sys2Proof/Machine/Memory.lean ====
section
/-!
DEFINITION. The sparse storages: reading and writing one cell, and their canonical form (log 2).
-/

namespace Sys2Proof.Machine

/-- The value at index `k`: an unlisted index reads as 0. -/
def Memory.read {w : Nat} : Memory w → Nat → BitVec w
  | [], _ => 0
  | (i, u) :: r, k => if i = k then u else Memory.read r k

/-- The storage with index `k` unlisted. -/
def Memory.erase {w : Nat} : Memory w → Nat → Memory w
  | [], _ => []
  | (i, u) :: r, k => if i = k then Memory.erase r k else (i, u) :: Memory.erase r k

/-- The storage with the pair `(k, u)` put before the first index that is not smaller. -/
def Memory.insert {w : Nat} : Memory w → Nat → BitVec w → Memory w
  | [], k, u => [(k, u)]
  | (i, v) :: r, k, u => if k ≤ i then (k, u) :: (i, v) :: r else (i, v) :: Memory.insert r k u

/-- The storage after index `k` is set to `u`; writing 0 unlists the index, so equal contents are equal data. -/
def Memory.write {w : Nat} (m : Memory w) (k : Nat) (u : BitVec w) : Memory w :=
  if u = 0 then Memory.erase m k else Memory.insert (Memory.erase m k) k u

/-- The indexes strictly rise, from `lo` on, and no listed value is 0. -/
def Memory.risesFrom {w : Nat} : Nat → Memory w → Bool
  | _, [] => true
  | lo, (i, u) :: r => decide (lo ≤ i) && decide (u ≠ 0) && Memory.risesFrom (i + 1) r

/-- The canonical form: indexes strictly rising, no listed value 0. -/
def Memory.wf {w : Nat} (m : Memory w) : Bool := Memory.risesFrom 0 m

/-- Every listed index is below `size`. -/
def Memory.within {w : Nat} (size : Nat) (m : Memory w) : Bool := m.all fun c => decide (c.1 < size)

end Sys2Proof.Machine
end

