-- ==== Sys2Proof/Machine/Cartridge.lean ====
section
/-!
DEFINITION. The Mapper: its bus entry points for both variants, the serial port of variant B, and building the machine
from an image (spec 46_mapper.md).
-/

namespace Sys2Proof.Machine

/-- The current mirroring mode (R25, R209). -/
def State.mirror (s : State) : Mirroring :=
  match s.mapper with
  | .variantA _ => s.cart.mirror0
  | .variantB m => m.mirror

/-- The byte offset into PRG of a CPU address from 0x8000 up (R204, R210). -/
def prgIndex (s : State) (a : Word) : Nat :=
  let n := a.toNat
  match s.mapper with
  | .variantA m =>
    if n < 0xC000 then m.bank * Config.prgBank + (n - 0x8000)
    else (s.cart.n16 - 1) * Config.prgBank + (n - 0xC000)
  | .variantB m =>
    if n < 0xC000 then m.prgOff0 + (n - 0x8000) else m.prgOff1 + (n - 0xC000)

/-- `MapperCpuRead(a)` for `a` from 0x6000 up (R204, R208, R210). Reads have no side effect. -/
def mapperCpuRead (s : State) (a : Word) : Byte :=
  if a.toNat < 0x8000 then Memory.read s.cart.sram (a.toNat - 0x6000)
  else Memory.read s.cart.prg (prgIndex s a)

/-- The byte offset into CHR storage of a picture address below 0x2000 (R206, R218). -/
def chrIndex (s : State) (a : PicAddr) : Nat :=
  let n := a.toNat
  match s.mapper with
  | .variantA _ => n
  | .variantB m => if n / 4096 = 0 then m.chrOff0 + n % 4096 else m.chrOff1 + n % 4096

/-- `MapperChrRead(a)` (R206, R218). -/
def mapperChrRead (s : State) (a : PicAddr) : Byte := Memory.read s.cart.chr (chrIndex s a)

/-- `MapperChrWrite(a, v)` (R207, R219). -/
def mapperChrWrite (s : State) (a : PicAddr) (v : Byte) : State :=
  s.setCart { s.cart with chr := Memory.write s.cart.chr (chrIndex s a) v }

/-- `P(i)`: the offset of PRG bank `i`, bank numbers beyond the storage wrapping (R216). -/
def prgOffset (n16 i : Nat) : Nat := i % n16 * Config.prgBank

/-- `C(i)`: the offset of CHR bank `i` (R216). -/
def chrOffset (n4 i : Nat) : Nat := i % n4 * Config.chrBank

/-- The mirroring mode the control register's bits 1:0 name (R213, R216). -/
def controlMirror (control : BitVec 5) : Mirroring :=
  match (control.setWidth 2).toNat with
  | 0 => .single0
  | 1 => .single1
  | 2 => .vertical
  | _ => .horizontal

/-- The two PRG offsets of `Recompute` (R216), by the PRG mode in control bits 3:2. -/
def prgWindows (n16 : Nat) (m : MapperB) : Nat × Nat :=
  match ((m.control >>> 2).setWidth 2).toNat with
  | 2 => (prgOffset n16 0, prgOffset n16 m.prg.toNat)
  | 3 => (prgOffset n16 m.prg.toNat, prgOffset n16 (n16 - 1))
  | _ => (prgOffset n16 (m.prg &&& 0xE).toNat, prgOffset n16 (m.prg ||| 1).toNat)

/-- The two CHR offsets of `Recompute` (R216), by the CHR mode in control bit 4. -/
def chrWindows (n4 : Nat) (m : MapperB) : Nat × Nat :=
  if m.control.getLsbD 4 then (chrOffset n4 m.chr0.toNat, chrOffset n4 m.chr1.toNat)
  else (chrOffset n4 (m.chr0 &&& 0x1E).toNat, chrOffset n4 (m.chr0 ||| 1).toNat)

/-- `Recompute()` (R216). -/
def recompute (n16 n4 : Nat) (m : MapperB) : MapperB :=
  { m with
    prgOff0 := (prgWindows n16 m).1
    prgOff1 := (prgWindows n16 m).2
    chrOff0 := (chrWindows n4 m).1
    chrOff1 := (chrWindows n4 m).2
    mirror := controlMirror m.control }

/-- `Commit(a, val)` (R212): address bits 14:13 select the register; then `Recompute`. -/
def commit (n16 n4 : Nat) (a : Word) (val : BitVec 5) (m : MapperB) : MapperB :=
  let m' :=
    match ((a >>> 13).setWidth 2).toNat with
    | 0 => { m with control := val }
    | 1 => { m with chr0 := val }
    | 2 => { m with chr1 := val }
    | _ => { m with prg := val.setWidth 4 }
  recompute n16 n4 m'

/-- The serial port shift of one bit: bit 0 of `v` enters at bit 4 (R211). -/
def shiftIn (v : Byte) (shift : BitVec 5) : BitVec 5 := (shift >>> 1) ||| ((v &&& 1).setWidth 5 <<< 4)

/-- A write to the serial port (R211): a reset write, or one bit, the fifth of which commits. -/
def serialWrite (n16 n4 : Nat) (a : Word) (v : Byte) (m : MapperB) : MapperB :=
  if v.getLsbD 7 then
    recompute n16 n4 { m with shift := 0, count := 0, control := m.control ||| 0x0C }
  else if m.count + 1 = 5 then
    commit n16 n4 a (shiftIn v m.shift) { m with shift := 0, count := 0 }
  else { m with shift := shiftIn v m.shift, count := m.count + 1 }

/-- A mapper register write: an address from 0x8000 up (R205, R211, R217). Nothing is stored in PRG. -/
def mapperRegisterWrite (s : State) (a : Word) (v : Byte) : State :=
  match s.mapper with
  | .variantA m => s.setMapper (.variantA { m with bank := v.toNat % s.cart.n16 })
  | .variantB m => s.setMapper (.variantB (serialWrite s.cart.n16 s.cart.n4 a v m))

/-- `MapperCpuWrite(a, v)` for `a` from 0x6000 up (R205, R208, R217). -/
def mapperCpuWrite (s : State) (a : Word) (v : Byte) : State :=
  if a.toNat < 0x8000 then s.setCart { s.cart with sram := Memory.write s.cart.sram (a.toNat - 0x6000) v }
  else mapperRegisterWrite s a v

/-- `MapperStep()` (R203): neither variant does anything. -/
def mapperStep (s : State) : State := s

/-- The shapes the loader guarantees (R201, R202, U21): a known mapper identifier, bank counts, and storages in
canonical form within their sizes. -/
def RomImage.valid (img : RomImage) : Bool :=
  decide (img.mapperId ≤ 2) && decide (1 ≤ img.prgBanks) && decide (img.chrBanks ≠ 1) &&
  Memory.wf img.prg && Memory.within (img.prgBanks * Config.prgBank) img.prg &&
  Memory.wf img.chr && Memory.within (img.chrBanks * Config.chrBank) img.chr &&
  Memory.wf img.sram && Memory.within Config.sramSize img.sram

end Sys2Proof.Machine
end

