-- ==== Sys2Proof/Machine/Picture.lean ====
section
/-!
DEFINITION. Picture space (R53 to R56) and the picture registers the CPU sees, but for OAM DMA, which reads CPU space
and stands in Ops.lean (spec 47_picture_registers.md); the NMI edge detector (R262).
-/

namespace Sys2Proof.Machine

/-- `LUT[mirror][table]` of R55. -/
def mirrorTable (mode : Mirroring) (table : Nat) : Nat :=
  match mode, table with
  | .horizontal, 0 => 0
  | .horizontal, 1 => 0
  | .horizontal, _ => 1
  | .vertical, 0 => 0
  | .vertical, 1 => 1
  | .vertical, 2 => 0
  | .vertical, _ => 1
  | .single0, _ => 0
  | .single1, _ => 1
  | .four, t => t

/-- `NtIndex(mirror, a')` (R55). -/
def ntIndex (mode : Mirroring) (a : PicAddr) : Nat :=
  let rel := (a.toNat - 0x2000) % 0x1000
  (mirrorTable mode (rel / 0x400) * 0x400 + rel % 0x400) % Config.ntSize

/-- `PalIndex(a')` (R56). -/
def palIndex (a : PicAddr) : Nat :=
  let i := a.toNat % 32
  if 16 ≤ i ∧ i % 4 = 0 then i - 16 else i

/-- `PpuRead(a)` (R53). Reads have no side effect; a 14-bit address is already reduced. -/
def ppuRead (s : State) (a : PicAddr) : Byte :=
  if a.toNat < 0x2000 then mapperChrRead s a
  else if a.toNat < 0x3F00 then Memory.read s.bus.nt (ntIndex s.mirror a)
  else Memory.read s.bus.pal (palIndex a)

/-- `PpuWrite(a, v)` (R54). -/
def ppuWrite (s : State) (a : PicAddr) (v : Byte) : State :=
  if a.toNat < 0x2000 then mapperChrWrite s a v
  else if a.toNat < 0x3F00 then s.setBus { s.bus with nt := Memory.write s.bus.nt (ntIndex s.mirror a) v }
  else s.setBus { s.bus with pal := Memory.write s.bus.pal (palIndex a) v }

/-- The eight picture registers (R230). -/
inductive PicReg
  | control
  | mask
  | status
  | oamAddr
  | oamData
  | scroll
  | address
  | data
  deriving DecidableEq, Repr

/-- The register a CPU address in 0x2000 to 0x3FFF decodes to: number `a & 7` (R47, R230). -/
def picReg (a : Word) : PicReg :=
  match (a.setWidth 3).toNat with
  | 0 => .control
  | 1 => .mask
  | 2 => .status
  | 3 => .oamAddr
  | 4 => .oamData
  | 5 => .scroll
  | 6 => .address
  | _ => .data

/-- Rendering enabled (R232). -/
def Ppu.rendering (p : Ppu) : Bool := p.mask.getLsbD 3 || p.mask.getLsbD 4

/-- `NmiChange()` (R262): a rising edge of the NMI output starts the delay. -/
def Ppu.nmiChange (p : Ppu) : Ppu :=
  let nmi := p.ctrl.getLsbD 7 && p.nmiOccurred
  { p with
    nmiDelay := if nmi && !p.nmiPrevious then Config.nmiDelay else p.nmiDelay
    nmiPrevious := nmi }

/-- The status byte (R233, R236). -/
def Ppu.status (p : Ppu) : Byte :=
  (p.regLatch &&& 0x1F) ||| bitByte p.sprOverflow 5 ||| bitByte p.spr0Hit 6 ||| bitByte p.nmiOccurred 7

/-- What a status read leaves (R236): the latch and the toggle cleared. -/
def Ppu.afterStatusRead (p : Ppu) : Ppu := { ({ p with nmiOccurred := false } : Ppu).nmiChange with w := false }

/-- The data port's address step (R242, R243): 1 or 32, modulo 2^15. -/
def Ppu.advanceV (p : Ppu) : ScrollAddr := p.v + (if p.ctrl.getLsbD 2 then 32 else 1)

/-- The picture address the data port uses: `v mod 0x4000` (R242, R243, C11). -/
def Ppu.dataAddr (p : Ppu) : PicAddr := p.v.setWidth 14

/-- A data-port read below 0x3F00 answers the buffer, from 0x3F00 on the palette byte (R242). -/
def dataPortValue (s : State) : Byte :=
  if s.ppu.dataAddr.toNat < 0x3F00 then s.ppu.readBuffer else ppuRead s s.ppu.dataAddr

/-- What the read buffer takes on a data-port read (R242). -/
def dataPortBuffer (s : State) : Byte :=
  if s.ppu.dataAddr.toNat < 0x3F00 then ppuRead s s.ppu.dataAddr else ppuRead s (s.ppu.dataAddr - 0x1000)

/-- `PpuRegRead` for the eight registers (R230, R236, R239, R242, R244). -/
def ppuRegRead (s : State) : PicReg → Byte × State
  | .control => (0, s)
  | .mask => (0, s)
  | .status => (s.ppu.status, s.setPpu s.ppu.afterStatusRead)
  | .oamAddr => (0, s)
  | .oamData => (Memory.read s.ppu.oam s.ppu.oamAddr.toNat, s)
  | .scroll => (0, s)
  | .address => (0, s)
  | .data =>
    (dataPortValue s, s.setPpu { s.ppu with readBuffer := dataPortBuffer s, v := s.ppu.advanceV })

/-- Write of the control register (R234). -/
def Ppu.writeControl (p : Ppu) (v : Byte) : Ppu :=
  let p' := ({ p with ctrl := v } : Ppu).nmiChange
  { p' with t := (p'.t &&& 0x73FF) ||| ((v &&& 3).setWidth 15 <<< 10) }

/-- Store one byte through the OAM port and advance its address (R239, R245). -/
def Ppu.storeOam (p : Ppu) (v : Byte) : Ppu :=
  { p with oam := Memory.write p.oam p.oamAddr.toNat v, oamAddr := p.oamAddr + 1 }

/-- Write of the scroll register (R240). -/
def Ppu.writeScroll (p : Ppu) (v : Byte) : Ppu :=
  if p.w then
    let t1 := (p.t &&& 0x0FFF) ||| ((v &&& 0x07).setWidth 15 <<< 12)
    { p with t := (t1 &&& 0x7C1F) ||| ((v &&& 0xF8).setWidth 15 <<< 2), w := false }
  else
    { p with t := (p.t &&& 0x7FE0) ||| (v >>> 3).setWidth 15, x := (v &&& 7).setWidth 3, w := true }

/-- Write of the address register (R241). -/
def Ppu.writeAddress (p : Ppu) (v : Byte) : Ppu :=
  if p.w then
    let t' := (p.t &&& 0x7F00) ||| v.setWidth 15
    { p with t := t', v := t', w := false }
  else
    { p with t := (p.t &&& 0x00FF) ||| ((v &&& 0x3F).setWidth 15 <<< 8), w := true }

/-- Every register write first sets `regLatch` (R244). -/
def State.latch (s : State) (v : Byte) : State := s.setPpu { s.ppu with regLatch := v }

/-- `PpuRegWrite` for the eight registers (R230, R234 to R243). -/
def ppuRegWrite (s : State) (r : PicReg) (v : Byte) : State :=
  let s := s.latch v
  match r with
  | .control => s.setPpu (s.ppu.writeControl v)
  | .mask => s.setPpu { s.ppu with mask := v }
  | .status => s
  | .oamAddr => s.setPpu { s.ppu with oamAddr := v }
  | .oamData => s.setPpu (s.ppu.storeOam v)
  | .scroll => s.setPpu (s.ppu.writeScroll v)
  | .address => s.setPpu (s.ppu.writeAddress v)
  | .data =>
    let s' := ppuWrite s s.ppu.dataAddr v
    s'.setPpu { s'.ppu with v := s'.ppu.advanceV }

end Sys2Proof.Machine
end

