-- ==== Sys2Proof/Machine/Ops.lean ====
section
/-!
DEFINITION. The named operations over CPU space and the registers: one-byte reads and writes with every side effect
(R44, R45), OAM DMA (R72, R245), 16-bit reads (R42, R43), the stack (R59), taking an interrupt or a trap and returning
from one (R157, R158, R317), and `reset()` (R340).
-/

namespace Sys2Proof.Machine

/-- `note UnmappedAccess` (R51). -/
def noteUnmapped (s : State) : State := s.setBus { s.bus with unmapped := s.bus.unmapped + 1 }

/-- `MemRead(a, 1)` (R44): the byte read and the state after the read's side effects. -/
def memRead (s : State) (a : Word) : Byte × State :=
  let n := a.toNat
  if n < 0x2000 then (Memory.read s.bus.ram (n % Config.ramSize), s)
  else if n < 0x4000 then ppuRegRead s (picReg a)
  else if n < 0x4014 then (0, noteUnmapped s)
  else if n = 0x4014 then (0, s)
  else if n = 0x4015 then audioRead s
  else if n = 0x4016 then padRead s .one
  else if n = 0x4017 then padRead s .two
  else if n < 0x6000 then (0, noteUnmapped s)
  else (mapperCpuRead s a, s)

/-- The value a one-byte read of `a` returns. -/
def peek (s : State) (a : Word) : Byte := (memRead s a).1

/-- The state after a one-byte read of `a`. -/
def afterRead (s : State) (a : Word) : State := (memRead s a).2

/-- `DMA_STALL(c)` (R4, D15). -/
def dmaStall (cycles : Nat) : Nat := 513 + cycles % 2

/-- The CPU-space address of byte `k` of page `v` (R72, R245). -/
def pageAddr (v : Byte) (k : Nat) : Word := (v.setWidth 16 <<< 8) + BitVec.ofNat 16 k

/-- One byte of an OAM DMA (R245): a CPU-space read with its side effects, then a store through the OAM port. -/
def dmaByte (v : Byte) (s : State) (k : Nat) : State :=
  let r := memRead s (pageAddr v k)
  r.2.setPpu (r.2.ppu.storeOam r.1)

/-- The 256 bytes of an OAM DMA, in order (R245). -/
def dmaCopy (v : Byte) (s : State) : State := (List.range 256).foldl (dmaByte v) s

/-- The write of 0x4014 (R245): latch, copy, then the stall of the CPU. -/
def oamDma (s : State) (v : Byte) : State :=
  let s' := dmaCopy v (s.latch v)
  s'.setStall (s'.cpu.stall + dmaStall s'.cpu.cycles)

/-- `MemWrite(a, 1, v)` (R45). -/
def memWrite (s : State) (a : Word) (v : Byte) : State :=
  let n := a.toNat
  if n < 0x2000 then s.setBus { s.bus with ram := Memory.write s.bus.ram (n % Config.ramSize) v }
  else if n < 0x4000 then ppuRegWrite s (picReg a) v
  else if n < 0x4014 then audioWrite s a v
  else if n = 0x4014 then oamDma s v
  else if n = 0x4015 then audioWrite s a v
  else if n = 0x4016 then padWrite s v
  else if n = 0x4017 then audioWrite s a v
  else if n < 0x6000 then noteUnmapped s
  else mapperCpuWrite s a v

/-- The 16-bit quantity of a high and a low byte. -/
def joinBytes (hi lo : Byte) : Word := hi ++ lo

/-- The high byte of a 16-bit quantity; the page of an address (00_scope.md section 5). -/
def highByte (w : Word) : Byte := (w >>> 8).setWidth 8

/-- The low byte of a 16-bit quantity. -/
def lowByte (w : Word) : Byte := w.setWidth 8

/-- Two one-byte reads, the low byte first (R42, R43). -/
def readPair (s : State) (lo hi : Word) : Word × State :=
  let l := memRead s lo
  let h := memRead l.2 hi
  (joinBytes h.1 l.1, h.2)

/-- `Read16(a)` (R42): the high byte from `a + 1`. -/
def read16 (s : State) (a : Word) : Word × State := readPair s a (a + 1)

/-- The address after `a` in the same page (R43): the low byte wraps without carrying. -/
def nextInPage (a : Word) : Word := joinBytes (highByte a) (lowByte a + 1)

/-- `Read16Bug(a)` (R43): the high byte from the same page as the low byte. -/
def read16Bug (s : State) (a : Word) : Word × State := readPair s a (nextInPage a)

/-- The stack location a stack pointer names: page 1 (R11). -/
def stackAddr (sp : Byte) : Word := 0x0100 + sp.setWidth 16

/-- `Push(v)` (R59). -/
def push (s : State) (v : Byte) : State :=
  let s' := memWrite s (stackAddr s.cpu.sp) v
  s'.setSp (s'.cpu.sp - 1)

/-- `Pull()` (R59). -/
def pull (s : State) : Byte × State :=
  let s' := s.setSp (s.cpu.sp + 1)
  memRead s' (stackAddr s'.cpu.sp)

/-- `Push16(w)` (R59): high byte first. -/
def push16 (s : State) (w : Word) : State := push (push s (highByte w)) (lowByte w)

/-- `Pull16()` (R59): low byte first. -/
def pull16 (s : State) : Word × State :=
  let l := pull s
  let h := pull l.2
  (joinBytes h.1 l.1, h.2)

/-- The NMI vector (R58). -/
def nmiVector : Word := 0xFFFA

/-- The reset vector (R58). -/
def resetVector : Word := 0xFFFC

/-- The IRQ and BRK vector (R58). -/
def irqVector : Word := 0xFFFE

/-- Taking an interrupt or the BRK trap (R158, R317): push PC and the status with bit 4 = `b`, set I, load PC from the
vector. -/
def enterHandler (s : State) (vec : Word) (b : Bool) : State :=
  let s1 := push16 s s.cpu.pc
  let s2 := push s1 (packP b s1.cpu.p)
  let s3 := s2.setFlag .i true
  let r := read16 s3 vec
  r.2.setPc r.1

/-- The return from an interrupt or trap (R157): pull the status (bits 4 and 5 fixed), then PC. -/
def returnFromHandler (s : State) : State :=
  let m := pull s
  let r := pull16 (m.2.setP (unpackP m.1))
  r.2.setPc r.1

/-- `ServiceInterrupt()` (R317). -/
def serviceInterrupt (s : State) : State :=
  let vec := if s.cpu.irqSlot = .nmi then nmiVector else irqVector
  ((enterHandler s vec false).setSlot .none).charge 7

/-- A stall step (R316): one cycle, nothing fetched. -/
def stallStep (s : State) : State := (s.setStall (s.cpu.stall - 1)).charge 1

/-- `reset()` (R302, R340): PC from the reset vector, SP, P, the slot and the stall; nothing else. -/
def resetCall (s : State) : State :=
  let r := read16 s resetVector
  ((((r.2.setPc r.1).setSp 0xFD).setP 0x24).setSlot .none).setStall 0

/-- Building the machine from an image and the mandatory first `reset()` (R341, R342): an image that breaks the
loader's guarantees is refused and builds nothing (R304, U21, log 16). -/
def construct (img : RomImage) : Host.Outcome State Fault Refusal :=
  if img.valid then .next (resetCall (State.powerOn img)) else .refused .loadError

end Sys2Proof.Machine
end

