-- ==== Sys2Proof/Machine/Operands.lean ====
section
/-!
DEFINITION. The addressing modes (R84 to R97): the address each resolves to, whether it crossed a page, the lengths
and the cycle costs of the table's rows, and the common beginning of the reading, storing and read-modify-write
instructions (R82: resolve, advance PC, charge, then execute).
-/

namespace Sys2Proof.Machine

/-- The outcome of an instruction's meaning. -/
abbrev Result := Host.Outcome State Fault Refusal

/-- AddressingResult (R19) and the state after the pointer reads resolution makes. -/
structure Resolved where
  addr : Word
  crossed : Bool
  state : State
  deriving DecidableEq, Repr

/-- Whether two addresses differ in their high byte (R97). -/
def pageDiffers (a b : Word) : Bool := highByte a != highByte b

/-- `Resolve(mode)` for the data modes (R87 to R91, R93 to R95). -/
def resolve (s : State) : MemOperand → Resolved
  | .zp d => { addr := d.setWidth 16, crossed := false, state := s }
  | .zpx d => { addr := (d + s.cpu.x).setWidth 16, crossed := false, state := s }
  | .zpy d => { addr := (d + s.cpu.y).setWidth 16, crossed := false, state := s }
  | .abs a => { addr := a, crossed := false, state := s }
  | .abx a =>
    { addr := a + s.cpu.x.setWidth 16, crossed := pageDiffers (a + s.cpu.x.setWidth 16) a, state := s }
  | .aby a =>
    { addr := a + s.cpu.y.setWidth 16, crossed := pageDiffers (a + s.cpu.y.setWidth 16) a, state := s }
  | .izx d =>
    let r := read16Bug s ((d + s.cpu.x).setWidth 16)
    { addr := r.1, crossed := false, state := r.2 }
  | .izy d =>
    let r := read16Bug s (d.setWidth 16)
    { addr := r.1 + s.cpu.y.setWidth 16, crossed := pageDiffers (r.1 + s.cpu.y.setWidth 16) r.1, state := r.2 }

/-- The target of a branch: relative to the opcode's address plus 2 (R96). -/
def branchTarget (pc : Word) (d : Byte) : Word := pc + 2 + d.signExtend 16

/-- The length of an instruction with a memory operand (R80). -/
def modeLength : MemOperand → Nat
  | .zp _ => 2
  | .zpx _ => 2
  | .zpy _ => 2
  | .abs _ => 3
  | .abx _ => 3
  | .aby _ => 3
  | .izx _ => 2
  | .izy _ => 2

/-- The base cost of an instruction that reads its memory operand (opcode_table.json; files 40, 42, 43). -/
def readCycles : MemOperand → Nat
  | .zp _ => 3
  | .zpx _ => 4
  | .zpy _ => 4
  | .abs _ => 4
  | .abx _ => 4
  | .aby _ => 4
  | .izx _ => 6
  | .izy _ => 5

/-- The cost of a store, the same whether or not a page is crossed (R97, R128 to R130). -/
def storeCycles : MemOperand → Nat
  | .zp _ => 3
  | .zpx _ => 4
  | .zpy _ => 4
  | .abs _ => 4
  | .abx _ => 5
  | .aby _ => 5
  | .izx _ => 6
  | .izy _ => 6

/-- The cost of a read-modify-write, the same whether or not a page is crossed (R97, R107, R115). -/
def rmwCycles : RmwOperand → Nat
  | .zp _ => 5
  | .zpx _ => 6
  | .abs _ => 6
  | .abx _ => 7

/-- Advance PC by the instruction's length and charge its cost (R82). -/
def advance (s : State) (length cost : Nat) : State := (s.setPc (s.cpu.pc + BitVec.ofNat 16 length)).charge cost

/-- A reading instruction up to and with its data read (R82, R97): the operand and the state after it. The immediate
byte is the one fetched with the instruction (R86, log 11). -/
def loadOperand (s : State) : Operand → Byte × State
  | .imm v => (v, advance s 2 2)
  | .mem m =>
    let r := resolve s m
    memRead (advance r.state (modeLength m) (readCycles m + if r.crossed then 1 else 0)) r.addr

/-- A storing instruction up to its data write (R82, R128): the address and the state before the write. -/
def storeTarget (s : State) (m : MemOperand) : Word × State :=
  let r := resolve s m
  (r.addr, advance r.state (modeLength m) (storeCycles m))

/-- A byte read for modification: where it is, what it is, and the state after the read. -/
structure Loaded where
  addr : Word
  value : Byte
  state : State
  deriving DecidableEq, Repr

/-- A read-modify-write instruction up to and with its read (R82, R115). -/
def rmwLoad (s : State) (o : RmwOperand) : Loaded :=
  let r := resolve s o.mem
  let m := memRead (advance r.state (modeLength o.mem) (rmwCycles o)) r.addr
  { addr := r.addr, value := m.1, state := m.2 }

/-- The one write of a read-modify-write instruction (R115). -/
def rmwStore (l : Loaded) (v : Byte) : State := memWrite l.state l.addr v

end Sys2Proof.Machine
end

