-- ==== Sys2Proof/Machine/Arithmetic.lean ====
section
/-!
DEFINITION. Arithmetic and logic: ADC SBC AND ORA EOR BIT INC DEC INX INY DEX DEY (R101 to R112).
-/

namespace Sys2Proof.Machine

/-- Add `m` and the carry into the accumulator (R101): C, V, then A, Z, N. D is not read (D5). -/
def addToA (s : State) (m : Byte) : State :=
  (s.setP (addFlags s.cpu.a m (s.flag .c) s.cpu.p)).setA (addResult s.cpu.a m (s.flag .c))

/-- Put a result into A and set Z and N from it. -/
def resultToA (s : State) (v : Byte) : State := (s.setA v).setZN v

/-- Put a result into X and set Z and N from it. -/
def resultToX (s : State) (v : Byte) : State := (s.setX v).setZN v

/-- Put a result into Y and set Z and N from it. -/
def resultToY (s : State) (v : Byte) : State := (s.setY v).setZN v

/-- ADC (R101). -/
def execAdc (o : AluOperand) (s : State) : Result :=
  let r := loadOperand s o.operand
  .next (addToA r.2 r.1)

/-- SBC (R102): ADC with the operand complemented. -/
def execSbc (o : AluOperand) (s : State) : Result :=
  let r := loadOperand s o.operand
  .next (addToA r.2 (borrowOperand r.1))

/-- AND (R103). -/
def execAnd (o : AluOperand) (s : State) : Result :=
  let r := loadOperand s o.operand
  .next (resultToA r.2 (r.2.cpu.a &&& r.1))

/-- ORA (R104). -/
def execOra (o : AluOperand) (s : State) : Result :=
  let r := loadOperand s o.operand
  .next (resultToA r.2 (r.2.cpu.a ||| r.1))

/-- EOR (R105). -/
def execEor (o : AluOperand) (s : State) : Result :=
  let r := loadOperand s o.operand
  .next (resultToA r.2 (r.2.cpu.a ^^^ r.1))

/-- BIT (R106). -/
def execBit (o : BitOperand) (s : State) : Result :=
  let r := loadOperand s o.operand
  .next (r.2.setP (bitFlags r.2.cpu.a r.1 r.2.cpu.p))

/-- INC (R107). -/
def execInc (o : RmwOperand) (s : State) : Result :=
  let l := rmwLoad s o
  .next ((rmwStore l (l.value + 1)).setZN (l.value + 1))

/-- DEC (R108). -/
def execDec (o : RmwOperand) (s : State) : Result :=
  let l := rmwLoad s o
  .next ((rmwStore l (l.value - 1)).setZN (l.value - 1))

/-- INX (R109). -/
def execInx (s : State) : Result := .next (resultToX (advance s 1 2) (s.cpu.x + 1))

/-- INY (R110). -/
def execIny (s : State) : Result := .next (resultToY (advance s 1 2) (s.cpu.y + 1))

/-- DEX (R111). -/
def execDex (s : State) : Result := .next (resultToX (advance s 1 2) (s.cpu.x - 1))

/-- DEY (R112). -/
def execDey (s : State) : Result := .next (resultToY (advance s 1 2) (s.cpu.y - 1))

end Sys2Proof.Machine
end

