-- ==== Sys2Proof/Machine/Compare.lean ====
section
/-!
DEFINITION. Compares: CMP CPX CPY (R120 to R123).
-/

namespace Sys2Proof.Machine

/-- CMP (R121). -/
def execCmp (o : AluOperand) (s : State) : Result :=
  let r := loadOperand s o.operand
  .next (r.2.setP (compareFlags r.2.cpu.a r.1 r.2.cpu.p))

/-- CPX (R122). -/
def execCpx (o : CpOperand) (s : State) : Result :=
  let r := loadOperand s o.operand
  .next (r.2.setP (compareFlags r.2.cpu.x r.1 r.2.cpu.p))

/-- CPY (R123). -/
def execCpy (o : CpOperand) (s : State) : Result :=
  let r := loadOperand s o.operand
  .next (r.2.setP (compareFlags r.2.cpu.y r.1 r.2.cpu.p))

end Sys2Proof.Machine
end

