-- ==== Sys2Proof/Machine/Control.lean ====
section
/-!
DEFINITION. Control flow: the eight branches, JMP JSR RTS RTI BRK (R145 to R158), and the illegal opcodes (R168).
-/

namespace Sys2Proof.Machine

/-- `Branch(addr)` (R145): one cycle more, and another when the target lies in a page other than the next
instruction's. -/
def takeBranch (s : State) (target : Word) : State :=
  (s.setPc target).charge (1 + if pageDiffers s.cpu.pc target then 1 else 0)

/-- A conditional branch (R82, R96, R145). -/
def branchIf (cond : Bool) (d : Byte) (s : State) : State :=
  let s1 := advance s 2 2
  if cond then takeBranch s1 (branchTarget s.cpu.pc d) else s1

/-- BCC (R146). -/
def execBcc (d : Byte) (s : State) : Result := .next (branchIf (!s.flag .c) d s)

/-- BCS (R147). -/
def execBcs (d : Byte) (s : State) : Result := .next (branchIf (s.flag .c) d s)

/-- BEQ (R148). -/
def execBeq (d : Byte) (s : State) : Result := .next (branchIf (s.flag .z) d s)

/-- BNE (R149). -/
def execBne (d : Byte) (s : State) : Result := .next (branchIf (!s.flag .z) d s)

/-- BMI (R150). -/
def execBmi (d : Byte) (s : State) : Result := .next (branchIf (s.flag .n) d s)

/-- BPL (R151). -/
def execBpl (d : Byte) (s : State) : Result := .next (branchIf (!s.flag .n) d s)

/-- BVC (R152). -/
def execBvc (d : Byte) (s : State) : Result := .next (branchIf (!s.flag .v) d s)

/-- BVS (R153). -/
def execBvs (d : Byte) (s : State) : Result := .next (branchIf (s.flag .v) d s)

/-- JMP (R154): the operand, or the page-wrapping pointer read of it (R92). -/
def execJmp (o : JmpOperand) (s : State) : Result :=
  match o with
  | .abs a => .next ((advance s 3 3).setPc a)
  | .ind a =>
    let r := read16Bug s a
    .next ((advance r.2 3 5).setPc r.1)

/-- JSR (R155): push the address of the instruction's last byte. -/
def execJsr (a : Word) (s : State) : Result :=
  let s1 := advance s 3 6
  .next ((push16 s1 (s1.cpu.pc - 1)).setPc a)

/-- RTS (R156). -/
def execRts (s : State) : Result :=
  let r := pull16 (advance s 1 6)
  .next (r.2.setPc (r.1 + 1))

/-- RTI (R157). -/
def execRti (s : State) : Result := .next (returnFromHandler (advance s 1 6))

/-- BRK (R158, R311): length 2, then the entry with bit 4 of the pushed status set. -/
def execBrk (s : State) : Result := .next (enterHandler (advance s 2 7) irqVector true)

/-- ILLEGAL (R168, R312): the step has no successor state. -/
def execIllegal (op : Byte) (s : State) : Result := .fault (.unimplementedOpcode op s.cpu.pc)

end Sys2Proof.Machine
end

