-- ==== Sys2Proof/Machine/FlagOps.lean ====
section
/-!
DEFINITION. Flag instructions and NOP: CLC SEC CLI SEI CLD SED CLV NOP (R160 to R167).
-/

namespace Sys2Proof.Machine

/-- CLC (R160). -/
def execClc (s : State) : Result := .next ((advance s 1 2).setFlag .c false)

/-- SEC (R161). -/
def execSec (s : State) : Result := .next ((advance s 1 2).setFlag .c true)

/-- CLI (R162). -/
def execCli (s : State) : Result := .next ((advance s 1 2).setFlag .i false)

/-- SEI (R163). -/
def execSei (s : State) : Result := .next ((advance s 1 2).setFlag .i true)

/-- CLD (R164). -/
def execCld (s : State) : Result := .next ((advance s 1 2).setFlag .d false)

/-- SED (R165). -/
def execSed (s : State) : Result := .next ((advance s 1 2).setFlag .d true)

/-- CLV (R166). -/
def execClv (s : State) : Result := .next ((advance s 1 2).setFlag .v false)

/-- NOP (R167): only PC and the cycle count move. -/
def execNop (s : State) : Result := .next (advance s 1 2)

end Sys2Proof.Machine
end

