-- ==== Sys2Proof/Machine/Shift.lean ====
section
/-!
DEFINITION. Shifts and rotates: ASL LSR ROL ROR (R115 to R119).
-/

namespace Sys2Proof.Machine

/-- A shift or rotate on the accumulator or on a memory byte (R115): `f` is given the byte and the old carry. -/
def shiftOperand (f : Byte → Bool → Shifted) (o : ShiftOperand) (s : State) : State :=
  match o with
  | .acc =>
    let s1 := advance s 1 2
    let r := f s1.cpu.a (s1.flag .c)
    (s1.setA r.result).setP (shiftFlags r s1.cpu.p)
  | .mem m =>
    let l := rmwLoad s m
    let r := f l.value (l.state.flag .c)
    let s1 := rmwStore l r.result
    s1.setP (shiftFlags r s1.cpu.p)

/-- ASL (R116). -/
def execAsl (o : ShiftOperand) (s : State) : Result := .next (shiftOperand (fun v _ => shiftAsl v) o s)

/-- LSR (R117). -/
def execLsr (o : ShiftOperand) (s : State) : Result := .next (shiftOperand (fun v _ => shiftLsr v) o s)

/-- ROL (R118). -/
def execRol (o : ShiftOperand) (s : State) : Result := .next (shiftOperand shiftRol o s)

/-- ROR (R119). -/
def execRor (o : ShiftOperand) (s : State) : Result := .next (shiftOperand shiftRor o s)

end Sys2Proof.Machine
end

