-- ==== Sys2Proof/Machine/Transfer.lean ====
section
/-!
DEFINITION. Loads, stores, register transfers and stack instructions: LDA LDX LDY STA STX STY TAX TAY TXA TYA TSX TXS
PHA PHP PLA PLP (R125 to R140).
-/

namespace Sys2Proof.Machine

/-- LDA (R125). -/
def execLda (o : AluOperand) (s : State) : Result :=
  let r := loadOperand s o.operand
  .next (resultToA r.2 r.1)

/-- LDX (R126). -/
def execLdx (o : LdxOperand) (s : State) : Result :=
  let r := loadOperand s o.operand
  .next (resultToX r.2 r.1)

/-- LDY (R127). -/
def execLdy (o : LdyOperand) (s : State) : Result :=
  let r := loadOperand s o.operand
  .next (resultToY r.2 r.1)

/-- STA (R128). -/
def execSta (o : StaOperand) (s : State) : Result :=
  let t := storeTarget s o.mem
  .next (memWrite t.2 t.1 t.2.cpu.a)

/-- STX (R129). -/
def execStx (o : StxOperand) (s : State) : Result :=
  let t := storeTarget s o.mem
  .next (memWrite t.2 t.1 t.2.cpu.x)

/-- STY (R130). -/
def execSty (o : StyOperand) (s : State) : Result :=
  let t := storeTarget s o.mem
  .next (memWrite t.2 t.1 t.2.cpu.y)

/-- TAX (R131). -/
def execTax (s : State) : Result := .next (resultToX (advance s 1 2) s.cpu.a)

/-- TAY (R132). -/
def execTay (s : State) : Result := .next (resultToY (advance s 1 2) s.cpu.a)

/-- TXA (R133). -/
def execTxa (s : State) : Result := .next (resultToA (advance s 1 2) s.cpu.x)

/-- TYA (R134). -/
def execTya (s : State) : Result := .next (resultToA (advance s 1 2) s.cpu.y)

/-- TSX (R135). -/
def execTsx (s : State) : Result := .next (resultToX (advance s 1 2) s.cpu.sp)

/-- TXS (R136): no flag is written. -/
def execTxs (s : State) : Result := .next ((advance s 1 2).setSp s.cpu.x)

/-- PHA (R137). -/
def execPha (s : State) : Result := .next (push (advance s 1 3) s.cpu.a)

/-- PHP (R138): bits 4 and 5 of the pushed copy are 1. -/
def execPhp (s : State) : Result := .next (push (advance s 1 3) (packP true s.cpu.p))

/-- PLA (R139). -/
def execPla (s : State) : Result :=
  let r := pull (advance s 1 4)
  .next (resultToA r.2 r.1)

/-- PLP (R140). -/
def execPlp (s : State) : Result :=
  let r := pull (advance s 1 4)
  .next (r.2.setP (unpackP r.1))

end Sys2Proof.Machine
end

