-- ==== Sys2Proof/Machine/Pipeline.lean ====
section
/-!
DEFINITION. The Picture Engine's step, one dot (spec 48_picture_pipeline.md): the NMI delay, the counters, background
fetch, scroll movement, sprites, pixel composition, vertical blank.
-/

namespace Sys2Proof.Machine

/-- A visible line: 0 to 239 (R260). -/
def Ppu.visibleLine (p : Ppu) : Bool := decide (p.scanline < 240)

/-- The pre-render line (R260). -/
def Ppu.preLine (p : Ppu) : Bool := decide (p.scanline = 261)

/-- A line the pipeline works on (R260). -/
def Ppu.renderLine (p : Ppu) : Bool := p.visibleLine || p.preLine

/-- A dot that draws a pixel on a visible line (R260). -/
def Ppu.visibleDot (p : Ppu) : Bool := decide (1 ≤ p.dot ∧ p.dot ≤ 256)

/-- A dot that prefetches for the next line (R260). -/
def Ppu.prefetchDot (p : Ppu) : Bool := decide (321 ≤ p.dot ∧ p.dot ≤ 336)

/-- A dot with a background fetch (R260). -/
def Ppu.fetchDot (p : Ppu) : Bool := p.visibleDot || p.prefetchDot

/-- `NmiDelayTick()` (R263). -/
def nmiDelayTick (s : State) : State :=
  if s.ppu.nmiDelay = 0 then s
  else
    let s1 := s.setPpu { s.ppu with nmiDelay := s.ppu.nmiDelay - 1 }
    if s1.ppu.nmiDelay = 0 ∧ s1.ppu.ctrl.getLsbD 7 = true ∧ s1.ppu.nmiOccurred = true then triggerNmi s1 else s1

/-- `Advance()` (R265): the next dot; dot 340 of the pre-render line is skipped on odd frames while rendering. -/
def Ppu.advanceDot (p : Ppu) : Ppu :=
  if p.rendering = true ∧ p.frame % 2 = 1 ∧ p.scanline = 261 ∧ p.dot = 339 then
    { p with dot := 0, scanline := 0, frame := p.frame + 1 }
  else if p.dot + 1 > 340 then
    if p.scanline + 1 > 261 then { p with dot := 0, scanline := 0, frame := p.frame + 1 }
    else { p with dot := 0, scanline := p.scanline + 1 }
  else { p with dot := p.dot + 1 }

/-- `FetchNT` (R271): the address. -/
def ntFetchAddr (v : ScrollAddr) : PicAddr := (0x2000 : PicAddr) ||| (v &&& 0x0FFF).setWidth 14

/-- `FetchAT` (R272): the address. -/
def atFetchAddr (v : ScrollAddr) : PicAddr :=
  ((0x23C0 : ScrollAddr) ||| (v &&& 0x0C00) ||| ((v >>> 4) &&& 0x38) ||| ((v >>> 2) &&& 0x07)).setWidth 14

/-- `FetchAT` (R272): which quadrant, as a shift of 0, 2, 4 or 6. -/
def atShift (v : ScrollAddr) : Nat := (((v >>> 4) &&& 4) ||| (v &&& 2)).toNat

/-- `FetchLow` (R273): the address of the low plane's byte; the high plane's is 8 further. -/
def tileFetchAddr (p : Ppu) : PicAddr :=
  BitVec.ofNat 14
    ((if p.ctrl.getLsbD 4 then 0x1000 else 0) + p.ntByte.toNat * 16 + ((p.v >>> 12) &&& 7).toNat)

/-- `FetchNT` (R271). -/
def fetchNt (s : State) : State := s.setPpu { s.ppu with ntByte := ppuRead s (ntFetchAddr s.ppu.v) }

/-- `FetchAT` (R272). -/
def fetchAt (s : State) : State :=
  s.setPpu
    { s.ppu with
      atBits := (((ppuRead s (atFetchAddr s.ppu.v) >>> atShift s.ppu.v) &&& 3).setWidth 4) <<< 2 }

/-- `FetchLow` (R273). -/
def fetchLow (s : State) : State := s.setPpu { s.ppu with loTile := ppuRead s (tileFetchAddr s.ppu) }

/-- `FetchHigh` (R273). -/
def fetchHigh (s : State) : State := s.setPpu { s.ppu with hiTile := ppuRead s (tileFetchAddr s.ppu + 8) }

/-- One 4-bit pixel (R274, R282): the palette select, and one bit of each plane. -/
def planePixel (attr : BitVec 4) (lo hi : Bool) : BitVec 4 :=
  attr ||| (if hi then 2 else 0) ||| (if lo then 1 else 0)

/-- `n` pixels, leftmost bit of the planes first, shifted into `data` (R274, R282). -/
def packRow (attr : BitVec 4) : Nat → Byte → Byte → BitVec 32 → BitVec 32
  | 0, _, _, data => data
  | n + 1, lo, hi, data =>
    packRow attr n (lo <<< 1) (hi <<< 1)
      ((data <<< 4) ||| (planePixel attr (lo.getLsbD 7) (hi.getLsbD 7)).setWidth 32)

/-- `n` pixels, rightmost bit of the planes first: the horizontal flip (R282). -/
def packRowFlipped (attr : BitVec 4) : Nat → Byte → Byte → BitVec 32 → BitVec 32
  | 0, _, _, data => data
  | n + 1, lo, hi, data =>
    packRowFlipped attr n (lo >>> 1) (hi >>> 1)
      ((data <<< 4) ||| (planePixel attr (lo.getLsbD 0) (hi.getLsbD 0)).setWidth 32)

/-- `LatchTile` (R274): eight pixels into the low half of the shifter. -/
def Ppu.latchTile (p : Ppu) : Ppu :=
  { p with tileData := p.tileData ||| (packRow p.atBits 8 p.loTile p.hiTile 0).setWidth 64 }

/-- The one fetch operation of a fetch dot, by `dot mod 8` (R261, R270). -/
def fetchOperation (s : State) : State :=
  match s.ppu.dot % 8 with
  | 1 => fetchNt s
  | 3 => fetchAt s
  | 5 => fetchLow s
  | 7 => fetchHigh s
  | 0 => s.setPpu s.ppu.latchTile
  | _ => s

/-- The background part of a dot (R261 part 3b, R279): the shifter moves one pixel, then the fetch. -/
def backgroundDot (s : State) : State :=
  if s.ppu.renderLine && s.ppu.fetchDot then
    fetchOperation (s.setPpu { s.ppu with tileData := s.ppu.tileData <<< 4 })
  else s

/-- `IncrementX()` (R275). -/
def incrementX (v : ScrollAddr) : ScrollAddr :=
  if v &&& 0x001F = 31 then (v &&& 0x7FE0) ^^^ 0x0400 else v + 1

/-- The coarse Y after an increment (R278): 29 and 31 wrap to 0. -/
def nextCoarseY (y : ScrollAddr) : ScrollAddr := if y = 29 ∨ y = 31 then 0 else y + 1

/-- `IncrementY()` (R278). -/
def incrementY (v : ScrollAddr) : ScrollAddr :=
  if v &&& 0x7000 ≠ 0x7000 then v + 0x1000
  else
    let v1 := v &&& 0x0FFF
    let y := (v1 &&& 0x03E0) >>> 5
    let v2 := if y = 29 then v1 ^^^ 0x0800 else v1
    (v2 &&& 0x7C1F) ||| (nextCoarseY y <<< 5)

/-- `CopyX()` (R276). -/
def copyX (v t : ScrollAddr) : ScrollAddr := (v &&& 0x7BE0) ||| (t &&& 0x041F)

/-- `CopyY()` (R277). -/
def copyY (v t : ScrollAddr) : ScrollAddr := (v &&& 0x041F) ||| (t &&& 0x7BE0)

/-- Part 3c of a dot (R261, R277). -/
def Ppu.verticalCopy (p : Ppu) : Ppu :=
  if p.preLine = true ∧ 280 ≤ p.dot ∧ p.dot ≤ 304 then { p with v := copyY p.v p.t } else p

/-- Part 3d of a dot (R261, R275, R276, R278), in that order. -/
def Ppu.scrollDot (p : Ppu) : Ppu :=
  if p.renderLine then
    let v1 := if p.fetchDot = true ∧ p.dot % 8 = 0 then incrementX p.v else p.v
    let v2 := if p.dot = 256 then incrementY v1 else v1
    let v3 := if p.dot = 257 then copyX v2 p.t else v2
    { p with v := v3 }
  else p

/-- Byte `k` of OAM (R29, R280). -/
def Ppu.oamByte (p : Ppu) (k : Nat) : Byte := Memory.read p.oam k

/-- The height of a sprite (R231, R281). -/
def Ppu.spriteHeight (p : Ppu) : Nat := if p.ctrl.getLsbD 5 then 16 else 8

/-- The address of a sprite row's low plane byte (R282): table, tile and row after the vertical flip. -/
def spriteFetchAddr (p : Ppu) (tile attr : Byte) (row : Nat) : PicAddr :=
  if p.ctrl.getLsbD 5 then
    let r := if attr.getLsbD 7 then 15 - row else row
    let table := if tile.getLsbD 0 then 0x1000 else 0
    let even := (tile &&& 0xFE).toNat
    BitVec.ofNat 14 (if r > 7 then table + (even + 1) * 16 + (r - 8) else table + even * 16 + r)
  else
    let r := if attr.getLsbD 7 then 7 - row else row
    BitVec.ofNat 14 ((if p.ctrl.getLsbD 3 then 0x1000 else 0) + tile.toNat * 16 + r)

/-- `FetchSpritePattern(i, row)` (R282). -/
def fetchSpritePattern (s : State) (i row : Nat) : BitVec 32 :=
  let attr := s.ppu.oamByte (4 * i + 2)
  let addr := spriteFetchAddr s.ppu (s.ppu.oamByte (4 * i + 1)) attr row
  let lo := ppuRead s addr
  let hi := ppuRead s (addr + 8)
  let sel := ((attr &&& 3).setWidth 4) <<< 2
  if attr.getLsbD 6 then packRowFlipped sel 8 lo hi 0 else packRow sel 8 lo hi 0

/-- The buffer entry of sprite `i` at row `row` (R281). -/
def spriteEntry (s : State) (i row : Nat) : Sprite :=
  { pattern := fetchSpritePattern s i row
    x := s.ppu.oamByte (4 * i + 3)
    prio := (s.ppu.oamByte (4 * i + 2)).getLsbD 5
    idx := BitVec.ofNat 6 i }

/-- Whether sprite `i`'s vertical range includes the target line (R281): `0 <= row < h`. -/
def spriteInRange (p : Ppu) (i : Nat) : Bool :=
  decide ((p.oamByte (4 * i)).toNat ≤ p.scanline ∧ p.scanline - (p.oamByte (4 * i)).toNat < p.spriteHeight)

/-- One slot of the scan (R281): the buffers filled so far and the count of qualifying sprites. -/
def evaluateSlot (s : State) (acc : List Sprite × Nat) (i : Nat) : List Sprite × Nat :=
  if spriteInRange s.ppu i then
    let row := s.ppu.scanline - (s.ppu.oamByte (4 * i)).toNat
    (if acc.2 < Config.maxSprites then acc.1.set acc.2 (spriteEntry s i row) else acc.1, acc.2 + 1)
  else acc

/-- The scan of all 64 slots (R281). -/
def scanSprites (s : State) : List Sprite × Nat := (List.range 64).foldl (evaluateSlot s) (s.ppu.sprites, 0)

/-- `EvaluateSprites()` (R281): at most 8 are kept, the overflow flag set exactly when more qualify. -/
def evaluateSprites (s : State) : State :=
  let r := scanSprites s
  s.setPpu
    { s.ppu with
      sprites := r.1
      sprCount := min r.2 Config.maxSprites
      sprOverflow := s.ppu.sprOverflow || decide (Config.maxSprites < r.2) }

/-- Part 3e of a dot (R261, R281, R283). -/
def spriteDot (s : State) : State :=
  if s.ppu.dot = 257 then
    if s.ppu.visibleLine then evaluateSprites s else s.setPpu { s.ppu with sprCount := 0 }
  else s

/-- Whether a 4-bit pixel is opaque (R286, R287): its pattern bits are not both 0. -/
def opaquePixel (c : BitVec 4) : Bool := decide (c.toNat % 4 ≠ 0)

/-- The background pixel under the beam (R285). -/
def Ppu.backgroundPixel (p : Ppu) : BitVec 4 :=
  if p.mask.getLsbD 3 then ((p.tileData >>> 32) >>> ((7 - p.x.toNat) * 4)).setWidth 4 else 0

/-- A sprite's pixel at column `x` (R286); 0, which is transparent, where the sprite is not. -/
def Sprite.pixel (sp : Sprite) (x : Nat) : BitVec 4 :=
  if sp.x.toNat ≤ x ∧ x - sp.x.toNat ≤ 7 then (sp.pattern >>> ((7 - (x - sp.x.toNat)) * 4)).setWidth 4 else 0

/-- The first sprite in the buffer with an opaque pixel at column `x` (R286). -/
def Ppu.spriteAt (p : Ppu) (x : Nat) : Option Sprite :=
  if p.mask.getLsbD 4 then (p.sprites.take p.sprCount).find? fun sp => opaquePixel (sp.pixel x) else none

/-- What composition gives: the palette entry 0 to 31, and whether sprite zero is hit (R287). -/
structure Composed where
  colour : BitVec 5
  hit : Bool
  deriving DecidableEq, Repr

/-- Composition at column `x` (R287), after the clipping of the leftmost 8 columns. -/
def Ppu.compose (p : Ppu) (x : Nat) : Composed :=
  let bg := if x < 8 ∧ p.mask.getLsbD 1 = false then 0 else p.backgroundPixel
  let sp := if x < 8 ∧ p.mask.getLsbD 2 = false then none else p.spriteAt x
  match opaquePixel bg, sp with
  | false, none => { colour := 0, hit := false }
  | false, some e => { colour := (e.pixel x).setWidth 5 ||| 0x10, hit := false }
  | true, none => { colour := bg.setWidth 5, hit := false }
  | true, some e =>
    { colour := if e.prio then bg.setWidth 5 else (e.pixel x).setWidth 5 ||| 0x10
      hit := e.idx == 0 && decide (x < 255) }

/-- The 6-bit colour index of a palette entry (R288): `pal[PalIndex(0x3F00 + colour)] and 0x3F`. -/
def paletteColour (pal : Memory 8) (colour : BitVec 5) : Colour :=
  (Memory.read pal (palIndex (0x3F00 + colour.setWidth 14))).setWidth 6

/-- The cell of a framebuffer that holds the pixel of column `x`, row `y` (R33, R288). -/
def pixelIndex (x y : Nat) : Nat := y * Config.fbWidth + x

/-- `RenderPixel` (R285 to R288). -/
def renderPixel (s : State) : State :=
  let x := s.ppu.dot - 1
  let c := s.ppu.compose x
  s.setPpu
    { s.ppu with
      spr0Hit := s.ppu.spr0Hit || c.hit
      back := Memory.write s.ppu.back (pixelIndex x s.ppu.scanline) (paletteColour s.bus.pal c.colour) }

/-- Part 3a of a dot (R261). -/
def pixelDot (s : State) : State :=
  if s.ppu.visibleLine && s.ppu.visibleDot then renderPixel s else s

/-- Part 3 of a dot (R261), at the new position, while rendering is enabled. -/
def renderDot (s : State) : State :=
  if s.ppu.rendering then
    let s1 := backgroundDot (pixelDot s)
    spriteDot (s1.setPpu s1.ppu.verticalCopy.scrollDot)
  else s

/-- `VblankStart()` (R264): the framebuffers are exchanged, the latch is set. -/
def Ppu.vblankStart (p : Ppu) : Ppu :=
  ({ p with front := p.back, back := p.front, nmiOccurred := true } : Ppu).nmiChange

/-- `VblankEnd()` (R266). -/
def Ppu.vblankEnd (p : Ppu) : Ppu :=
  { ({ p with nmiOccurred := false } : Ppu).nmiChange with spr0Hit := false, sprOverflow := false }

/-- Parts 4 and 5 of a dot (R261, R264, R266). -/
def Ppu.vblankDot (p : Ppu) : Ppu :=
  if p.scanline = 241 ∧ p.dot = 1 then p.vblankStart
  else if p.scanline = 261 ∧ p.dot = 1 then p.vblankEnd
  else p

/-- `PpuStep()` (R261): one dot, its parts in order. -/
def ppuStep (s : State) : State :=
  let s1 := nmiDelayTick s
  let s2 := renderDot (s1.setPpu s1.ppu.advanceDot)
  s2.setPpu s2.ppu.vblankDot

/-- The RGBA value of a pixel of the front framebuffer (R33, R288): what the presentation layer shows; its width
of 32 bits is the model's choice (log 17). -/
def frontRgba (s : State) (x y : Nat) : BitVec 32 :=
  Config.paletteRgba (Memory.read s.ppu.front (pixelIndex x y))

end Sys2Proof.Machine
end

