-- ==== Sys2Proof/Machine/Orchestrator.lean ====
section
/-!
DEFINITION. The CPU Engine's step (R82), the Orchestrator (spec 49_orchestrator.md), and how an instruction is placed
where the next step fetches it.
-/

namespace Sys2Proof.Machine

/-- The instruction at PC and the state after the reads of its bytes (R82, R83): the opcode, then the operand bytes in
increasing address order; BRK's padding byte is not read (R158). -/
def fetchInstr (s : State) : Instr × State :=
  let r := memRead s s.cpu.pc
  match opShape r.1 with
  | .bad => (.illegal r.1, r.2)
  | .alone i => (i, r.2)
  | .padded i => (i, r.2)
  | .byte f =>
    let d := memRead r.2 (s.cpu.pc + 1)
    (f d.1, d.2)
  | .word f =>
    let w := read16 r.2 (s.cpu.pc + 1)
    (f w.1, w.2)

/-- Fetch and run one instruction (R82). -/
def runInstr (s : State) : Result := exec (fetchInstr s).1 (fetchInstr s).2

/-- `CpuStep()` (R82, R318): a stall step, an interrupt service, or one instruction; an IRQ in the slot while I is set
is dropped and the step goes on (R317, D9). The cycles it returns are the increase of `cpu.cycles` (log 18). -/
def cpuStep (s : State) : Result :=
  if 0 < s.cpu.stall then .next (stallStep s)
  else
    match s.cpu.irqSlot with
    | .nmi => .next (serviceInterrupt s)
    | .irq => if s.flag .i then runInstr (s.setSlot .none) else .next (serviceInterrupt s)
    | .none => runInstr s

/-- `n` picture dots, each with its mapper step (R300). -/
def runDots : Nat → State → State
  | 0, s => s
  | n + 1, s => runDots n (mapperStep (ppuStep s))

/-- `n` audio steps (R300). -/
def runAudio : Nat → State → State
  | 0, s => s
  | n + 1, s => runAudio n (audioStep s)

/-- What follows a CPU step of `c` cycles (R300): `3 c` dots, then `c` audio steps. -/
def afterCpu (c : Nat) (s : State) : State := runAudio c (runDots (Config.dotsPerCycle * c) s)

/-- The Orchestrator's `step()` (R300) from a state in which the outside's calls have been made. -/
def orchestrate (s : State) : Result :=
  match cpuStep s with
  | .next t => .next (afterCpu (t.cpu.cycles - s.cpu.cycles) t)
  | .fault f => .fault f
  | .refused r => .refused r

/-- One step of the machine: the outside's `triggerIRQ()` call if its schedule holds one (R303, log 8), then `step()`. -/
def machineStep (s : State) : Result := orchestrate (takeIrqCall s)

/-- The halted machine a failing step leaves, which the host may inspect and reset (R312, D53, log 13): the state before
the step, with the outside's call of before the step made (log 8) and the opcode byte read, with that read's side effect. -/
def halted (s : State) : State := afterRead (takeIrqCall s) s.cpu.pc

/-- How `stepFrame()` ends (R301): with the machine it leaves in every case. -/
inductive FrameEnd
  /-- The frame counter changed. -/
  | completed (t : State)
  /-- A step raised an error: the error, and the halted machine as R312 says. -/
  | aborted (f : Fault) (t : State)
  /-- A step was refused; no step of this model is. -/
  | refused (r : Refusal)
  deriving DecidableEq, Repr

/-- `step()` again and again, at most `n` times, until the frame counter is no longer `f` or a step raises an error
(R301). -/
def runToFrame (f : Nat) : Nat → State → FrameEnd
  | 0, s => .completed s
  | n + 1, s =>
    match machineStep s with
    | .next t => if t.ppu.frame = f then runToFrame f n t else .completed t
    | .fault e => .aborted e (halted s)
    | .refused r => .refused r

/-- `stepFrame()` (R301). A frame has at most 89342 dots and a step at least 3, so 29781 steps are enough (log 19). -/
def stepFrame (s : State) : FrameEnd := runToFrame s.ppu.frame 29781 s

/-- Whether a byte can be put at a CPU address: work RAM, save-RAM or PRG storage (R44). -/
def holdsBytes (a : Word) : Bool := decide (a.toNat < 0x2000) || decide (0x6000 ≤ a.toNat)

/-- Put a byte where a read of `a` finds it: the loader's act, not a bus write (R305, log 23). -/
def placeByte (s : State) (a : Word) (v : Byte) : State :=
  if a.toNat < 0x2000 then s.setBus { s.bus with ram := Memory.write s.bus.ram (a.toNat % Config.ramSize) v }
  else if a.toNat < 0x6000 then s
  else if a.toNat < 0x8000 then s.setCart { s.cart with sram := Memory.write s.cart.sram (a.toNat - 0x6000) v }
  else s.setCart { s.cart with prg := Memory.write s.cart.prg (prgIndex s a) v }

/-- Put bytes at `a` and the addresses after it. -/
def placeBytes (s : State) (a : Word) : List Byte → State
  | [] => s
  | v :: r => placeBytes (placeByte s a v) (a + 1) r

/-- The outside's schedule with no call before the next step. -/
def holdIrqCall : List Bool → List Bool
  | [] => []
  | _ :: r => false :: r

/-- The state whose next step fetches `bytes` (at most three, log 23): no stall, no request, no `triggerIRQ()` call due,
and PC where it is if bytes can be put there, else at 0x0000. -/
def placeInstr (s : State) (bytes : List Byte) : State :=
  let pc := s.cpu.pc
  let s1 := if holdsBytes pc && holdsBytes (pc + 1) && holdsBytes (pc + 2) then s else s.setPc 0
  let s2 := ((s1.setStall 0).setSlot .none).setExt { s1.ext with irqCalls := holdIrqCall s1.ext.irqCalls }
  placeBytes s2 s2.cpu.pc bytes

end Sys2Proof.Machine
end

