-- ==== Sys2Proof/Machine/Step.lean ====
section
/-!
DEFINITION. The machine's step: one Orchestrator `step()` (R300), with the outside's call before it (log 8).
-/

namespace Sys2Proof.Machine

/-- One step: a stall step, an interrupt service or one instruction, then its picture dots (R82, R300). -/
def step (s : State) : Host.Outcome State Fault Refusal := machineStep s

/-- The state whose very next step fetches and runs the instruction of a word of the opcode table (log 3, log 23). -/
def State.withFetchWord (s : State) (nbits w : Nat) : State := placeInstr s (tableBytes nbits w)

end Sys2Proof.Machine
end

