-- ==== Sys2Proof/Safety.lean ====
section
/-!
DEFINITION. The terms claims are stated in: the invariant of the machine (R24, R26, R31, R32, R35, R216 and the
canonical form of the storages), what stays the same across an instruction, and the tables of what each instruction
may write (R10, R11, R13 and the "Flags written" lines of the rules).
-/

namespace Sys2Proof.Machine

/-! ## The invariant -/

/-- A storage in canonical form with every listed index below `size`. -/
structure Memory.Ok {w : Nat} (size : Nat) (m : Memory w) : Prop where
  wf : Memory.wf m = true
  within : Memory.within size m = true

/-- The CPU part: bits 5 and 4 of P are 1 and 0 at all times after reset (R14a, R35). -/
structure Cpu.Ok (c : Cpu) : Prop where
  unusedSet : getFlag .u c.p = true
  breakClear : getFlag .b c.p = false

/-- The Bus memories have their shape (R20, R21). -/
structure Bus.Ok (b : Bus) : Prop where
  ram : Memory.Ok Config.ramSize b.ram
  nt : Memory.Ok Config.ntSize b.nt
  pal : Memory.Ok Config.palSize b.pal

/-- The cartridge's storages have their shape and there is at least one PRG bank and 8 KB of CHR (R201). -/
structure Cartridge.Ok (c : Cartridge) : Prop where
  n16 : 1 ≤ c.n16
  n4 : 2 ≤ c.n4
  prg : Memory.Ok (c.n16 * Config.prgBank) c.prg
  sram : Memory.Ok Config.sramSize c.sram
  chr : Memory.Ok (c.n4 * Config.chrBank) c.chr

/-- Variant B: fewer than five bits collected, and every window inside the storage it indexes (R24, R35, R216). -/
structure MapperB.Ok (c : Cartridge) (m : MapperB) : Prop where
  count : m.count ≤ 4
  prg0 : m.prgOff0 + Config.prgBank ≤ c.n16 * Config.prgBank
  prg1 : m.prgOff1 + Config.prgBank ≤ c.n16 * Config.prgBank
  chr0 : m.chrOff0 + Config.chrBank ≤ c.n4 * Config.chrBank
  chr1 : m.chrOff1 + Config.chrBank ≤ c.n4 * Config.chrBank

/-- The mapper's state is legal for the cartridge; variant A's bank is a bank (R23). -/
def Mapper.Ok (c : Cartridge) : Mapper → Prop
  | .variantA m => m.bank < c.n16
  | .variantB m => MapperB.Ok c m

/-- The Picture Engine part: counters in range (R26), at most 8 sprites in an 8-entry buffer (R32, R35), the delay in
range (R30), the edge detector remembering the NMI output (R262), the palette select one of 0, 4, 8, 12 (R31), the
storages in form (R29, R33). -/
structure Ppu.Ok (p : Ppu) : Prop where
  dot : p.dot ≤ 340
  scanline : p.scanline ≤ 261
  sprCount : p.sprCount ≤ Config.maxSprites
  sprites : p.sprites.length = Config.maxSprites
  nmiDelay : p.nmiDelay ≤ Config.nmiDelay
  nmiPrevious : p.nmiPrevious = (p.ctrl.getLsbD 7 && p.nmiOccurred)
  atBits : p.atBits &&& 3 = 0
  oam : Memory.Ok Config.oamSize p.oam
  front : Memory.Ok (Config.fbWidth * Config.fbHeight) p.front
  back : Memory.Ok (Config.fbWidth * Config.fbHeight) p.back

/-- The controllers' read indexes are clamped (R52). -/
structure Ext.Ok (e : Ext) : Prop where
  pad1 : e.pad1.index ≤ 8
  pad2 : e.pad2.index ≤ 8

/-- The invariant of the machine. -/
structure Inv (s : State) : Prop where
  cpu : s.cpu.Ok
  bus : s.bus.Ok
  cart : s.cart.Ok
  mapper : s.mapper.Ok s.cart
  ppu : s.ppu.Ok
  ext : Ext.Ok s.ext

/-! ## Frames -/

/-- Two CPU addresses name one storage cell: work RAM appears four times (R46). -/
def sameCell (a b : Word) : Bool :=
  if a.toNat < 0x2000 ∧ b.toNat < 0x2000 then a.toNat % Config.ramSize == b.toNat % Config.ramSize else a == b

/-- A read of the address has no side effect (R63). -/
def quiet (a : Word) : Bool :=
  decide (a.toNat < 0x2000) ||
  (decide (0x2000 ≤ a.toNat ∧ a.toNat < 0x4000) && a.toNat % 8 != 2 && a.toNat % 8 != 7) ||
  a == 0x4014 || decide (0x6000 ≤ a.toNat)

/-- No byte of memory differs: the storages, the mapper, OAM, and every CPU read of work RAM, save-RAM or PRG. -/
structure SameMemory (s t : State) : Prop where
  ram : t.bus.ram = s.bus.ram
  nt : t.bus.nt = s.bus.nt
  pal : t.bus.pal = s.bus.pal
  cart : t.cart = s.cart
  mapper : t.mapper = s.mapper
  oam : t.ppu.oam = s.ppu.oam
  bytes : ∀ a, holdsBytes a = true → peek t a = peek s a

/-- Nothing outside the CPU differs. -/
structure SameOutside (s t : State) : Prop where
  bus : t.bus = s.bus
  cart : t.cart = s.cart
  mapper : t.mapper = s.mapper
  ppu : t.ppu = s.ppu
  ext : t.ext = s.ext

/-- Nothing outside the CPU differs but work RAM. -/
structure SameButRam (s t : State) : Prop where
  nt : t.bus.nt = s.bus.nt
  pal : t.bus.pal = s.bus.pal
  unmapped : t.bus.unmapped = s.bus.unmapped
  cart : t.cart = s.cart
  mapper : t.mapper = s.mapper
  ppu : t.ppu = s.ppu
  ext : t.ext = s.ext

/-- Which cell of picture space an address names: the storage (0 CHR, 1 nametable RAM, 2 palette) and the index in it
(R53 to R56). -/
def pictureCell (s : State) (q : PicAddr) : Nat × Nat :=
  if q.toNat < 0x2000 then (0, chrIndex s q)
  else if q.toNat < 0x3F00 then (1, ntIndex s.mirror q)
  else (2, palIndex q)

/-- `t` is `s` after one store at `a`: every byte of memory outside the cell of `a` is as it was (R45, R57): CPU reads
of work RAM, save-RAM and PRG, picture space, OAM, and each storage that `a` cannot name. An `a` from 0x8000 up is a
mapper register: it changes which PRG and CHR bytes the windows show, never a byte of PRG or CHR (R71, R205, R217). An `a`
of 0x4014 writes all of OAM (R245). -/
structure StoreFrame (s t : State) (a : Word) : Prop where
  bytes : ∀ b, holdsBytes b = true → sameCell a b = false → (a.toNat < 0x8000 ∨ b.toNat < 0x8000) → peek t b = peek s b
  prg : t.cart.prg = s.cart.prg
  ram : 0x2000 ≤ a.toNat → t.bus.ram = s.bus.ram
  sram : a.toNat < 0x6000 ∨ 0x8000 ≤ a.toNat → t.cart.sram = s.cart.sram
  mapper : a.toNat < 0x8000 → t.mapper = s.mapper
  picture : (a.toNat < 0x2000 ∨ 0x4000 ≤ a.toNat ∨ a.toNat % 8 ≠ 7) →
    t.bus.nt = s.bus.nt ∧ t.bus.pal = s.bus.pal ∧ t.cart.chr = s.cart.chr
  pictureByte : 0x2000 ≤ a.toNat → a.toNat < 0x4000 →
    ∀ q, pictureCell s q ≠ pictureCell s s.ppu.dataAddr → ppuRead t q = ppuRead s q
  oam : (a.toNat < 0x2000 ∨ 0x4000 ≤ a.toNat ∨ a.toNat % 8 ≠ 4) → a ≠ 0x4014 → t.ppu.oam = s.ppu.oam
  oamByte : 0x2000 ≤ a.toNat → a.toNat < 0x4000 →
    ∀ k, k ≠ s.ppu.oamAddr.toNat → Memory.read t.ppu.oam k = Memory.read s.ppu.oam k

/-! ## Flags, as the rules describe them -/

/-- `p'` is `p` with Z and N set from `v` (R100): Z iff `v` is zero, N its bit 7, no other flag written. -/
structure ZnFlags (p p' v : Byte) : Prop where
  z : getFlag .z p' = decide (v.toNat = 0)
  n : getFlag .n p' = decide (128 ≤ v.toNat)
  others : ∀ f, f ≠ .z → f ≠ .n → getFlag f p' = getFlag f p

/-- `p'` is `p` with C, Z and N set as a shift or a compare sets them: C as given, Z and N from `v`. -/
structure CznFlags (p p' : Byte) (c : Bool) (v : Nat) : Prop where
  c : getFlag .c p' = c
  z : getFlag .z p' = decide (v = 0)
  n : getFlag .n p' = decide (128 ≤ v)
  others : ∀ f, f ≠ .c → f ≠ .z → f ≠ .n → getFlag f p' = getFlag f p

/-- A flag as a number. -/
def bitNat (b : Bool) : Nat := if b then 1 else 0

/-- The state after an instruction of length `n` and cost `c` that changes nothing else: PC past it, cycles charged. -/
def past (s : State) (n c : Nat) : State :=
  { s with cpu := { s.cpu with pc := s.cpu.pc + BitVec.ofNat 16 n, cycles := s.cpu.cycles + c } }

/-- A shift or rotate `i` (R115 to R119), in both forms: `result` of the byte and the old carry is what is written back
to A or to the memory byte read, `carry` of the byte goes to C, Z and N come from the result. -/
def ShiftsTo (i : ShiftOperand → Instr) (result : Nat → Nat → Nat) (carry : Nat → Bool) : Prop :=
  (∀ s, ∃ r p',
    let u := past s 1 2
    exec (i .acc) s = .next { u with cpu := { u.cpu with a := r, p := p' } } ∧
    r.toNat = result s.cpu.a.toNat (bitNat (s.flag .c)) ∧ CznFlags s.cpu.p p' (carry s.cpu.a.toNat) r.toNat) ∧
  (∀ s m, ∃ r p',
    let l := rmwLoad s m
    let t := memWrite l.state l.addr r
    exec (i (.mem m)) s = .next { t with cpu := { t.cpu with p := p' } } ∧
    r.toNat = result l.value.toNat (bitNat (s.flag .c)) ∧ CznFlags s.cpu.p p' (carry l.value.toNat) r.toNat)

/-- A conditional branch `i` taken iff flag `f` is `b` (R145): the target is the opcode's address plus 2 plus the signed
offset modulo 2^16; 2 cycles, 3 if taken, 4 if the target's page is not the next instruction's. -/
def BranchesOn (i : Byte → Instr) (f : Flag) (b : Bool) : Prop :=
  ∀ s d, (s.flag f ≠ b → exec (i d) s = .next (past s 2 2)) ∧
    (s.flag f = b → ∃ target : Word,
      let extra := if (s.cpu.pc.toNat + 2) % 65536 / 256 = target.toNat / 256 then 0 else 1
      exec (i d) s = .next
        { s with cpu := { s.cpu with pc := target, cycles := s.cpu.cycles + 3 + extra } } ∧
      (target.toNat : Int) = (s.cpu.pc.toNat + 2 + d.toInt) % 65536)

/-! ## The opcode table's numbers -/

/-- The `cycles` column of the opcode matrix of 30_encoding.md section 6, opcodes 0x00 to 0x7F; 0 for an illegal byte. -/
def matrixCyclesLow : List Nat :=
  [7, 6, 0, 0, 0, 3, 5, 0, 3, 2, 2, 0, 0, 4, 6, 0] ++
  [2, 5, 0, 0, 0, 4, 6, 0, 2, 4, 0, 0, 0, 4, 7, 0] ++
  [6, 6, 0, 0, 3, 3, 5, 0, 4, 2, 2, 0, 4, 4, 6, 0] ++
  [2, 5, 0, 0, 0, 4, 6, 0, 2, 4, 0, 0, 0, 4, 7, 0] ++
  [6, 6, 0, 0, 0, 3, 5, 0, 3, 2, 2, 0, 3, 4, 6, 0] ++
  [2, 5, 0, 0, 0, 4, 6, 0, 2, 4, 0, 0, 0, 4, 7, 0] ++
  [6, 6, 0, 0, 0, 3, 5, 0, 4, 2, 2, 0, 5, 4, 6, 0] ++
  [2, 5, 0, 0, 0, 4, 6, 0, 2, 4, 0, 0, 0, 4, 7, 0]

/-- The same, opcodes 0x80 to 0xFF. -/
def matrixCyclesHigh : List Nat :=
  [0, 6, 0, 0, 3, 3, 3, 0, 2, 0, 2, 0, 4, 4, 4, 0] ++
  [2, 6, 0, 0, 4, 4, 4, 0, 2, 5, 2, 0, 0, 5, 0, 0] ++
  [2, 6, 2, 0, 3, 3, 3, 0, 2, 2, 2, 0, 4, 4, 4, 0] ++
  [2, 5, 0, 0, 4, 4, 4, 0, 2, 4, 2, 0, 4, 4, 4, 0] ++
  [2, 6, 0, 0, 3, 3, 5, 0, 2, 2, 2, 0, 4, 4, 6, 0] ++
  [2, 5, 0, 0, 0, 4, 6, 0, 2, 4, 0, 0, 0, 4, 7, 0] ++
  [2, 6, 0, 0, 3, 3, 5, 0, 2, 2, 2, 0, 4, 4, 6, 0] ++
  [2, 5, 0, 0, 0, 4, 6, 0, 2, 4, 0, 0, 0, 4, 7, 0]

/-- The base cycle cost the opcode matrix gives an opcode byte (R81, R352). -/
def matrixCycles (op : Byte) : Nat := (matrixCyclesLow ++ matrixCyclesHigh).getD op.toNat 0

/-- The dots the beam has passed since (0, 0) of frame 0, if none is skipped (R260). -/
def Ppu.position (p : Ppu) : Nat := (p.frame * 262 + p.scanline) * 341 + p.dot

/-- The state after `k` steps of the machine, if none of them stops (R300). -/
def afterSteps : Nat → State → Option State
  | 0, s => some s
  | k + 1, s =>
    match step s with
    | .next t => afterSteps k t
    | .fault _ => none
    | .refused _ => none

/-! ## What each instruction may write -/

/-- The general registers and the stack pointer. -/
inductive Reg
  | a
  | x
  | y
  | sp
  deriving DecidableEq, Repr

/-- The value of a register. -/
def Reg.read (r : Reg) (c : Cpu) : Byte :=
  match r with
  | .a => c.a
  | .x => c.x
  | .y => c.y
  | .sp => c.sp

end Sys2Proof.Machine

namespace Sys2Proof

/-- The registers an instruction may write (its rule's "Operands" line); PC aside. -/
def Instr.writesRegs : Instr → List Machine.Reg
  | .adc _ | .sbc _ | .and _ | .ora _ | .eor _ | .lda _ | .txa | .tya => [.a]
  | .asl .acc | .lsr .acc | .rol .acc | .ror .acc => [.a]
  | .inx | .dex | .ldx _ | .tax | .tsx => [.x]
  | .iny | .dey | .ldy _ | .tay => [.y]
  | .txs | .pha | .php | .plp | .jsr _ | .rts | .rti | .brk => [.sp]
  | .pla => [.a, .sp]
  | .bit _ | .inc _ | .dec _ | .asl (.mem _) | .lsr (.mem _) | .rol (.mem _) | .ror (.mem _)
  | .cmp _ | .cpx _ | .cpy _ | .sta _ | .stx _ | .sty _
  | .bcc _ | .bcs _ | .beq _ | .bne _ | .bmi _ | .bpl _ | .bvc _ | .bvs _ | .jmp _
  | .clc | .sec | .cli | .sei | .cld | .sed | .clv | .nop | .illegal _ => []

/-- The flags an instruction may write (R13, and its rule's "Flags written" line). -/
def Instr.writesFlags : Instr → List Machine.Flag
  | .adc _ | .sbc _ => [.c, .z, .v, .n]
  | .asl _ | .lsr _ | .rol _ | .ror _ | .cmp _ | .cpx _ | .cpy _ => [.c, .z, .n]
  | .bit _ => [.z, .v, .n]
  | .and _ | .ora _ | .eor _ | .inc _ | .dec _ | .inx | .iny | .dex | .dey | .lda _ | .ldx _ | .ldy _
  | .tax | .tay | .txa | .tya | .tsx | .pla => [.z, .n]
  | .plp | .rti => [.c, .z, .i, .d, .b, .u, .v, .n]
  | .brk | .cli | .sei => [.i]
  | .clc | .sec => [.c]
  | .cld | .sed => [.d]
  | .clv => [.v]
  | .sta _ | .stx _ | .sty _ | .txs | .pha | .php
  | .bcc _ | .bcs _ | .beq _ | .bne _ | .bmi _ | .bpl _ | .bvc _ | .bvs _
  | .jmp _ | .jsr _ | .rts | .nop | .illegal _ => []

/-- The offset of a branch and whether a status byte takes it (R146 to R153). -/
def Instr.branch (p : Byte) : Instr → Option (Byte × Bool)
  | .bcc d => some (d, !Machine.getFlag .c p)
  | .bcs d => some (d, Machine.getFlag .c p)
  | .bne d => some (d, !Machine.getFlag .z p)
  | .beq d => some (d, Machine.getFlag .z p)
  | .bpl d => some (d, !Machine.getFlag .n p)
  | .bmi d => some (d, Machine.getFlag .n p)
  | .bvc d => some (d, !Machine.getFlag .v p)
  | .bvs d => some (d, Machine.getFlag .v p)
  | .adc _ | .sbc _ | .and _ | .ora _ | .eor _ | .cmp _ | .lda _ | .bit _ | .cpx _ | .cpy _ | .ldx _ | .ldy _
  | .inc _ | .dec _ | .inx | .iny | .dex | .dey | .asl _ | .lsr _ | .rol _ | .ror _ | .sta _ | .stx _ | .sty _
  | .tax | .tay | .txa | .tya | .tsx | .txs | .pha | .php | .pla | .plp | .jmp _ | .jsr _ | .rts | .rti | .brk
  | .clc | .sec | .cli | .sei | .cld | .sed | .clv | .nop | .illegal _ => none

/-- The instruction loads PC with something other than the next instruction's address: jumps, calls and returns. -/
def Instr.loadsPc : Instr → Bool
  | .jmp _ | .jsr _ | .rts | .rti | .brk => true
  | .adc _ | .sbc _ | .and _ | .ora _ | .eor _ | .cmp _ | .lda _ | .bit _ | .cpx _ | .cpy _ | .ldx _ | .ldy _
  | .inc _ | .dec _ | .inx | .iny | .dex | .dey | .asl _ | .lsr _ | .rol _ | .ror _ | .sta _ | .stx _ | .sty _
  | .tax | .tay | .txa | .tya | .tsx | .txs | .pha | .php | .pla | .plp
  | .bcc _ | .bcs _ | .beq _ | .bne _ | .bmi _ | .bpl _ | .bvc _ | .bvs _
  | .clc | .sec | .cli | .sei | .cld | .sed | .clv | .nop | .illegal _ => false

/-- The operand of an instruction that only reads it. -/
def Instr.readOperand : Instr → Option Operand
  | .adc o | .sbc o | .and o | .ora o | .eor o | .cmp o | .lda o => some o.operand
  | .bit o => some o.operand
  | .cpx o | .cpy o => some o.operand
  | .ldx o => some o.operand
  | .ldy o => some o.operand
  | .inc _ | .dec _ | .inx | .iny | .dex | .dey | .asl _ | .lsr _ | .rol _ | .ror _ | .sta _ | .stx _ | .sty _
  | .tax | .tay | .txa | .tya | .tsx | .txs | .pha | .php | .pla | .plp
  | .bcc _ | .bcs _ | .beq _ | .bne _ | .bmi _ | .bpl _ | .bvc _ | .bvs _
  | .jmp _ | .jsr _ | .rts | .rti | .brk
  | .clc | .sec | .cli | .sei | .cld | .sed | .clv | .nop | .illegal _ => none

/-- The destination of a plain store. -/
def Instr.storeOperand : Instr → Option MemOperand
  | .sta o => some o.mem
  | .stx o => some o.mem
  | .sty o => some o.mem
  | .adc _ | .sbc _ | .and _ | .ora _ | .eor _ | .cmp _ | .lda _ | .bit _ | .cpx _ | .cpy _ | .ldx _ | .ldy _
  | .inc _ | .dec _ | .inx | .iny | .dex | .dey | .asl _ | .lsr _ | .rol _ | .ror _
  | .tax | .tay | .txa | .tya | .tsx | .txs | .pha | .php | .pla | .plp
  | .bcc _ | .bcs _ | .beq _ | .bne _ | .bmi _ | .bpl _ | .bvc _ | .bvs _
  | .jmp _ | .jsr _ | .rts | .rti | .brk
  | .clc | .sec | .cli | .sei | .cld | .sed | .clv | .nop | .illegal _ => none

/-- The memory operand a read-modify-write instruction reads and writes (R107, R108, R115). -/
def Instr.rmwOperand : Instr → Option RmwOperand
  | .inc o | .dec o => some o
  | .asl (.mem o) | .lsr (.mem o) | .rol (.mem o) | .ror (.mem o) => some o
  | .asl .acc | .lsr .acc | .rol .acc | .ror .acc
  | .adc _ | .sbc _ | .and _ | .ora _ | .eor _ | .cmp _ | .lda _ | .bit _ | .cpx _ | .cpy _ | .ldx _ | .ldy _
  | .inx | .iny | .dex | .dey | .sta _ | .stx _ | .sty _
  | .tax | .tay | .txa | .tya | .tsx | .txs | .pha | .php | .pla | .plp
  | .bcc _ | .bcs _ | .beq _ | .bne _ | .bmi _ | .bpl _ | .bvc _ | .bvs _
  | .jmp _ | .jsr _ | .rts | .rti | .brk
  | .clc | .sec | .cli | .sei | .cld | .sed | .clv | .nop | .illegal _ => none

/-- The instruction touches neither memory nor the bus after its own bytes are fetched: register operations, branches,
`JMP abs`, flag instructions and NOP. -/
def Instr.registerOnly : Instr → Bool
  | .inx | .iny | .dex | .dey | .tax | .tay | .txa | .tya | .tsx | .txs => true
  | .asl .acc | .lsr .acc | .rol .acc | .ror .acc => true
  | .bcc _ | .bcs _ | .beq _ | .bne _ | .bmi _ | .bpl _ | .bvc _ | .bvs _ | .jmp (.abs _) => true
  | .clc | .sec | .cli | .sei | .cld | .sed | .clv | .nop => true
  | .asl (.mem _) | .lsr (.mem _) | .rol (.mem _) | .ror (.mem _) | .jmp (.ind _)
  | .adc _ | .sbc _ | .and _ | .ora _ | .eor _ | .cmp _ | .lda _ | .bit _ | .cpx _ | .cpy _ | .ldx _ | .ldy _
  | .inc _ | .dec _ | .sta _ | .stx _ | .sty _ | .pha | .php | .pla | .plp
  | .jsr _ | .rts | .rti | .brk | .illegal _ => false

/-- How many bytes an instruction pushes: PHA and PHP one, JSR two, BRK three (R137, R138, R155, R158). -/
def Instr.pushes : Instr → Nat
  | .pha | .php => 1
  | .jsr _ => 2
  | .brk => 3
  | .adc _ | .sbc _ | .and _ | .ora _ | .eor _ | .cmp _ | .lda _ | .bit _ | .cpx _ | .cpy _ | .ldx _ | .ldy _
  | .inc _ | .dec _ | .inx | .iny | .dex | .dey | .asl _ | .lsr _ | .rol _ | .ror _ | .sta _ | .stx _ | .sty _
  | .tax | .tay | .txa | .tya | .tsx | .txs | .pla | .plp
  | .bcc _ | .bcs _ | .beq _ | .bne _ | .bmi _ | .bpl _ | .bvc _ | .bvs _ | .jmp _ | .rts | .rti
  | .clc | .sec | .cli | .sei | .cld | .sed | .clv | .nop | .illegal _ => 0

/-- An instruction that reads the stack or a pointer and stores nothing: PLA, PLP, RTS, RTI, `JMP ind`. -/
def Instr.pulls : Instr → Bool
  | .pla | .plp | .rts | .rti | .jmp (.ind _) => true
  | .jmp (.abs _) | .jsr _ | .brk | .pha | .php
  | .adc _ | .sbc _ | .and _ | .ora _ | .eor _ | .cmp _ | .lda _ | .bit _ | .cpx _ | .cpy _ | .ldx _ | .ldy _
  | .inc _ | .dec _ | .inx | .iny | .dex | .dey | .asl _ | .lsr _ | .rol _ | .ror _ | .sta _ | .stx _ | .sty _
  | .tax | .tay | .txa | .tya | .tsx | .txs
  | .bcc _ | .bcs _ | .beq _ | .bne _ | .bmi _ | .bpl _ | .bvc _ | .bvs _
  | .clc | .sec | .cli | .sei | .cld | .sed | .clv | .nop | .illegal _ => false

end Sys2Proof
end

