-- ==== Sys2Proof/Certificates/Slice0/Obligations.lean ====
section
/-!
DEFINITION. The statements for the provers (OBLIGATIONS.json lists them). Each docstring cites the rules of spec/ it
formalises. `decide P` is written for a flag that is 1 exactly when `P` holds.
-/

open Sys2Proof Sys2Proof.Machine

/-! ## Encoding -/

/-- Words written out from the Encoding tables of R125, R128, R154, R149, R158, R116, R167, R101 and R168 decode to the
instructions they stand for; a missing operand byte is an error (R80, R81, R83). -/
def Obligations.DecodeWrittenWords : Prop :=
  decode [0xA9, 0x42] = .ok (.lda (.imm 0x42), []) ∧
  decode [0x8D, 0x00, 0x02] = .ok (.sta (.abs 0x0200), []) ∧
  decode [0x6C, 0xFF, 0x02] = .ok (.jmp (.ind 0x02FF), []) ∧
  decode [0xD0, 0xFD, 0xEA] = .ok (.bne 0xFD, [0xEA]) ∧
  decode [0x00, 0x99, 0xEA] = .ok (.brk, [0xEA]) ∧
  decode [0x0A] = .ok (.asl .acc, []) ∧
  decode [0x1E, 0x34, 0x12] = .ok (.asl (.mem (.abx 0x1234)), []) ∧
  decode [0xEA] = .ok (.nop, []) ∧
  decode [0x71, 0x10] = .ok (.adc (.izy 0x10), []) ∧
  decode [0x61, 0x10] = .ok (.adc (.izx 0x10), []) ∧
  decode [0xB6, 0x10] = .ok (.ldx (.zpy 0x10), []) ∧
  decode [0x02, 0x01] = .ok (.illegal 0x02, [0x01]) ∧
  decode [0x8D, 0x00] = .error (.operandMissing 0x8D) ∧
  decode [] = .error .noOpcode

/-- Decoding the bytes of a well-formed instruction gives it back, whatever follows them (R80, R81). -/
def Obligations.DecodeInvertsEncode : Prop :=
  ∀ (i : Instr) (rest : List Byte), i.wellFormed = true → decode (encode i ++ rest) = .ok (i, rest)

/-- Whatever the decoder reads is a well-formed instruction, and encoding it gives the bytes read; of BRK, whose second
byte is never read, the opcode byte is given back (R80, R81, R158; log 14). -/
def Obligations.EncodeInvertsDecode : Prop :=
  ∀ (bytes : List Byte) (i : Instr) (rest : List Byte), decode bytes = .ok (i, rest) →
    i.wellFormed = true ∧ (i ≠ .brk → encode i ++ rest = bytes) ∧
    (i = .brk → bytes = [0x00] ∧ rest = [] ∨ ∃ pad, bytes = 0x00 :: pad :: rest)

/-- The 105 bytes R168 lists, and no others, decode to `illegal`, whatever follows them; executing one stops the
machine with `UnimplementedOpcode(op, PC)` and no successor state, and so does a step that fetches one (R98, R168,
R312). -/
def Obligations.IllegalOpcodesStop : Prop :=
  illegalOpcodes.length = 105 ∧
  (∀ (op : Byte) (rest : List Byte), op ∈ illegalOpcodes ↔ decode (op :: rest) = .ok (.illegal op, rest)) ∧
  (∀ (s : State) (op : Byte), exec (.illegal op) s = .fault (.unimplementedOpcode op s.cpu.pc)) ∧
  (∀ s : State, (takeIrqCall s).cpu.stall = 0 → (takeIrqCall s).cpu.irqSlot = .none →
    peek (takeIrqCall s) s.cpu.pc ∈ illegalOpcodes →
    step s = .fault (.unimplementedOpcode (peek (takeIrqCall s) s.cpu.pc) s.cpu.pc))

/-- A step with no stall and no request outstanding runs the instruction its bytes at PC decode to: `exec` of it, then
three picture dots for each cycle it took (R82, R300). `u` is the state after the outside's `triggerIRQ()` call, if
one is due (R303, log 8); the three addresses are read without side effect (R63), so fetching changes nothing. -/
def Obligations.StepRunsDecodedInstruction : Prop :=
  ∀ (s : State) (i : Instr) (rest : List Byte),
    let u := takeIrqCall s
    let pc := u.cpu.pc
    u.cpu.stall = 0 → u.cpu.irqSlot = .none →
    quiet pc = true → quiet (pc + 1) = true → quiet (pc + 2) = true →
    decode [peek u pc, peek u (pc + 1), peek u (pc + 2)] = .ok (i, rest) →
    step s =
      match exec i u with
      | .next t => .next (runDots (3 * (t.cpu.cycles - u.cpu.cycles)) t)
      | .fault f => .fault f
      | .refused r => .refused r

/-! ## Memory -/

/-- Work RAM appears four times, each storage-backed byte reads back what was last written to it or to a mirror, and a
write to one cell leaves every other byte of work RAM, save-RAM and PRG as it was (R46, R57, R208). -/
def Obligations.WritesAreVisible : Prop :=
  ∀ (s : State) (a : Word) (v : Byte), a.toNat < 0x2000 ∨ (0x6000 ≤ a.toNat ∧ a.toNat < 0x8000) →
    (∀ b : Word, sameCell a b = true → memRead (memWrite s a v) b = (v, memWrite s a v)) ∧
    (∀ b : Word, holdsBytes b = true → sameCell a b = false → peek (memWrite s a v) b = peek s b) ∧
    (a.toNat < 0x2000 → ∀ k < 4, sameCell a (BitVec.ofNat 16 (a.toNat % 2048 + 2048 * k)) = true)

/-- The eight picture registers repeat every 8 bytes through 0x2000 to 0x3FFF, for reads and for writes (R47). -/
def Obligations.PictureRegisterMirrors : Prop :=
  ∀ (s : State) (n k : Nat) (v : Byte), n < 8 → k < 1024 →
    memRead s (BitVec.ofNat 16 (0x2000 + n + 8 * k)) = memRead s (BitVec.ofNat 16 (0x2000 + n)) ∧
    memWrite s (BitVec.ofNat 16 (0x2000 + n + 8 * k)) v = memWrite s (BitVec.ofNat 16 (0x2000 + n)) v

/-- An access outside every decoded range reads 0 or is ignored, is counted, and does nothing else (R49, R51); a read
of 0x4014 reads 0 and is not counted (R48). -/
def Obligations.UnmappedAccessCounted : Prop :=
  ∀ (s : State) (a : Word) (v : Byte),
    ((0x4000 ≤ a.toNat ∧ a.toNat < 0x4014) ∨ (0x4018 ≤ a.toNat ∧ a.toNat < 0x6000) →
      memRead s a = (0, { s with bus := { s.bus with unmapped := s.bus.unmapped + 1 } })) ∧
    (0x4018 ≤ a.toNat ∧ a.toNat < 0x6000 →
      memWrite s a v = { s with bus := { s.bus with unmapped := s.bus.unmapped + 1 } }) ∧
    ((a.toNat < 0x4000 ∨ (0x4014 ≤ a.toNat ∧ a.toNat < 0x4018) ∨ 0x6000 ≤ a.toNat) →
      (afterRead s a).bus.unmapped = s.bus.unmapped) ∧
    memRead s 0x4014 = (0, s)

/-- Which reads have a side effect and what a read may change (R63): a read of work RAM, save-RAM, PRG, 0x2000, 0x2001,
0x2003 to 0x2006 and their mirrors, or 0x4014 changes nothing; no read changes the CPU, the cartridge, the mapper, RAM,
nametables, palette, OAM or the beam's position. -/
def Obligations.ReadSideEffects : Prop :=
  ∀ (s : State) (a : Word),
    ((a.toNat < 0x2000 ∨ (0x2000 ≤ a.toNat ∧ a.toNat < 0x4000 ∧ a.toNat % 8 ≠ 2 ∧ a.toNat % 8 ≠ 7) ∨
      a.toNat = 0x4014 ∨ 0x6000 ≤ a.toNat) → afterRead s a = s) ∧
    SameMemory s (afterRead s a) ∧ (afterRead s a).cpu = s.cpu ∧
    (afterRead s a).ppu.position = s.ppu.position

/-- Picture space: which nametable byte an address reads under each mirroring mode (R53, R55), the palette's aliases
(R56), and that a byte written is read back (R54, R57). -/
def Obligations.PictureSpaceDecode : Prop :=
  (∀ (s : State) (q : PicAddr), 0x2000 ≤ q.toNat → q.toNat < 0x3F00 →
    let rel := (q.toNat - 0x2000) % 0x1000
    ppuRead s q = Memory.read s.bus.nt
      (match s.mirror with
       | .horizontal => rel / 0x800 * 0x400 + rel % 0x400
       | .vertical => rel % 0x800
       | .single0 => rel % 0x400
       | .single1 => 0x400 + rel % 0x400
       | .four => rel % 0x800)) ∧
  (∀ (s : State) (q : PicAddr), 0x3F00 ≤ q.toNat →
    let k := q.toNat % 32
    ppuRead s q = Memory.read s.bus.pal (if k = 16 ∨ k = 20 ∨ k = 24 ∨ k = 28 then k - 16 else k)) ∧
  (∀ (s : State) (q r : PicAddr) (v : Byte), ppuRead (ppuWrite s q v) q = v ∧
    (pictureCell s r ≠ pictureCell s q → ppuRead (ppuWrite s q v) r = ppuRead s r))

/-- The 16-bit reads (R42, R43), at addresses read without side effect: the low byte at the address, the high byte at
the next address for `Read16`, wrapping at 0xFFFF, and at the next address of the same page for `Read16Bug`. -/
def Obligations.WordReads : Prop :=
  ∀ (s : State) (a b c : Word), b.toNat = (a.toNat + 1) % 65536 →
    c.toNat = a.toNat / 256 * 256 + (a.toNat + 1) % 256 → quiet a = true →
    (quiet b = true → (read16 s a).2 = s ∧ (read16 s a).1.toNat = (peek s b).toNat * 256 + (peek s a).toNat) ∧
    (quiet c = true → (read16Bug s a).2 = s ∧ (read16Bug s a).1.toNat = (peek s c).toNat * 256 + (peek s a).toNat)

/-- The stack (R59): a push stores at 0x0100 + SP and then lowers SP modulo 256; a pull raises SP and then reads; a
16-bit value is pushed high byte first, and pulling after pushing gives the value, and SP, back. -/
def Obligations.StackPushPull : Prop :=
  ∀ (s : State) (v : Byte) (w : Word),
    (push s v = { s with
      bus := { s.bus with ram := Memory.write s.bus.ram (256 + s.cpu.sp.toNat) v }
      cpu := { s.cpu with sp := s.cpu.sp - 1 } }) ∧
    (push s v).cpu.sp.toNat = (s.cpu.sp.toNat + 255) % 256 ∧
    (∃ sp' : Byte, sp'.toNat = (s.cpu.sp.toNat + 1) % 256 ∧
      pull s = (Memory.read s.bus.ram (256 + sp'.toNat), { s with cpu := { s.cpu with sp := sp' } })) ∧
    (∃ hi lo : Byte, hi.toNat = w.toNat / 256 ∧ lo.toNat = w.toNat % 256 ∧ push16 s w = push (push s hi) lo) ∧
    (pull16 (push16 s w)).1 = w ∧ (pull16 (push16 s w)).2.cpu = s.cpu

/-- The external ports (R50, R52). A controller read answers one bit; the index stays at 0 under the strobe, else
advances and is clamped, and past index 7 the answer is 0 ("no button" read as 0: log 7). A write of 0x4016 reaches both
controllers, one to 0x4017 neither. An audio access changes no core state. -/
def Obligations.ExternalPorts : Prop :=
  ∀ (s : State) (v : Byte),
    (∀ port : Port, let a : Word := if port = .one then 0x4016 else 0x4017
      (peek s a).toNat < 2 ∧ (8 ≤ (s.ext.pad port).index → peek s a = 0) ∧
      ((afterRead s a).ext.pad port).strobe = (s.ext.pad port).strobe ∧
      ((afterRead s a).ext.pad port).index =
        if (s.ext.pad port).strobe then 0 else min ((s.ext.pad port).index + 1) 8) ∧
    (∀ port : Port, (memWrite s 0x4016 v).ext.pad port =
      { strobe := decide (v.toNat % 2 = 1)
        index := if v.toNat % 2 = 1 then 0 else (s.ext.pad port).index }) ∧
    (∀ a : Word, (0x4000 ≤ a.toNat ∧ a.toNat < 0x4014) ∨ a.toNat = 0x4015 ∨ a.toNat = 0x4017 →
      (memWrite s a v).cpu = s.cpu ∧ (memWrite s a v).bus = s.bus ∧ (memWrite s a v).cart = s.cart ∧
      (memWrite s a v).mapper = s.mapper ∧ (memWrite s a v).ppu = s.ppu ∧
      (memWrite s a v).ext.pad1 = s.ext.pad1 ∧ (memWrite s a v).ext.pad2 = s.ext.pad2) ∧
    ((afterRead s 0x4015).cpu = s.cpu ∧ (afterRead s 0x4015).bus = s.bus ∧ (afterRead s 0x4015).cart = s.cart ∧
      (afterRead s 0x4015).mapper = s.mapper ∧ (afterRead s 0x4015).ppu = s.ppu)

/-- OAM DMA (R72, R245) from a page whose reads have no side effect: byte `k` of the page goes to OAM at the OAM
address plus `k` modulo 256, the OAM address ends where it began, the written byte is latched, and the CPU is stalled by
513 cycles, 514 when the cycle counter is odd. Nothing else changes. -/
def Obligations.OamDma : Prop :=
  ∀ (s : State) (v : Byte), v.toNat < 0x20 ∨ 0x60 ≤ v.toNat →
    ∃ m : Memory 8,
      memWrite s 0x4014 v = { s with
        ppu := { s.ppu with oam := m, regLatch := v }
        cpu := { s.cpu with stall := s.cpu.stall + 513 + s.cpu.cycles % 2 } } ∧
      ∀ k < 256, Memory.read m ((s.ppu.oamAddr.toNat + k) % 256) = peek s (BitVec.ofNat 16 (v.toNat * 256 + k))

/-! ## Addressing modes and cost -/

/-- The address each of the eight modes of a data byte in memory resolves to (R43, R87 to R91, R93 to R95, R97), whether
a page was crossed, and that resolving changes nothing. (The immediate byte is in OperandReads, the pointer of `JMP (a)` in
JumpsAndCalls, the branch target in Branches.) A pointer's two bytes both come from page 0, the second wrapping within
it; `izx` indexes the pointer's address, `izy` the address it holds. -/
def Obligations.EffectiveAddresses : Prop :=
  ∀ (s : State) (d : Byte) (a : Word),
    let zp : Nat → Nat := fun k => (Memory.read s.bus.ram (k % 256)).toNat
    let base := zp (d.toNat + 1) * 256 + zp d.toNat
    ((resolve s (.zp d)).addr.toNat = d.toNat ∧ (resolve s (.zp d)).crossed = false) ∧
    ((resolve s (.zpx d)).addr.toNat = (d.toNat + s.cpu.x.toNat) % 256 ∧ (resolve s (.zpx d)).crossed = false) ∧
    ((resolve s (.zpy d)).addr.toNat = (d.toNat + s.cpu.y.toNat) % 256 ∧ (resolve s (.zpy d)).crossed = false) ∧
    ((resolve s (.abs a)).addr.toNat = a.toNat ∧ (resolve s (.abs a)).crossed = false) ∧
    ((resolve s (.abx a)).addr.toNat = (a.toNat + s.cpu.x.toNat) % 65536 ∧
      (resolve s (.abx a)).crossed = decide ((a.toNat + s.cpu.x.toNat) % 65536 / 256 ≠ a.toNat / 256)) ∧
    ((resolve s (.aby a)).addr.toNat = (a.toNat + s.cpu.y.toNat) % 65536 ∧
      (resolve s (.aby a)).crossed = decide ((a.toNat + s.cpu.y.toNat) % 65536 / 256 ≠ a.toNat / 256)) ∧
    ((resolve s (.izx d)).addr.toNat = zp (d.toNat + s.cpu.x.toNat + 1) * 256 + zp (d.toNat + s.cpu.x.toNat) ∧
      (resolve s (.izx d)).crossed = false) ∧
    ((resolve s (.izy d)).addr.toNat = (base + s.cpu.y.toNat) % 65536 ∧
      (resolve s (.izy d)).crossed = decide ((base + s.cpu.y.toNat) % 65536 / 256 ≠ base / 256)) ∧
    (∀ m : MemOperand, (resolve s m).state = s)

/-- An operand read (R64, R82, R86, R97): PC past the instruction and the cost charged, with one cycle more when the
address crossed a page, then one read of the resolved address and nothing else. Of an immediate operand the byte is the one
fetched with the instruction and no further read is made, which is the model's inference (log 11, DEDUCED). A store pays no
such cycle and reads nothing, a read-modify-write reads once (R62, R65). -/
def Obligations.OperandReads : Prop :=
  ∀ (s : State) (v : Byte) (m : MemOperand) (o : RmwOperand),
    loadOperand s (.imm v) = (v, past s 2 2) ∧
    loadOperand s (.mem m) =
      memRead (past s (modeLength m) (readCycles m + if (resolve s m).crossed then 1 else 0)) (resolve s m).addr ∧
    storeTarget s m = ((resolve s m).addr, past s (modeLength m) (storeCycles m)) ∧
    (rmwLoad s o).addr = (resolve s o.mem).addr ∧
    ((rmwLoad s o).value, (rmwLoad s o).state) =
      memRead (past s (modeLength o.mem) (rmwCycles o)) (resolve s o.mem).addr

/-- The cost and the length of every instruction that completes (R80, R81, R82, R97, R145, R352): the opcode matrix's
base cost; one cycle more when a reading instruction crosses a page; one more for a taken branch and another when its
target's page is not the next instruction's. PC moves past the instruction's bytes unless it loads PC. -/
def Obligations.CyclesAndLength : Prop :=
  ∀ (i : Instr) (s t : State), exec i s = .next t →
    (let next := (s.cpu.pc.toNat + (encode i).length) % 65536
     t.cpu.cycles = s.cpu.cycles + matrixCycles i.opcode +
      (match i.readOperand with
       | some (.mem m) => if (resolve s m).crossed then 1 else 0
       | _ => 0) +
      (match i.branch s.cpu.p with
       | some (_, true) => if t.cpu.pc.toNat / 256 = next / 256 then 1 else 2
       | _ => 0) ∧
     (i.loadsPc = false → i.branch s.cpu.p = none → t.cpu.pc.toNat = next)) ∧
    matrixCycles i.opcode ≠ 0

/-! ## Instructions -/

/-- ADC completes (R101): `A + m + C` modulo 256 goes to A; C is the carry out, V the signed overflow, Z and N follow
the result; D is not read. Whatever the operand read left stays. -/
def Obligations.AdcResult : Prop :=
  ∀ (s : State) (o : AluOperand), ∃ (r p' : Byte),
    let m := (loadOperand s o.operand).1
    let u := (loadOperand s o.operand).2
    let c := bitNat (s.flag .c)
    exec (.adc o) s = .next { u with cpu := { u.cpu with a := r, p := p' } } ∧
    r.toNat = (s.cpu.a.toNat + m.toNat + c) % 256 ∧
    getFlag .c p' = decide (256 ≤ s.cpu.a.toNat + m.toNat + c) ∧
    getFlag .v p' = decide (s.cpu.a.toInt + m.toInt + c < -128 ∨ 127 < s.cpu.a.toInt + m.toInt + c) ∧
    getFlag .z p' = decide (r.toNat = 0) ∧ getFlag .n p' = decide (128 ≤ r.toNat) ∧
    (∀ f, f ≠ .c → f ≠ .v → f ≠ .z → f ≠ .n → getFlag f p' = getFlag f s.cpu.p)

/-- SBC completes (R102): `A - m - (1 - C)` modulo 256 goes to A; C is 1 iff no borrow occurred, V is the signed
overflow of that difference, Z and N follow the result; D is not read. -/
def Obligations.SbcResult : Prop :=
  ∀ (s : State) (o : AluOperand), ∃ (r p' : Byte),
    let m := (loadOperand s o.operand).1
    let u := (loadOperand s o.operand).2
    let b : Nat := 1 - bitNat (s.flag .c)
    exec (.sbc o) s = .next { u with cpu := { u.cpu with a := r, p := p' } } ∧
    (r.toNat : Int) = ((s.cpu.a.toNat : Int) - m.toNat - b) % 256 ∧
    getFlag .c p' = decide (m.toNat + b ≤ s.cpu.a.toNat) ∧
    getFlag .v p' = decide (s.cpu.a.toInt - m.toInt - b < -128 ∨ 127 < s.cpu.a.toInt - m.toInt - b) ∧
    getFlag .z p' = decide (r.toNat = 0) ∧ getFlag .n p' = decide (128 ≤ r.toNat) ∧
    (∀ f, f ≠ .c → f ≠ .v → f ≠ .z → f ≠ .n → getFlag f p' = getFlag f s.cpu.p)

/-- AND, ORA and EOR complete (R103, R104, R105): each bit of A becomes the conjunction, disjunction or exclusive
disjunction of the bits of A and of the operand; Z and N follow the result, no other flag is written. -/
def Obligations.LogicResults : Prop :=
  ∀ (s : State) (o : AluOperand),
    let m := (loadOperand s o.operand).1
    let u := (loadOperand s o.operand).2
    let result (i : Instr) (f : Bool → Bool → Bool) : Prop := ∃ r p' : Byte,
      exec i s = .next { u with cpu := { u.cpu with a := r, p := p' } } ∧
      (∀ k < 8, r.getLsbD k = f (s.cpu.a.getLsbD k) (m.getLsbD k)) ∧ ZnFlags s.cpu.p p' r
    result (.and o) and ∧ result (.ora o) or ∧ result (.eor o) xor

/-- BIT completes (R106): Z from the conjunction of A and the memory byte, V and N copies of the byte's bits 6 and 7;
no register and no other flag is written. -/
def Obligations.BitResult : Prop :=
  ∀ (s : State) (o : BitOperand), ∃ p' : Byte,
    let m := (loadOperand s o.operand).1
    let u := (loadOperand s o.operand).2
    exec (.bit o) s = .next { u with cpu := { u.cpu with p := p' } } ∧
    (getFlag .z p' = true ↔ ∀ k < 8, (s.cpu.a.getLsbD k && m.getLsbD k) = false) ∧
    getFlag .v p' = decide (m.toNat / 64 % 2 = 1) ∧ getFlag .n p' = decide (128 ≤ m.toNat) ∧
    (∀ f, f ≠ .z → f ≠ .v → f ≠ .n → getFlag f p' = getFlag f s.cpu.p)

/-- INC and DEC complete (R107, R108, R62): the byte read, plus or minus 1 modulo 256, is written once to the address it
was read from; Z and N follow it; no register and no other flag is written. -/
def Obligations.MemoryIncrements : Prop :=
  ∀ (s : State) (o : RmwOperand),
    let l := rmwLoad s o
    let result (i : Instr) (k : Nat) : Prop := ∃ r p' : Byte,
      let t := memWrite l.state l.addr r
      exec i s = .next { t with cpu := { t.cpu with p := p' } } ∧
      r.toNat = (l.value.toNat + k) % 256 ∧ ZnFlags s.cpu.p p' r
    result (.inc o) 1 ∧ result (.dec o) 255

/-- INX, INY, DEX and DEY complete (R109, R110, R111, R112): opcodes 0xE8, 0xC8, 0xCA, 0x88, one byte, 2 cycles; X or Y
plus or minus 1 modulo 256; Z and N follow the result; nothing else changes. -/
def Obligations.IndexIncrements : Prop :=
  (encode .inx = [0xE8] ∧ encode .iny = [0xC8] ∧ encode .dex = [0xCA] ∧ encode .dey = [0x88]) ∧
  ∀ s : State,
    let u := past s 1 2
    (∃ r p', exec .inx s = .next { u with cpu := { u.cpu with x := r, p := p' } } ∧
      r.toNat = (s.cpu.x.toNat + 1) % 256 ∧ ZnFlags s.cpu.p p' r) ∧
    (∃ r p', exec .iny s = .next { u with cpu := { u.cpu with y := r, p := p' } } ∧
      r.toNat = (s.cpu.y.toNat + 1) % 256 ∧ ZnFlags s.cpu.p p' r) ∧
    (∃ r p', exec .dex s = .next { u with cpu := { u.cpu with x := r, p := p' } } ∧
      r.toNat = (s.cpu.x.toNat + 255) % 256 ∧ ZnFlags s.cpu.p p' r) ∧
    (∃ r p', exec .dey s = .next { u with cpu := { u.cpu with y := r, p := p' } } ∧
      r.toNat = (s.cpu.y.toNat + 255) % 256 ∧ ZnFlags s.cpu.p p' r)

/-- ASL, LSR, ROL and ROR complete, on A and on memory (R115 to R119): the bit shifted out goes to C; 0 enters in the
shifts and the old carry in the rotates; Z and N follow the result (`ShiftsTo` in Safety.lean says the rest). -/
def Obligations.ShiftsAndRotates : Prop :=
  ShiftsTo .asl (fun v _ => v * 2 % 256) (fun v => decide (128 ≤ v)) ∧
  ShiftsTo .lsr (fun v _ => v / 2) (fun v => decide (v % 2 = 1)) ∧
  ShiftsTo .rol (fun v c => (v * 2 + c) % 256) (fun v => decide (128 ≤ v)) ∧
  ShiftsTo .ror (fun v c => v / 2 + 128 * c) (fun v => decide (v % 2 = 1))

/-- CMP, CPX and CPY complete (R120 to R123): C iff the register is at least the operand as unsigned numbers, Z and N of
their difference modulo 256; no register and no other flag, V among them, is written. -/
def Obligations.Compares : Prop :=
  ∀ s : State,
    let compared (i : Instr) (o : Operand) (r : Byte) : Prop := ∃ p' : Byte,
      let m := (loadOperand s o).1
      let u := (loadOperand s o).2
      exec i s = .next { u with cpu := { u.cpu with p := p' } } ∧
      CznFlags s.cpu.p p' (decide (m.toNat ≤ r.toNat)) ((r.toNat + 256 - m.toNat) % 256)
    (∀ o, compared (.cmp o) o.operand s.cpu.a) ∧ (∀ o, compared (.cpx o) o.operand s.cpu.x) ∧
    (∀ o, compared (.cpy o) o.operand s.cpu.y)

/-- LDA, LDX and LDY complete (R125, R126, R127): the operand goes to the register, Z and N follow it, nothing else
changes beyond what the operand read does. -/
def Obligations.Loads : Prop :=
  ∀ s : State,
    (∀ o : AluOperand, ∃ p', let u := (loadOperand s o.operand).2
      exec (.lda o) s = .next { u with cpu := { u.cpu with a := (loadOperand s o.operand).1, p := p' } } ∧
      ZnFlags s.cpu.p p' (loadOperand s o.operand).1) ∧
    (∀ o : LdxOperand, ∃ p', let u := (loadOperand s o.operand).2
      exec (.ldx o) s = .next { u with cpu := { u.cpu with x := (loadOperand s o.operand).1, p := p' } } ∧
      ZnFlags s.cpu.p p' (loadOperand s o.operand).1) ∧
    (∀ o : LdyOperand, ∃ p', let u := (loadOperand s o.operand).2
      exec (.ldy o) s = .next { u with cpu := { u.cpu with y := (loadOperand s o.operand).1, p := p' } } ∧
      ZnFlags s.cpu.p p' (loadOperand s o.operand).1)

/-- STA, STX and STY complete (R128, R129, R130): one write of the register to the resolved address, with PC already
past the instruction and its cost charged; no register and no flag is written, and into work RAM the store leaves just
that byte. -/
def Obligations.Stores : Prop :=
  ∀ s : State,
    let stored (i : Instr) (m : MemOperand) (v : Byte) : Prop :=
      let u := past s (encode i).length (matrixCycles i.opcode)
      exec i s = .next (memWrite u (resolve s m).addr v) ∧
      ((resolve s m).addr.toNat < 0x2000 →
        exec i s = .next { u with
          bus := { s.bus with ram := Memory.write s.bus.ram ((resolve s m).addr.toNat % 2048) v } })
    (∀ o, stored (.sta o) o.mem s.cpu.a) ∧ (∀ o, stored (.stx o) o.mem s.cpu.x) ∧
    (∀ o, stored (.sty o) o.mem s.cpu.y)

/-- TAX, TAY, TXA, TYA, TSX and TXS complete (R131 to R136): opcodes 0xAA, 0xA8, 0x8A, 0x98, 0xBA, 0x9A, one byte, 2
cycles; the register copied, Z and N from the value, except that TXS writes no flag; nothing else changes. -/
def Obligations.RegisterTransfers : Prop :=
  (encode .tax = [0xAA] ∧ encode .tay = [0xA8] ∧ encode .txa = [0x8A] ∧ encode .tya = [0x98] ∧
    encode .tsx = [0xBA] ∧ encode .txs = [0x9A]) ∧
  ∀ s : State,
    let u := past s 1 2
    (∃ p', exec .tax s = .next { u with cpu := { u.cpu with x := s.cpu.a, p := p' } } ∧ ZnFlags s.cpu.p p' s.cpu.a) ∧
    (∃ p', exec .tay s = .next { u with cpu := { u.cpu with y := s.cpu.a, p := p' } } ∧ ZnFlags s.cpu.p p' s.cpu.a) ∧
    (∃ p', exec .txa s = .next { u with cpu := { u.cpu with a := s.cpu.x, p := p' } } ∧ ZnFlags s.cpu.p p' s.cpu.x) ∧
    (∃ p', exec .tya s = .next { u with cpu := { u.cpu with a := s.cpu.y, p := p' } } ∧ ZnFlags s.cpu.p p' s.cpu.y) ∧
    (∃ p', exec .tsx s = .next { u with cpu := { u.cpu with x := s.cpu.sp, p := p' } } ∧
      ZnFlags s.cpu.p p' s.cpu.sp) ∧
    exec .txs s = .next { u with cpu := { u.cpu with sp := s.cpu.x } }

/-- PHA, PHP, PLA and PLP complete (R14, R137 to R140): opcodes 0x48, 0x08, 0x68, 0x28; a push stores A, or P with bits 4
and 5 set, at 0x0100 + SP and lowers SP; a pull raises SP and takes the byte there into A, with Z and N, or into P, whose
bit 5 becomes 1 and bit 4 becomes 0; nothing else changes. -/
def Obligations.StackInstructions : Prop :=
  (encode .pha = [0x48] ∧ encode .php = [0x08] ∧ encode .pla = [0x68] ∧ encode .plp = [0x28]) ∧
  ∀ s : State,
    let pushed (b : Byte) : State :=
      { past s 1 3 with
        bus := { s.bus with ram := Memory.write s.bus.ram (256 + s.cpu.sp.toNat) b }
        cpu := { (past s 1 3).cpu with sp := s.cpu.sp - 1 } }
    let u := past s 1 4
    let m := Memory.read s.bus.ram (256 + (s.cpu.sp + 1).toNat)
    exec .pha s = .next (pushed s.cpu.a) ∧
    (∃ b, exec .php s = .next (pushed b) ∧ getFlag .b b = true ∧ getFlag .u b = true ∧
      ∀ f, f ≠ .b → f ≠ .u → getFlag f b = getFlag f s.cpu.p) ∧
    (∃ p', exec .pla s = .next { u with cpu := { u.cpu with a := m, sp := s.cpu.sp + 1, p := p' } } ∧
      ZnFlags s.cpu.p p' m) ∧
    (∃ p', exec .plp s = .next { u with cpu := { u.cpu with sp := s.cpu.sp + 1, p := p' } } ∧
      getFlag .b p' = false ∧ getFlag .u p' = true ∧ ∀ f, f ≠ .b → f ≠ .u → getFlag f p' = getFlag f m)

/-- The eight branches complete, taken exactly on their condition (R96, R145 to R153); `BranchesOn` in Safety.lean says
where a taken one goes, what it costs and that nothing else changes; opcodes 0x90, 0xB0, 0xF0, 0xD0, 0x30, 0x10, 0x50,
0x70, then the offset byte. -/
def Obligations.Branches : Prop :=
  (∀ d : Byte, encode (.bcc d) = [0x90, d] ∧ encode (.bcs d) = [0xB0, d] ∧ encode (.beq d) = [0xF0, d] ∧
    encode (.bne d) = [0xD0, d] ∧ encode (.bmi d) = [0x30, d] ∧ encode (.bpl d) = [0x10, d] ∧
    encode (.bvc d) = [0x50, d] ∧ encode (.bvs d) = [0x70, d]) ∧
  BranchesOn .bcc .c false ∧ BranchesOn .bcs .c true ∧ BranchesOn .beq .z true ∧ BranchesOn .bne .z false ∧
  BranchesOn .bmi .n true ∧ BranchesOn .bpl .n false ∧ BranchesOn .bvc .v false ∧ BranchesOn .bvs .v true

/-- JMP, JSR and RTS complete (R90, R92, R154, R155, R156). `JMP (a)` reads its pointer's second byte from the pointer's
own page; JSR pushes the address of its last byte, high byte first, and RTS goes to one past the address it pulls.
Opcodes 0x4C, 0x6C, 0x20 with the operand low byte first, and 0x60. -/
def Obligations.JumpsAndCalls : Prop :=
  ∀ (s : State) (a : Word),
    (∃ lo hi : Byte, hi.toNat * 256 + lo.toNat = a.toNat ∧ encode (.jmp (.abs a)) = [0x4C, lo, hi] ∧
      encode (.jmp (.ind a)) = [0x6C, lo, hi] ∧ encode (.jsr a) = [0x20, lo, hi] ∧ encode .rts = [0x60]) ∧
    exec (.jmp (.abs a)) s = .next { past s 3 3 with cpu := { (past s 3 3).cpu with pc := a } } ∧
    (∃ b target : Word, b.toNat = a.toNat / 256 * 256 + (a.toNat + 1) % 256 ∧
      target.toNat = (peek (afterRead s a) b).toNat * 256 + (peek s a).toNat ∧
      let u := afterRead (afterRead s a) b
      exec (.jmp (.ind a)) s = .next { u with cpu := { s.cpu with pc := target, cycles := s.cpu.cycles + 5 } }) ∧
    (∃ hi lo : Byte, hi.toNat * 256 + lo.toNat = (s.cpu.pc.toNat + 2) % 65536 ∧
      exec (.jsr a) s = .next { s with
        bus := { s.bus with
          ram := Memory.write (Memory.write s.bus.ram (256 + s.cpu.sp.toNat) hi) (256 + (s.cpu.sp - 1).toNat) lo }
        cpu := { s.cpu with pc := a, sp := s.cpu.sp - 2, cycles := s.cpu.cycles + 6 } }) ∧
    (∃ target : Word,
      target.toNat = ((Memory.read s.bus.ram (256 + (s.cpu.sp + 2).toNat)).toNat * 256 +
        (Memory.read s.bus.ram (256 + (s.cpu.sp + 1).toNat)).toNat + 1) % 65536 ∧
      exec .rts s = .next
        { s with cpu := { s.cpu with pc := target, sp := s.cpu.sp + 2, cycles := s.cpu.cycles + 6 } })

/-- BRK and RTI complete (R157, R158, R311): BRK pushes its address plus 2, high byte first, and the status with bits 4
and 5 set, sets I and goes to the address at 0xFFFE; RTI pulls the status, with bits 4 and 5 fixed, then PC. Nothing
else changes. Opcodes 0x00 and 0x40; BRK's second byte is never read, whatever it is. -/
def Obligations.BreakAndReturn : Prop :=
  (∀ pad, decode [0x00, pad] = .ok (.brk, [])) ∧ encode .rti = [0x40] ∧
  ∀ s : State,
    (∃ (hi lo b p' : Byte) (target : Word), hi.toNat * 256 + lo.toNat = (s.cpu.pc.toNat + 2) % 65536 ∧
      target.toNat = (peek s 0xFFFF).toNat * 256 + (peek s 0xFFFE).toNat ∧
      (getFlag .b b = true ∧ getFlag .u b = true ∧ ∀ f, f ≠ .b → f ≠ .u → getFlag f b = getFlag f s.cpu.p) ∧
      (getFlag .i p' = true ∧ ∀ f, f ≠ .i → getFlag f p' = getFlag f s.cpu.p) ∧
      exec .brk s = .next { s with
        bus := { s.bus with
          ram := Memory.write (Memory.write (Memory.write s.bus.ram (256 + s.cpu.sp.toNat) hi)
            (256 + (s.cpu.sp - 1).toNat) lo) (256 + (s.cpu.sp - 2).toNat) b }
        cpu := { s.cpu with pc := target, sp := s.cpu.sp - 3, p := p', cycles := s.cpu.cycles + 7 } }) ∧
    (∃ (p' : Byte) (target : Word),
      target.toNat = (Memory.read s.bus.ram (256 + (s.cpu.sp + 3).toNat)).toNat * 256 +
        (Memory.read s.bus.ram (256 + (s.cpu.sp + 2).toNat)).toNat ∧
      (getFlag .b p' = false ∧ getFlag .u p' = true ∧
        ∀ f, f ≠ .b → f ≠ .u → getFlag f p' = getFlag f (Memory.read s.bus.ram (256 + (s.cpu.sp + 1).toNat))) ∧
      exec .rti s = .next { s with
        cpu := { s.cpu with pc := target, sp := s.cpu.sp + 3, p := p', cycles := s.cpu.cycles + 6 } })

/-- CLC, SEC, CLI, SEI, CLD, SED, CLV and NOP complete (R160 to R167): opcodes 0x18, 0x38, 0x58, 0x78, 0xD8, 0xF8, 0xB8,
0xEA, one byte, 2 cycles; the named flag is cleared or set, no other flag and nothing else changes. -/
def Obligations.FlagInstructions : Prop :=
  (encode .clc = [0x18] ∧ encode .sec = [0x38] ∧ encode .cli = [0x58] ∧ encode .sei = [0x78] ∧
    encode .cld = [0xD8] ∧ encode .sed = [0xF8] ∧ encode .clv = [0xB8] ∧ encode .nop = [0xEA]) ∧
  ∀ s : State,
    let puts (i : Instr) (f : Flag) (b : Bool) : Prop := ∃ p' : Byte,
      exec i s = .next { past s 1 2 with cpu := { (past s 1 2).cpu with p := p' } } ∧
      getFlag f p' = b ∧ ∀ g, g ≠ f → getFlag g p' = getFlag g s.cpu.p
    puts .clc .c false ∧ puts .sec .c true ∧ puts .cli .i false ∧ puts .sei .i true ∧ puts .cld .d false ∧
    puts .sed .d true ∧ puts .clv .v false ∧ exec .nop s = .next (past s 1 2)

/-- A call returns and a trap returns (R59, R155 to R158, R320): RTS after JSR goes on at the instruction after the JSR,
RTI after BRK at BRK's address plus 2, with SP, and for RTI the flags (bits 4 and 5 as a pull fixes them), as they were.
-/
def Obligations.CallsReturn : Prop :=
  ∀ s : State,
    (∀ a t u, exec (.jsr a) s = .next t → exec .rts t = .next u →
      u.cpu.pc = s.cpu.pc + 3 ∧ u.cpu.sp = s.cpu.sp ∧ u.cpu.p = s.cpu.p) ∧
    (∀ t u, exec .brk s = .next t → exec .rti t = .next u →
      u.cpu.pc = s.cpu.pc + 2 ∧ u.cpu.sp = s.cpu.sp ∧ (s.cpu.Ok → u.cpu.p = s.cpu.p))

/-! ## What an instruction leaves unchanged -/

/-- Every register but those its rule names as written, and every flag but those of its "Flags written" line, is as it was
after an instruction that completes (R10, R11, R13, R14, R100); `writesRegs` and `writesFlags` are the tables in
Safety.lean. The program counter is not spoken of here. -/
def Obligations.RegisterAndFlagFrame : Prop :=
  ∀ (i : Instr) (s t : State), exec i s = .next t →
    (∀ r : Reg, r ∉ i.writesRegs → r.read t.cpu = r.read s.cpu) ∧
    (∀ f : Flag, f ∉ i.writesFlags → getFlag f t.cpu.p = getFlag f s.cpu.p)

/-- What no instruction writes (R15, R16, R18, R22, R71, R202, R264): the interrupt slot; the stall counter, but by a
store to 0x4014; PRG, the bank counts, the loader's mirroring mode and the mapper's variant; the beam's position, the
framebuffers, the sprite buffers, the background latches and the two sprite flags; the outside's schedule. -/
def Obligations.HiddenStateFrame : Prop :=
  ∀ (i : Instr) (s t : State), exec i s = .next t →
    t.cpu.irqSlot = s.cpu.irqSlot ∧
    ((∀ m, i.storeOperand = some m → (resolve s m).addr ≠ 0x4014) →
      (∀ o, i.rmwOperand = some o → (resolve s o.mem).addr ≠ 0x4014) → t.cpu.stall = s.cpu.stall) ∧
    (t.cart.prg = s.cart.prg ∧ t.cart.n16 = s.cart.n16 ∧ t.cart.n4 = s.cart.n4 ∧ t.cart.mirror0 = s.cart.mirror0) ∧
    ((∃ m, s.mapper = .variantA m) → ∃ m, t.mapper = .variantA m) ∧
    ((∃ m, s.mapper = .variantB m) → ∃ m, t.mapper = .variantB m) ∧
    (t.ppu.dot = s.ppu.dot ∧ t.ppu.scanline = s.ppu.scanline ∧ t.ppu.frame = s.ppu.frame) ∧
    (t.ppu.front = s.ppu.front ∧ t.ppu.back = s.ppu.back ∧ t.ppu.sprites = s.ppu.sprites ∧
      t.ppu.sprCount = s.ppu.sprCount ∧ t.ppu.tileData = s.ppu.tileData ∧ t.ppu.ntByte = s.ppu.ntByte ∧
      t.ppu.atBits = s.ppu.atBits ∧ t.ppu.loTile = s.ppu.loTile ∧ t.ppu.hiTile = s.ppu.hiTile ∧
      t.ppu.spr0Hit = s.ppu.spr0Hit ∧ t.ppu.sprOverflow = s.ppu.sprOverflow) ∧
    t.ext.irqCalls = s.ext.irqCalls

/-- The forms that store nothing: register operations, branches, jumps and flag instructions leave everything outside the
CPU as it was, and so do PLA, PLP, RTS and RTI; a reading instruction, and the pointer reads of `JMP (a)`, leave every
byte of memory as it was (R57, R65). -/
def Obligations.NoStoreFrame : Prop :=
  ∀ (i : Instr) (s t : State), exec i s = .next t →
    (i.registerOnly = true → SameOutside s t) ∧
    (i = .pla ∨ i = .plp ∨ i = .rts ∨ i = .rti → SameOutside s t) ∧
    (i.readOperand ≠ none ∨ i.pulls = true → SameMemory s t)

/-- The forms that store (R45, R57, R62, R128 to R130, R137, R138, R155, R158): a store changes bytes of memory only in
the cell of the address its operand resolves to; a read-modify-write likewise, from the state its read left, in which no
byte of memory is changed; a push of `n` bytes changes only the `n` stack locations from SP down. `StoreFrame` in
Safety.lean says which bytes stay, space by space. -/
def Obligations.StoreMemoryFrame : Prop :=
  ∀ (i : Instr) (s t : State), exec i s = .next t →
    (∀ m, i.storeOperand = some m → StoreFrame s t (resolve s m).addr) ∧
    (∀ o, i.rmwOperand = some o →
      SameMemory s (afterRead s (resolve s o.mem).addr) ∧
      StoreFrame (afterRead s (resolve s o.mem).addr) t (resolve s o.mem).addr) ∧
    (0 < i.pushes → SameButRam s t ∧
      ∀ b : Word, holdsBytes b = true →
        (∀ k < i.pushes, sameCell (stackAddr (s.cpu.sp - BitVec.ofNat 8 k)) b = false) → peek t b = peek s b)

/-! ## Reset, interrupts and the step -/

/-- `reset()` (R302, R340): PC from the two bytes at 0xFFFC and 0xFFFD, low byte first, SP 0xFD, P 0x24, the slot and
the stall cleared; nothing else changes: not A, X, Y, the cycle counter, any memory, the mapper or the Picture Engine. -/
def Obligations.ResetCall : Prop :=
  ∀ s : State, ∃ pc : Word, pc.toNat = (peek s 0xFFFD).toNat * 256 + (peek s 0xFFFC).toNat ∧
    resetCall s = { s with cpu := { s.cpu with pc := pc, sp := 0xFD, p := 0x24, irqSlot := .none, stall := 0 } }

/-- Building the machine and the first `reset()` (R36, R201, R202, R341, R342): an image with the loader's guarantees gives
a machine that meets the invariant, every field R36 gives a value at that value, PC the word at the end of the last PRG bank;
what R36 leaves unspecified (A, X, Y, the memories, the framebuffers) is not spoken of. Another image is refused and builds
nothing; which images those are is the model's inference (log 16, DEDUCED). -/
def Obligations.PowerOn : Prop :=
  ∀ img : RomImage,
    (img.valid = false → construct img = .refused .loadError) ∧
    (img.valid = true → ∃ s : State, construct img = .next s ∧ Inv s ∧
      s.cpu.pc.toNat = (Memory.read img.prg (img.prgBanks * 16384 - 3)).toNat * 256 +
        (Memory.read img.prg (img.prgBanks * 16384 - 4)).toNat ∧
      s.cpu.sp.toNat = 0xFD ∧ s.cpu.p.toNat = 0x24 ∧ s.cpu.irqSlot = .none ∧ s.cpu.stall = 0 ∧ s.cpu.cycles = 0 ∧
      s.bus.unmapped = 0 ∧ s.cart.prg = img.prg ∧ s.cart.sram = img.sram ∧ s.cart.n16 = img.prgBanks ∧
      (img.chrBanks ≠ 0 → s.cart.chr = img.chr ∧ s.cart.n4 = img.chrBanks) ∧ s.mirror = img.mirror ∧
      (img.mapperId ≠ 1 → s.mapper = .variantA { bank := 0 }) ∧
      (img.mapperId = 1 → ∃ m, s.mapper = .variantB m ∧ m.shift = 0 ∧ m.count = 0 ∧ m.control = 0x0C ∧ m.chr0 = 0 ∧
        m.chr1 = 0 ∧ m.prg = 0 ∧ m.prgOff0 = 0 ∧ m.prgOff1 = (img.prgBanks - 1) * 16384 ∧ m.chrOff0 = 0 ∧
        m.chrOff1 = 4096) ∧
      s.ppu.position = 0 ∧ s.ppu.v = 0 ∧ s.ppu.t = 0 ∧ s.ppu.x = 0 ∧ s.ppu.w = false ∧ s.ppu.ctrl = 0 ∧
      s.ppu.mask = 0 ∧ s.ppu.sprOverflow = false ∧ s.ppu.spr0Hit = false ∧ s.ppu.nmiOccurred = false ∧
      s.ppu.oamAddr = 0 ∧ s.ppu.readBuffer = 0 ∧ s.ppu.regLatch = 0 ∧ s.ppu.nmiPrevious = false ∧
      s.ppu.nmiDelay = 0 ∧ s.ppu.ntByte = 0 ∧ s.ppu.atBits = 0 ∧ s.ppu.loTile = 0 ∧ s.ppu.hiTile = 0 ∧
      s.ppu.tileData = 0 ∧ s.ppu.sprCount = 0)

/-- Requesting an interrupt (R314, R315): `triggerNMI()` puts NMI into the slot whatever it holds; `triggerIRQ()` is
dropped while I is 1 or an NMI is pending, else puts IRQ into it; nothing else changes. A call the outside makes before a
step is one of these (R303, log 8). -/
def Obligations.InterruptRequests : Prop :=
  ∀ s : State,
    triggerNmi s = { s with cpu := { s.cpu with irqSlot := .nmi } } ∧
    (s.flag .i = true ∨ s.cpu.irqSlot = .nmi → triggerIrq s = s) ∧
    (s.flag .i = false → s.cpu.irqSlot ≠ .nmi → triggerIrq s = { s with cpu := { s.cpu with irqSlot := .irq } }) ∧
    (∀ b r, s.ext.irqCalls = b :: r →
      takeIrqCall s =
        (if b then triggerIrq { s with ext := { s.ext with irqCalls := r } }
         else { s with ext := { s.ext with irqCalls := r } })) ∧
    (s.ext.irqCalls = [] → takeIrqCall s = s)

/-- Taking an interrupt (R14, R317, R319): with no stall outstanding and an NMI pending, or an IRQ pending and I clear,
the CPU's step pushes PC, high byte first, and the status with bit 5 set and bit 4 clear, sets I, loads PC from the vector,
clears the slot and charges 7 cycles; A, X, Y, the other flags and everything else stay. -/
def Obligations.InterruptEntry : Prop :=
  ∀ s : State, s.cpu.stall = 0 →
    s.cpu.irqSlot = .nmi ∨ (s.cpu.irqSlot = .irq ∧ s.flag .i = false) →
    ∃ (hi lo b p' : Byte) (vec vec' target : Word), hi.toNat * 256 + lo.toNat = s.cpu.pc.toNat ∧
      vec = (if s.cpu.irqSlot = .nmi then 0xFFFA else 0xFFFE) ∧ vec'.toNat = vec.toNat + 1 ∧
      target.toNat = (peek s vec').toNat * 256 + (peek s vec).toNat ∧
      (getFlag .b b = false ∧ getFlag .u b = true ∧ ∀ f, f ≠ .b → f ≠ .u → getFlag f b = getFlag f s.cpu.p) ∧
      (getFlag .i p' = true ∧ ∀ f, f ≠ .i → getFlag f p' = getFlag f s.cpu.p) ∧
      cpuStep s = .next { s with
        bus := { s.bus with
          ram := Memory.write (Memory.write (Memory.write s.bus.ram (256 + s.cpu.sp.toNat) hi)
            (256 + (s.cpu.sp - 1).toNat) lo) (256 + (s.cpu.sp - 2).toNat) b }
        cpu := { s.cpu with pc := target, sp := s.cpu.sp - 3, p := p', irqSlot := .none,
                            cycles := s.cpu.cycles + 7 } }

/-- The order in a step (R82, R300, R316, R317, R318, R351): a stall step takes one cycle and fetches nothing, whatever
is pending; then an interrupt that may be taken, 7 cycles; an IRQ pending while I is set is dropped and the step goes on as
if none were; each cycle is three dots. `u` is the state after the outside's call, if one is due (log 8). -/
def Obligations.StepOrder : Prop :=
  ∀ s : State,
    let u := takeIrqCall s
    (0 < u.cpu.stall → step s = .next (runDots 3
      { u with cpu := { u.cpu with stall := u.cpu.stall - 1, cycles := u.cpu.cycles + 1 } })) ∧
    (u.cpu.stall = 0 → u.cpu.irqSlot = .nmi ∨ (u.cpu.irqSlot = .irq ∧ u.flag .i = false) →
      ∃ t, cpuStep u = .next t ∧ t.cpu.cycles = u.cpu.cycles + 7 ∧ step s = .next (runDots 21 t)) ∧
    (u.cpu.irqSlot = .irq → u.flag .i = true → u.cpu.stall = 0 →
      cpuStep u = cpuStep { u with cpu := { u.cpu with irqSlot := .none } })

/-- How a step ends (R98, R310, R312, R322): it never refuses; it faults only with `UnimplementedOpcode`, of one of the
105 illegal bytes, at the PC it stood at, and only with no stall outstanding, no NMI in the slot, and no IRQ there unless I
is set. `takeIrqCall s` is the state after the outside's call, if one is due (log 8). So a machine whose next byte is not one
of them goes on. -/
def Obligations.StepOutcomes : Prop :=
  ∀ s : State,
    (∀ r, step s ≠ .refused r) ∧
    (∀ f, step s = .fault f → ∃ op ∈ illegalOpcodes, f = .unimplementedOpcode op s.cpu.pc ∧
      (takeIrqCall s).cpu.stall = 0 ∧ (takeIrqCall s).cpu.irqSlot ≠ .nmi ∧
      ((takeIrqCall s).cpu.irqSlot = .irq → (takeIrqCall s).flag .i = true) ∧ peek (takeIrqCall s) s.cpu.pc = op) ∧
    (peek (takeIrqCall s) s.cpu.pc ∉ illegalOpcodes → ∃ t, step s = .next t)

/-- Three dots for each cycle (R265, R300, R306, R352): a step takes between 1 and 7 cycles, and the beam moves three dots
for each, counting 341 dots a line and 262 lines a frame; one place more when an odd frame ends in the step with rendering
on, where dot 340 of line 261 is skipped, unless the beam stood on that dot already. -/
def Obligations.DotsPerCycle : Prop :=
  ∀ s t : State, Inv s → step s = .next t →
    s.cpu.cycles + 1 ≤ t.cpu.cycles ∧ t.cpu.cycles ≤ s.cpu.cycles + 7 ∧
    t.ppu.position = s.ppu.position + 3 * (t.cpu.cycles - s.cpu.cycles) +
      if t.ppu.rendering = true ∧ s.ppu.frame % 2 = 1 ∧ t.ppu.frame ≠ s.ppu.frame ∧
        ¬(s.ppu.scanline = 261 ∧ s.ppu.dot = 340) then 1 else 0

/-- `stepFrame()` (R301, R312): from every state that meets the invariant it makes steps until one ends in the next frame,
which leaves the beam at most 20 dots into that frame's first line; or a step before that raises `UnimplementedOpcode`, and it
aborts with that error, leaving the halted machine `h`: as before that step, with the CPU, the beam and every byte of
memory untouched, and with no side effect at all where reading PC has none; stepping `h` again raises the same error, unless
the outside makes a `triggerIRQ()` call first, and `reset()` makes it runnable, with PC from the vector (`takeIrqCall u`:
the outside's call of before the failing step, log 8; log 13). -/
def Obligations.StepFrameEndsInNextFrame : Prop :=
  ∀ s : State, Inv s →
    (∃ (k : Nat) (t : State), afterSteps (k + 1) s = some t ∧
      (∀ j ≤ k, ∃ u : State, afterSteps j s = some u ∧ u.ppu.frame = s.ppu.frame) ∧
      stepFrame s = .completed t ∧ t.ppu.frame = s.ppu.frame + 1 ∧ t.ppu.scanline = 0 ∧ t.ppu.dot ≤ 20) ∨
    (∃ (k : Nat) (u h : State) (op : Byte), afterSteps k s = some u ∧ u.ppu.frame = s.ppu.frame ∧ op ∈ illegalOpcodes ∧
      step u = .fault (.unimplementedOpcode op u.cpu.pc) ∧
      stepFrame s = .aborted (.unimplementedOpcode op u.cpu.pc) h ∧
      h.cpu = (takeIrqCall u).cpu ∧ h.ppu.position = u.ppu.position ∧ SameMemory u h ∧
      (quiet u.cpu.pc = true → h = takeIrqCall u ∧
        ((∀ r, h.ext.irqCalls ≠ true :: r) → step h = .fault (.unimplementedOpcode op u.cpu.pc))) ∧
      (resetCall h).cpu.pc = (resetCall u).cpu.pc ∧ (resetCall h).cpu.stall = 0 ∧ (resetCall h).cpu.irqSlot = .none)

/-! ## The mapper -/

/-- Variant A (R204, R205, R206, R207, R208, R209): a write to 0x8000 to 0xFFFF selects the bank modulo the bank count
and stores nothing; the low window then shows that bank, the high window always the last; CHR is read and written
directly; the mirroring mode is the image's. -/
def Obligations.MapperVariantA : Prop :=
  ∀ (s : State) (b : Nat) (a : Word) (v : Byte), s.mapper = .variantA { bank := b } → 0x8000 ≤ a.toNat →
    let t := memWrite s a v
    (t = { s with mapper := .variantA { bank := v.toNat % s.cart.n16 } }) ∧
    (∀ k < 0x4000, peek t (BitVec.ofNat 16 (0x8000 + k)) =
      Memory.read s.cart.prg (v.toNat % s.cart.n16 * 16384 + k)) ∧
    (∀ k < 0x4000, peek t (BitVec.ofNat 16 (0xC000 + k)) = Memory.read s.cart.prg ((s.cart.n16 - 1) * 16384 + k)) ∧
    (∀ k < 0x2000, ppuRead s (BitVec.ofNat 14 k) = Memory.read s.cart.chr k ∧
      ppuWrite s (BitVec.ofNat 14 k) v = { s with cart := { s.cart with chr := Memory.write s.cart.chr k v } }) ∧
    t.mirror = s.cart.mirror0

/-- The serial port of variant B (R211, R212, R213, R214, R215, R220, R221): five writes whose bit 7 is 0, from an empty
port, commit the five bits, the first in bit 0, to the register bits 14 and 13 of the fifth address select, empty the port
and recompute the windows; nothing else changes. A write with bit 7 set empties the port and sets control bits 3 and 2. -/
def Obligations.SerialPort : Prop :=
  ∀ (s : State) (m : MapperB) (a1 a2 a3 a4 a5 : Word) (v1 v2 v3 v4 v5 : Byte), s.mapper = .variantB m →
    0x8000 ≤ a1.toNat → 0x8000 ≤ a2.toNat → 0x8000 ≤ a3.toNat → 0x8000 ≤ a4.toNat → 0x8000 ≤ a5.toNat →
    (128 ≤ v1.toNat → ∃ c : BitVec 5, c.toNat = m.control.toNat / 16 * 16 + 12 + m.control.toNat % 4 ∧
      memWrite s a1 v1 = { s with
        mapper := .variantB (recompute s.cart.n16 s.cart.n4 { m with shift := 0, count := 0, control := c }) }) ∧
    (m.count = 0 → v1.toNat < 128 → v2.toNat < 128 → v3.toNat < 128 → v4.toNat < 128 → v5.toNat < 128 →
      ∃ val : BitVec 5,
        val.toNat = v1.toNat % 2 + v2.toNat % 2 * 2 + v3.toNat % 2 * 4 + v4.toNat % 2 * 8 + v5.toNat % 2 * 16 ∧
        let e := { m with shift := 0, count := 0 }
        let r : MapperB :=
          if a5.toNat < 0xA000 then { e with control := val }
          else if a5.toNat < 0xC000 then { e with chr0 := val }
          else if a5.toNat < 0xE000 then { e with chr1 := val }
          else { e with prg := val.setWidth 4 }
        memWrite (memWrite (memWrite (memWrite (memWrite s a1 v1) a2 v2) a3 v3) a4 v4) a5 v5 =
          { s with mapper := .variantB (recompute s.cart.n16 s.cart.n4 r) })

/-- The windows of variant B (R210, R213, R216, R218, R219): what each PRG mode and each CHR mode shows, with bank numbers
reduced modulo the bank counts, every window inside its storage, and the mirroring mode the control register names. -/
def Obligations.BankWindows : Prop :=
  ∀ (n16 n4 : Nat) (m : MapperB), 1 ≤ n16 → 2 ≤ n4 →
    let r := recompute n16 n4 m
    let mode := m.control.toNat / 4 % 4
    let prg := m.prg.toNat
    (mode < 2 → r.prgOff0 = prg / 2 * 2 % n16 * 16384 ∧ r.prgOff1 = (prg / 2 * 2 + 1) % n16 * 16384) ∧
    (mode = 2 → r.prgOff0 = 0 ∧ r.prgOff1 = prg % n16 * 16384) ∧
    (mode = 3 → r.prgOff0 = prg % n16 * 16384 ∧ r.prgOff1 = (n16 - 1) * 16384) ∧
    (m.control.toNat < 16 → r.chrOff0 = m.chr0.toNat / 2 * 2 % n4 * 4096 ∧
      r.chrOff1 = (m.chr0.toNat / 2 * 2 + 1) % n4 * 4096) ∧
    (16 ≤ m.control.toNat → r.chrOff0 = m.chr0.toNat % n4 * 4096 ∧ r.chrOff1 = m.chr1.toNat % n4 * 4096) ∧
    (r.prgOff0 + 16384 ≤ n16 * 16384 ∧ r.prgOff1 + 16384 ≤ n16 * 16384 ∧
      r.chrOff0 + 4096 ≤ n4 * 4096 ∧ r.chrOff1 + 4096 ≤ n4 * 4096) ∧
    r.mirror = (match m.control.toNat % 4 with
      | 0 => .single0
      | 1 => .single1
      | 2 => .vertical
      | _ => .horizontal) ∧
    (∀ (s : State) (k : Nat), s.mapper = .variantB r → k < 0x4000 →
      peek s (BitVec.ofNat 16 (0x8000 + k)) = Memory.read s.cart.prg (r.prgOff0 + k) ∧
      peek s (BitVec.ofNat 16 (0xC000 + k)) = Memory.read s.cart.prg (r.prgOff1 + k)) ∧
    (∀ (s : State) (k : Nat), s.mapper = .variantB r → k < 0x1000 →
      ppuRead s (BitVec.ofNat 14 k) = Memory.read s.cart.chr (r.chrOff0 + k) ∧
      ppuRead s (BitVec.ofNat 14 (0x1000 + k)) = Memory.read s.cart.chr (r.chrOff1 + k))

/-! ## The Picture Engine: registers -/

/-- Writes of the eight picture registers (R234, R235, R237 to R241, R243, R244): every one latches the byte; control also
moves bits 1:0 into bits 11:10 of `t` and re-evaluates the NMI output; mask, OAM address and OAM data store; scroll and
address take two writes each, steered by the one toggle; data stores in picture space and steps `v` by 1 or 32 modulo
2^15. Nothing else changes. The delay a rising NMI output starts is `NMI_DELAY` (log 5). -/
def Obligations.PictureRegisterWrites : Prop :=
  ∀ (s : State) (b : Byte), ∃ (t0 t5 t5' t6 t6' v7 : ScrollAddr) (x5 : BitVec 3) (o4 : Byte) (q : PicAddr),
    let p := s.ppu
    let n := b.toNat
    let t := p.t.toNat
    let nmi : Bool := decide (128 ≤ n) && p.nmiOccurred
    (t0.toNat = t / 4096 * 4096 + n % 4 * 1024 + t % 1024 ∧
      memWrite s 0x2000 b = { s with
        ppu := { p with
          regLatch := b, ctrl := b, t := t0, nmiPrevious := nmi,
          nmiDelay := if nmi = true ∧ p.nmiPrevious = false then Config.nmiDelay else p.nmiDelay } }) ∧
    memWrite s 0x2001 b = { s with ppu := { p with regLatch := b, mask := b } } ∧
    memWrite s 0x2002 b = { s with ppu := { p with regLatch := b } } ∧
    memWrite s 0x2003 b = { s with ppu := { p with regLatch := b, oamAddr := b } } ∧
    (o4.toNat = (p.oamAddr.toNat + 1) % 256 ∧
      memWrite s 0x2004 b = { s with
        ppu := { p with regLatch := b, oam := Memory.write p.oam p.oamAddr.toNat b, oamAddr := o4 } }) ∧
    (t5.toNat = t / 32 * 32 + n / 8 ∧ x5.toNat = n % 8 ∧ (p.w = false →
      memWrite s 0x2005 b = { s with ppu := { p with regLatch := b, t := t5, x := x5, w := true } })) ∧
    (t5'.toNat = n % 8 * 4096 + t / 1024 % 4 * 1024 + n / 8 * 32 + t % 32 ∧ (p.w = true →
      memWrite s 0x2005 b = { s with ppu := { p with regLatch := b, t := t5', w := false } })) ∧
    (t6.toNat = n % 64 * 256 + t % 256 ∧ (p.w = false →
      memWrite s 0x2006 b = { s with ppu := { p with regLatch := b, t := t6, w := true } })) ∧
    (t6'.toNat = t / 256 * 256 + n ∧ (p.w = true →
      memWrite s 0x2006 b = { s with ppu := { p with regLatch := b, t := t6', v := t6', w := false } })) ∧
    (q.toNat = p.v.toNat % 16384 ∧ v7.toNat = (p.v.toNat + if p.ctrl.getLsbD 2 then 32 else 1) % 32768 ∧
      memWrite s 0x2007 b = { ppuWrite s q b with ppu := { p with regLatch := b, v := v7 } })

/-- Reads of the eight picture registers (R236, R239, R242, R244): status answers the three flags over the latch's low
bits and clears the NMI latch and the toggle, leaving a running delay; OAM data answers a byte and moves nothing; data
answers the buffer below 0x3F00, the palette byte from there on, refills the buffer and steps `v`; the others answer 0 and
change nothing. -/
def Obligations.PictureRegisterReads : Prop :=
  ∀ s : State, ∃ (q under : PicAddr) (v7 : ScrollAddr),
    let p := s.ppu
    (∀ a : Word, a = 0x2000 ∨ a = 0x2001 ∨ a = 0x2003 ∨ a = 0x2005 ∨ a = 0x2006 → memRead s a = (0, s)) ∧
    ((peek s 0x2002).toNat = p.regLatch.toNat % 32 + 32 * bitNat p.sprOverflow + 64 * bitNat p.spr0Hit +
        128 * bitNat p.nmiOccurred ∧
      afterRead s 0x2002 = { s with ppu := { p with nmiOccurred := false, nmiPrevious := false, w := false } }) ∧
    memRead s 0x2004 = (Memory.read p.oam p.oamAddr.toNat, s) ∧
    (q.toNat = p.v.toNat % 16384 ∧ v7.toNat = (p.v.toNat + if p.ctrl.getLsbD 2 then 32 else 1) % 32768 ∧
      (q.toNat < 0x3F00 →
        memRead s 0x2007 = (p.readBuffer, { s with ppu := { p with readBuffer := ppuRead s q, v := v7 } })) ∧
      (0x3F00 ≤ q.toNat → under.toNat = q.toNat - 0x1000 ∧
        memRead s 0x2007 = (ppuRead s q, { s with ppu := { p with readBuffer := ppuRead s under, v := v7 } })))

/-! ## The Picture Engine: dots -/

/-- The vertical blank (R264, R266): the dot that arrives at (241, 1) exchanges the framebuffers and sets the NMI latch;
the one that arrives at (261, 1) clears it and the two sprite flags; no other dot moves the latch or the front buffer or
clears a sprite flag. The edge detector follows the NMI output (R262). -/
def Obligations.VerticalBlank : Prop :=
  ∀ s : State,
    let p := s.ppu
    let q := (ppuStep s).ppu
    let nmi : Bool := q.ctrl.getLsbD 7 && q.nmiOccurred
    (p.scanline = 241 → p.dot = 0 → q.scanline = 241 ∧ q.dot = 1 ∧ q.front = p.back ∧ q.back = p.front ∧
      q.nmiOccurred = true ∧ q.nmiPrevious = nmi ∧
      q.nmiDelay = if nmi = true ∧ p.nmiPrevious = false then Config.nmiDelay else p.nmiDelay - 1) ∧
    (p.scanline = 261 → p.dot = 0 → q.scanline = 261 ∧ q.dot = 1 ∧ q.nmiOccurred = false ∧ q.nmiPrevious = false ∧
      q.spr0Hit = false ∧ q.sprOverflow = false ∧ q.front = p.front ∧ q.nmiDelay = p.nmiDelay - 1) ∧
    (¬(q.dot = 1 ∧ (q.scanline = 241 ∨ q.scanline = 261)) → q.nmiOccurred = p.nmiOccurred ∧
      q.nmiPrevious = p.nmiPrevious ∧ q.front = p.front ∧ q.nmiDelay = p.nmiDelay - 1 ∧
      (p.spr0Hit = true → q.spr0Hit = true) ∧ (p.sprOverflow = true → q.sprOverflow = true))

/-- The NMI delay (R263): a dot requests the NMI exactly when the delay ends in it with the NMI enabled and the latch set,
and changes nothing else outside the Picture Engine. So, from (241, 0) with the NMI enabled and nothing pending, nothing is
requested while the latch is set and `NMI_DELAY` - 1 dots follow, and the request comes in the dot after those (log 5). -/
def Obligations.NmiDelay : Prop :=
  (∀ s : State, ppuStep s =
    { s with
      ppu := (ppuStep s).ppu
      cpu := { s.cpu with
        irqSlot := if s.ppu.nmiDelay = 1 ∧ s.ppu.ctrl.getLsbD 7 = true ∧ s.ppu.nmiOccurred = true then .nmi
          else s.cpu.irqSlot } }) ∧
  (∀ s : State, s.ppu.scanline = 241 → s.ppu.dot = 0 → s.ppu.ctrl.getLsbD 7 = true → s.ppu.nmiPrevious = false →
    s.ppu.nmiDelay = 0 →
    (∀ n ≤ Config.nmiDelay, (runDots n s).cpu = s.cpu) ∧
    (runDots (Config.nmiDelay + 1) s).cpu = { s.cpu with irqSlot := .nmi })

/-- The beam (R260, R265): 341 dots a line, 262 lines a frame; from the first dot of a frame the next frame begins after
exactly 89342 dots, or 89341 when the frame is odd and rendering is enabled, and not before. -/
def Obligations.FrameLength : Prop :=
  (∀ s : State, s.ppu.dot ≤ 340 → s.ppu.scanline ≤ 261 →
    let p := s.ppu
    let q := (ppuStep s).ppu
    let skip : Prop := p.rendering = true ∧ p.frame % 2 = 1 ∧ p.scanline = 261 ∧ p.dot = 339
    (p.dot < 340 → ¬skip → q.dot = p.dot + 1 ∧ q.scanline = p.scanline ∧ q.frame = p.frame) ∧
    (p.dot = 340 → p.scanline < 261 → q.dot = 0 ∧ q.scanline = p.scanline + 1 ∧ q.frame = p.frame) ∧
    ((p.dot = 340 ∧ p.scanline = 261) ∨ skip → q.dot = 0 ∧ q.scanline = 0 ∧ q.frame = p.frame + 1)) ∧
  (∀ s : State, s.ppu.dot = 0 → s.ppu.scanline = 0 →
    let n := if s.ppu.rendering = true ∧ s.ppu.frame % 2 = 1 then 89341 else 89342
    let t := runDots n s
    t.ppu.dot = 0 ∧ t.ppu.scanline = 0 ∧ t.ppu.frame = s.ppu.frame + 1 ∧
    ∀ k < n, (runDots k s).ppu.frame = s.ppu.frame)

/-- The scroll address (R275 to R278): coarse X steps and wraps into the horizontal nametable bit, fine Y steps and
carries into coarse Y, row 29 wrapping with a flip of the vertical nametable bit and row 31 without; the copies take the
horizontal or the vertical fields of `t`. `d` and `l` are the dot and the line the step arrives at. -/
def Obligations.ScrollMovement : Prop :=
  (∀ v t : ScrollAddr,
    let ix := (incrementX v).toNat
    let iy := (incrementY v).toNat
    let n := v.toNat
    let coarseY := n / 32 % 32
    let flip := if coarseY = 29 then 1 else 0
    (ix % 32 = (n % 32 + 1) % 32 ∧ ix / 32 % 32 = coarseY ∧
      ix / 1024 % 2 = (n / 1024 + if n % 32 = 31 then 1 else 0) % 2 ∧ ix / 2048 = n / 2048) ∧
    (iy % 32 = n % 32 ∧ iy / 1024 % 2 = n / 1024 % 2 ∧ iy / 4096 = (n / 4096 + 1) % 8 ∧
      (n / 4096 < 7 → iy = n + 4096) ∧
      (n / 4096 = 7 → iy / 32 % 32 = (if coarseY = 29 ∨ coarseY = 31 then 0 else coarseY + 1) ∧
        iy / 2048 % 2 = (n / 2048 + flip) % 2)) ∧
    (copyX v t).toNat = n / 2048 * 2048 + t.toNat / 1024 % 2 * 1024 + n / 32 % 32 * 32 + t.toNat % 32 ∧
    (copyY v t).toNat = t.toNat / 2048 * 2048 + n / 1024 % 2 * 1024 + t.toNat / 32 % 32 * 32 + n % 32) ∧
  (∀ s : State,
    let p := s.ppu
    let q := (ppuStep s).ppu
    let d := q.dot
    let l := q.scanline
    let fetch : Prop := (1 ≤ d ∧ d ≤ 256) ∨ (321 ≤ d ∧ d ≤ 336)
    (p.rendering = false ∨ (240 ≤ l ∧ l ≠ 261) → q.v = p.v) ∧
    (p.rendering = true → l < 240 ∨ l = 261 →
      (fetch → d % 8 = 0 → d ≠ 256 → q.v = incrementX p.v) ∧
      (d = 256 → q.v = incrementY (incrementX p.v)) ∧
      (d = 257 → q.v = copyX p.v p.t) ∧
      (280 ≤ d → d ≤ 304 → q.v = if l = 261 then copyY p.v p.t else p.v) ∧
      (¬(fetch ∧ d % 8 = 0) → d ≠ 257 → ¬(280 ≤ d ∧ d ≤ 304) → q.v = p.v)))

/-- The background fetch (R270 to R274, R279): while rendering, on a visible or the pre-render line, a fetch dot moves the
shifter one pixel and then does the one operation its number modulo 8 selects; every other dot leaves the shifter and the
four latches alone. The latch puts eight pixels, the leftmost highest, into the low half. -/
def Obligations.BackgroundFetch : Prop :=
  ∀ s : State, s.ppu.atBits &&& 3 = 0 →
    let p := s.ppu
    let q := (ppuStep s).ppu
    let d := q.dot
    let l := q.scanline
    let v := p.v.toNat
    let fetch : Prop := p.rendering = true ∧ (l < 240 ∨ l = 261) ∧ ((1 ≤ d ∧ d ≤ 256) ∨ (321 ≤ d ∧ d ≤ 336))
    let tile := (if p.ctrl.getLsbD 4 then 4096 else 0) + p.ntByte.toNat * 16 + v / 4096
    (¬(fetch ∧ d % 8 = 1) → q.ntByte = p.ntByte) ∧ (¬(fetch ∧ d % 8 = 3) → q.atBits = p.atBits) ∧
    (¬(fetch ∧ d % 8 = 5) → q.loTile = p.loTile) ∧ (¬(fetch ∧ d % 8 = 7) → q.hiTile = p.hiTile) ∧
    (¬fetch → q.tileData = p.tileData) ∧ (fetch → d % 8 ≠ 0 → q.tileData = p.tileData <<< 4) ∧
    (fetch → d % 8 = 1 → ∃ a : PicAddr, a.toNat = 0x2000 + v % 4096 ∧ q.ntByte = ppuRead s a) ∧
    (fetch → d % 8 = 3 → ∃ a : PicAddr,
      a.toNat = 0x23C0 + v / 1024 % 4 * 1024 + v / 128 % 8 * 8 + v / 4 % 8 ∧
      q.atBits.toNat = (ppuRead s a).toNat / 2 ^ (v / 64 % 2 * 4 + v / 2 % 2 * 2) % 4 * 4) ∧
    (fetch → d % 8 = 5 → ∃ a : PicAddr, a.toNat = tile ∧ q.loTile = ppuRead s a) ∧
    (fetch → d % 8 = 7 → ∃ a : PicAddr, a.toNat = tile + 8 ∧ q.hiTile = ppuRead s a) ∧
    (fetch → d % 8 = 0 → ∃ row : BitVec 32, q.tileData = (p.tileData <<< 4) ||| row.setWidth 64 ∧
      ∀ k < 8, row.toNat / 16 ^ (7 - k) % 16 =
        p.atBits.toNat + 2 * bitNat (p.hiTile.getLsbD (7 - k)) + bitNat (p.loTile.getLsbD (7 - k)))

/-- Sprite evaluation (R280 to R283): at dot 257 of a visible line, while rendering, the first eight of the sprites whose
range holds the line fill the buffer in slot order, with their X, priority, slot number and row pattern, and a ninth sets
the overflow flag; at dot 257 of another line the buffer is emptied; no other dot touches it. The row pattern: address by
size, table and vertical flip, pixels by palette select and horizontal flip. -/
def Obligations.SpriteEvaluation : Prop :=
  (∀ s : State, s.ppu.sprites.length = 8 →
    let p := s.ppu
    let q := (ppuStep s).ppu
    let l := q.scanline
    let byte : Nat → Byte := Memory.read p.oam
    let h := if p.ctrl.getLsbD 5 then 16 else 8
    let found := (List.range 64).filter fun i => decide ((byte (4 * i)).toNat ≤ l ∧ l - (byte (4 * i)).toNat < h)
    (p.rendering = true → q.dot = 257 → l < 240 →
      q.sprCount = min found.length 8 ∧ (q.sprOverflow = true ↔ p.sprOverflow = true ∨ 8 < found.length) ∧
      ∀ k i, k < 8 → found[k]? = some i → ∃ e : Sprite, q.sprites[k]? = some e ∧ e.x = byte (4 * i + 3) ∧
        e.prio = (byte (4 * i + 2)).getLsbD 5 ∧ e.idx.toNat = i ∧
        e.pattern = fetchSpritePattern s i (l - (byte (4 * i)).toNat)) ∧
    (p.rendering = true → q.dot = 257 → 240 ≤ l → q.sprCount = 0) ∧
    (p.rendering = false ∨ q.dot ≠ 257 → q.sprCount = p.sprCount ∧ q.sprites = p.sprites)) ∧
  (∀ (s : State) (i row : Nat), i < 64 → row < (if s.ppu.ctrl.getLsbD 5 then 16 else 8) →
    let tile := (Memory.read s.ppu.oam (4 * i + 1)).toNat
    let attr := Memory.read s.ppu.oam (4 * i + 2)
    let base :=
      if s.ppu.ctrl.getLsbD 5 then
        let r := if attr.getLsbD 7 then 15 - row else row
        tile % 2 * 4096 + (tile / 2 * 2 + r / 8) * 16 + r % 8
      else (if s.ppu.ctrl.getLsbD 3 then 4096 else 0) + tile * 16 + (if attr.getLsbD 7 then 7 - row else row)
    ∃ a b : PicAddr, a.toNat = base ∧ b.toNat = base + 8 ∧
      ∀ k < 8, (fetchSpritePattern s i row).toNat / 16 ^ (7 - k) % 16 =
        let bit := if attr.getLsbD 6 then k else 7 - k
        attr.toNat % 4 * 4 + 2 * bitNat ((ppuRead s b).getLsbD bit) + bitNat ((ppuRead s a).getLsbD bit))

/-- Pixel composition (R285 to R289): while rendering, the dot that arrives at column `x` + 1 of visible line `l` writes one
pixel of the back buffer: the background pixel fine X selects and the first opaque sprite pixel, clipped in the left
column, the sprite in front unless its priority bit puts it behind an opaque background; both opaque with sprite 0 and
`x` < 255 set the hit flag. A dot that arrives anywhere else draws nothing and sets no hit (the buffers are exchanged at
(241, 1), the hit cleared at (261, 1)). With rendering disabled a dot moves nothing of the pipeline. No dot moves a picture
register, the scroll latches `t`, `x` and `w`, OAM, or the read buffer (R261). -/
def Obligations.PixelComposition : Prop :=
  (∀ s : State, s.ppu.rendering = true →
    let p := s.ppu
    let q := (ppuStep s).ppu
    let x := q.dot - 1
    1 ≤ q.dot → q.dot ≤ 256 → q.scanline < 240 →
    let pixel : Sprite → Nat := fun e =>
      if e.x.toNat ≤ x ∧ x ≤ e.x.toNat + 7 then e.pattern.toNat / 16 ^ (7 - (x - e.x.toNat)) % 16 else 0
    let bg :=
      if p.mask.getLsbD 3 = true ∧ (8 ≤ x ∨ p.mask.getLsbD 1 = true) then
        p.tileData.toNat / 2 ^ 32 / 16 ^ (7 - p.x.toNat) % 16
      else 0
    let sprite :=
      if p.mask.getLsbD 4 = true ∧ (8 ≤ x ∨ p.mask.getLsbD 2 = true) then
        (p.sprites.take p.sprCount).find? fun e => decide (pixel e % 4 ≠ 0)
      else none
    let colour :=
      match sprite with
      | none => if bg % 4 = 0 then 0 else bg
      | some e => if bg % 4 ≠ 0 ∧ e.prio = true then bg else 16 + pixel e
    let index := if 16 ≤ colour ∧ colour % 4 = 0 then colour - 16 else colour
    q.back = Memory.write p.back (q.scanline * 256 + x) ((Memory.read s.bus.pal index).setWidth 6) ∧
    (q.spr0Hit = true ↔ p.spr0Hit = true ∨ (bg % 4 ≠ 0 ∧ x < 255 ∧ ∃ e, sprite = some e ∧ e.idx = 0))) ∧
  (∀ s : State,
    let p := s.ppu
    let q := (ppuStep s).ppu
    (¬(p.rendering = true ∧ 1 ≤ q.dot ∧ q.dot ≤ 256 ∧ q.scanline < 240) →
      (¬(q.dot = 1 ∧ q.scanline = 241) → q.back = p.back) ∧ (q.dot = 1 → q.scanline = 241 → q.back = p.front) ∧
      (¬(q.dot = 1 ∧ q.scanline = 261) → q.spr0Hit = p.spr0Hit)) ∧
    (p.rendering = false → q.v = p.v ∧ q.tileData = p.tileData ∧ q.sprites = p.sprites ∧ q.sprCount = p.sprCount ∧
      (¬(q.dot = 1 ∧ q.scanline = 261) → q.sprOverflow = p.sprOverflow)) ∧
    (q.ctrl = p.ctrl ∧ q.mask = p.mask ∧ q.t = p.t ∧ q.x = p.x ∧ q.w = p.w ∧ q.oam = p.oam ∧ q.oamAddr = p.oamAddr ∧
      q.readBuffer = p.readBuffer ∧ q.regLatch = p.regLatch))

/-! ## The invariant -/

/-- Every step keeps the invariant (R14, R24, R26, R31, R32, R35, R216, R262, and the canonical form of the storages). -/
def Obligations.StepKeepsInvariant : Prop :=
  ∀ s t : State, Inv s → step s = .next t → Inv t

/-- The state after reset meets the invariant. The blank cartridge and the values R36 leaves unspecified are the model's
choice (logs 1, 2, 3). -/
def Obligations.ResetMeetsInvariant : Prop := Inv State.reset
end

