-- ==== Sys2Proof/Laws/State.lean ====
section
/-!
SUPPORT. What every field is after each named update of the state (Machine/Update.lean), and equality of states field
by field. True by definition; later proofs use these and unfold no record update.
-/

namespace Sys2Proof.Machine

@[simp] theorem setA_a (s : State) (v : Byte) : (s.setA v).cpu.a = v := rfl
@[simp] theorem setA_x (s : State) (v : Byte) : (s.setA v).cpu.x = s.cpu.x := rfl
@[simp] theorem setA_y (s : State) (v : Byte) : (s.setA v).cpu.y = s.cpu.y := rfl
@[simp] theorem setA_sp (s : State) (v : Byte) : (s.setA v).cpu.sp = s.cpu.sp := rfl
@[simp] theorem setA_pc (s : State) (v : Byte) : (s.setA v).cpu.pc = s.cpu.pc := rfl
@[simp] theorem setA_p (s : State) (v : Byte) : (s.setA v).cpu.p = s.cpu.p := rfl
@[simp] theorem setA_irqSlot (s : State) (v : Byte) : (s.setA v).cpu.irqSlot = s.cpu.irqSlot := rfl
@[simp] theorem setA_stall (s : State) (v : Byte) : (s.setA v).cpu.stall = s.cpu.stall := rfl
@[simp] theorem setA_cycles (s : State) (v : Byte) : (s.setA v).cpu.cycles = s.cpu.cycles := rfl
@[simp] theorem setA_bus (s : State) (v : Byte) : (s.setA v).bus = s.bus := rfl
@[simp] theorem setA_cart (s : State) (v : Byte) : (s.setA v).cart = s.cart := rfl
@[simp] theorem setA_mapper (s : State) (v : Byte) : (s.setA v).mapper = s.mapper := rfl
@[simp] theorem setA_ppu (s : State) (v : Byte) : (s.setA v).ppu = s.ppu := rfl
@[simp] theorem setA_ext (s : State) (v : Byte) : (s.setA v).ext = s.ext := rfl

@[simp] theorem setX_a (s : State) (v : Byte) : (s.setX v).cpu.a = s.cpu.a := rfl
@[simp] theorem setX_x (s : State) (v : Byte) : (s.setX v).cpu.x = v := rfl
@[simp] theorem setX_y (s : State) (v : Byte) : (s.setX v).cpu.y = s.cpu.y := rfl
@[simp] theorem setX_sp (s : State) (v : Byte) : (s.setX v).cpu.sp = s.cpu.sp := rfl
@[simp] theorem setX_pc (s : State) (v : Byte) : (s.setX v).cpu.pc = s.cpu.pc := rfl
@[simp] theorem setX_p (s : State) (v : Byte) : (s.setX v).cpu.p = s.cpu.p := rfl
@[simp] theorem setX_irqSlot (s : State) (v : Byte) : (s.setX v).cpu.irqSlot = s.cpu.irqSlot := rfl
@[simp] theorem setX_stall (s : State) (v : Byte) : (s.setX v).cpu.stall = s.cpu.stall := rfl
@[simp] theorem setX_cycles (s : State) (v : Byte) : (s.setX v).cpu.cycles = s.cpu.cycles := rfl
@[simp] theorem setX_bus (s : State) (v : Byte) : (s.setX v).bus = s.bus := rfl
@[simp] theorem setX_cart (s : State) (v : Byte) : (s.setX v).cart = s.cart := rfl
@[simp] theorem setX_mapper (s : State) (v : Byte) : (s.setX v).mapper = s.mapper := rfl
@[simp] theorem setX_ppu (s : State) (v : Byte) : (s.setX v).ppu = s.ppu := rfl
@[simp] theorem setX_ext (s : State) (v : Byte) : (s.setX v).ext = s.ext := rfl

@[simp] theorem setY_a (s : State) (v : Byte) : (s.setY v).cpu.a = s.cpu.a := rfl
@[simp] theorem setY_x (s : State) (v : Byte) : (s.setY v).cpu.x = s.cpu.x := rfl
@[simp] theorem setY_y (s : State) (v : Byte) : (s.setY v).cpu.y = v := rfl
@[simp] theorem setY_sp (s : State) (v : Byte) : (s.setY v).cpu.sp = s.cpu.sp := rfl
@[simp] theorem setY_pc (s : State) (v : Byte) : (s.setY v).cpu.pc = s.cpu.pc := rfl
@[simp] theorem setY_p (s : State) (v : Byte) : (s.setY v).cpu.p = s.cpu.p := rfl
@[simp] theorem setY_irqSlot (s : State) (v : Byte) : (s.setY v).cpu.irqSlot = s.cpu.irqSlot := rfl
@[simp] theorem setY_stall (s : State) (v : Byte) : (s.setY v).cpu.stall = s.cpu.stall := rfl
@[simp] theorem setY_cycles (s : State) (v : Byte) : (s.setY v).cpu.cycles = s.cpu.cycles := rfl
@[simp] theorem setY_bus (s : State) (v : Byte) : (s.setY v).bus = s.bus := rfl
@[simp] theorem setY_cart (s : State) (v : Byte) : (s.setY v).cart = s.cart := rfl
@[simp] theorem setY_mapper (s : State) (v : Byte) : (s.setY v).mapper = s.mapper := rfl
@[simp] theorem setY_ppu (s : State) (v : Byte) : (s.setY v).ppu = s.ppu := rfl
@[simp] theorem setY_ext (s : State) (v : Byte) : (s.setY v).ext = s.ext := rfl

@[simp] theorem setSp_a (s : State) (v : Byte) : (s.setSp v).cpu.a = s.cpu.a := rfl
@[simp] theorem setSp_x (s : State) (v : Byte) : (s.setSp v).cpu.x = s.cpu.x := rfl
@[simp] theorem setSp_y (s : State) (v : Byte) : (s.setSp v).cpu.y = s.cpu.y := rfl
@[simp] theorem setSp_sp (s : State) (v : Byte) : (s.setSp v).cpu.sp = v := rfl
@[simp] theorem setSp_pc (s : State) (v : Byte) : (s.setSp v).cpu.pc = s.cpu.pc := rfl
@[simp] theorem setSp_p (s : State) (v : Byte) : (s.setSp v).cpu.p = s.cpu.p := rfl
@[simp] theorem setSp_irqSlot (s : State) (v : Byte) : (s.setSp v).cpu.irqSlot = s.cpu.irqSlot := rfl
@[simp] theorem setSp_stall (s : State) (v : Byte) : (s.setSp v).cpu.stall = s.cpu.stall := rfl
@[simp] theorem setSp_cycles (s : State) (v : Byte) : (s.setSp v).cpu.cycles = s.cpu.cycles := rfl
@[simp] theorem setSp_bus (s : State) (v : Byte) : (s.setSp v).bus = s.bus := rfl
@[simp] theorem setSp_cart (s : State) (v : Byte) : (s.setSp v).cart = s.cart := rfl
@[simp] theorem setSp_mapper (s : State) (v : Byte) : (s.setSp v).mapper = s.mapper := rfl
@[simp] theorem setSp_ppu (s : State) (v : Byte) : (s.setSp v).ppu = s.ppu := rfl
@[simp] theorem setSp_ext (s : State) (v : Byte) : (s.setSp v).ext = s.ext := rfl

@[simp] theorem setPc_a (s : State) (v : Word) : (s.setPc v).cpu.a = s.cpu.a := rfl
@[simp] theorem setPc_x (s : State) (v : Word) : (s.setPc v).cpu.x = s.cpu.x := rfl
@[simp] theorem setPc_y (s : State) (v : Word) : (s.setPc v).cpu.y = s.cpu.y := rfl
@[simp] theorem setPc_sp (s : State) (v : Word) : (s.setPc v).cpu.sp = s.cpu.sp := rfl
@[simp] theorem setPc_pc (s : State) (v : Word) : (s.setPc v).cpu.pc = v := rfl
@[simp] theorem setPc_p (s : State) (v : Word) : (s.setPc v).cpu.p = s.cpu.p := rfl
@[simp] theorem setPc_irqSlot (s : State) (v : Word) : (s.setPc v).cpu.irqSlot = s.cpu.irqSlot := rfl
@[simp] theorem setPc_stall (s : State) (v : Word) : (s.setPc v).cpu.stall = s.cpu.stall := rfl
@[simp] theorem setPc_cycles (s : State) (v : Word) : (s.setPc v).cpu.cycles = s.cpu.cycles := rfl
@[simp] theorem setPc_bus (s : State) (v : Word) : (s.setPc v).bus = s.bus := rfl
@[simp] theorem setPc_cart (s : State) (v : Word) : (s.setPc v).cart = s.cart := rfl
@[simp] theorem setPc_mapper (s : State) (v : Word) : (s.setPc v).mapper = s.mapper := rfl
@[simp] theorem setPc_ppu (s : State) (v : Word) : (s.setPc v).ppu = s.ppu := rfl
@[simp] theorem setPc_ext (s : State) (v : Word) : (s.setPc v).ext = s.ext := rfl

@[simp] theorem setP_a (s : State) (v : Byte) : (s.setP v).cpu.a = s.cpu.a := rfl
@[simp] theorem setP_x (s : State) (v : Byte) : (s.setP v).cpu.x = s.cpu.x := rfl
@[simp] theorem setP_y (s : State) (v : Byte) : (s.setP v).cpu.y = s.cpu.y := rfl
@[simp] theorem setP_sp (s : State) (v : Byte) : (s.setP v).cpu.sp = s.cpu.sp := rfl
@[simp] theorem setP_pc (s : State) (v : Byte) : (s.setP v).cpu.pc = s.cpu.pc := rfl
@[simp] theorem setP_p (s : State) (v : Byte) : (s.setP v).cpu.p = v := rfl
@[simp] theorem setP_irqSlot (s : State) (v : Byte) : (s.setP v).cpu.irqSlot = s.cpu.irqSlot := rfl
@[simp] theorem setP_stall (s : State) (v : Byte) : (s.setP v).cpu.stall = s.cpu.stall := rfl
@[simp] theorem setP_cycles (s : State) (v : Byte) : (s.setP v).cpu.cycles = s.cpu.cycles := rfl
@[simp] theorem setP_bus (s : State) (v : Byte) : (s.setP v).bus = s.bus := rfl
@[simp] theorem setP_cart (s : State) (v : Byte) : (s.setP v).cart = s.cart := rfl
@[simp] theorem setP_mapper (s : State) (v : Byte) : (s.setP v).mapper = s.mapper := rfl
@[simp] theorem setP_ppu (s : State) (v : Byte) : (s.setP v).ppu = s.ppu := rfl
@[simp] theorem setP_ext (s : State) (v : Byte) : (s.setP v).ext = s.ext := rfl

@[simp] theorem setSlot_a (s : State) (v : IrqSlot) : (s.setSlot v).cpu.a = s.cpu.a := rfl
@[simp] theorem setSlot_x (s : State) (v : IrqSlot) : (s.setSlot v).cpu.x = s.cpu.x := rfl
@[simp] theorem setSlot_y (s : State) (v : IrqSlot) : (s.setSlot v).cpu.y = s.cpu.y := rfl
@[simp] theorem setSlot_sp (s : State) (v : IrqSlot) : (s.setSlot v).cpu.sp = s.cpu.sp := rfl
@[simp] theorem setSlot_pc (s : State) (v : IrqSlot) : (s.setSlot v).cpu.pc = s.cpu.pc := rfl
@[simp] theorem setSlot_p (s : State) (v : IrqSlot) : (s.setSlot v).cpu.p = s.cpu.p := rfl
@[simp] theorem setSlot_irqSlot (s : State) (v : IrqSlot) : (s.setSlot v).cpu.irqSlot = v := rfl
@[simp] theorem setSlot_stall (s : State) (v : IrqSlot) : (s.setSlot v).cpu.stall = s.cpu.stall := rfl
@[simp] theorem setSlot_cycles (s : State) (v : IrqSlot) : (s.setSlot v).cpu.cycles = s.cpu.cycles := rfl
@[simp] theorem setSlot_bus (s : State) (v : IrqSlot) : (s.setSlot v).bus = s.bus := rfl
@[simp] theorem setSlot_cart (s : State) (v : IrqSlot) : (s.setSlot v).cart = s.cart := rfl
@[simp] theorem setSlot_mapper (s : State) (v : IrqSlot) : (s.setSlot v).mapper = s.mapper := rfl
@[simp] theorem setSlot_ppu (s : State) (v : IrqSlot) : (s.setSlot v).ppu = s.ppu := rfl
@[simp] theorem setSlot_ext (s : State) (v : IrqSlot) : (s.setSlot v).ext = s.ext := rfl

@[simp] theorem setStall_a (s : State) (v : Nat) : (s.setStall v).cpu.a = s.cpu.a := rfl
@[simp] theorem setStall_x (s : State) (v : Nat) : (s.setStall v).cpu.x = s.cpu.x := rfl
@[simp] theorem setStall_y (s : State) (v : Nat) : (s.setStall v).cpu.y = s.cpu.y := rfl
@[simp] theorem setStall_sp (s : State) (v : Nat) : (s.setStall v).cpu.sp = s.cpu.sp := rfl
@[simp] theorem setStall_pc (s : State) (v : Nat) : (s.setStall v).cpu.pc = s.cpu.pc := rfl
@[simp] theorem setStall_p (s : State) (v : Nat) : (s.setStall v).cpu.p = s.cpu.p := rfl
@[simp] theorem setStall_irqSlot (s : State) (v : Nat) : (s.setStall v).cpu.irqSlot = s.cpu.irqSlot := rfl
@[simp] theorem setStall_stall (s : State) (v : Nat) : (s.setStall v).cpu.stall = v := rfl
@[simp] theorem setStall_cycles (s : State) (v : Nat) : (s.setStall v).cpu.cycles = s.cpu.cycles := rfl
@[simp] theorem setStall_bus (s : State) (v : Nat) : (s.setStall v).bus = s.bus := rfl
@[simp] theorem setStall_cart (s : State) (v : Nat) : (s.setStall v).cart = s.cart := rfl
@[simp] theorem setStall_mapper (s : State) (v : Nat) : (s.setStall v).mapper = s.mapper := rfl
@[simp] theorem setStall_ppu (s : State) (v : Nat) : (s.setStall v).ppu = s.ppu := rfl
@[simp] theorem setStall_ext (s : State) (v : Nat) : (s.setStall v).ext = s.ext := rfl

@[simp] theorem charge_a (s : State) (n : Nat) : (s.charge n).cpu.a = s.cpu.a := rfl
@[simp] theorem charge_x (s : State) (n : Nat) : (s.charge n).cpu.x = s.cpu.x := rfl
@[simp] theorem charge_y (s : State) (n : Nat) : (s.charge n).cpu.y = s.cpu.y := rfl
@[simp] theorem charge_sp (s : State) (n : Nat) : (s.charge n).cpu.sp = s.cpu.sp := rfl
@[simp] theorem charge_pc (s : State) (n : Nat) : (s.charge n).cpu.pc = s.cpu.pc := rfl
@[simp] theorem charge_p (s : State) (n : Nat) : (s.charge n).cpu.p = s.cpu.p := rfl
@[simp] theorem charge_irqSlot (s : State) (n : Nat) : (s.charge n).cpu.irqSlot = s.cpu.irqSlot := rfl
@[simp] theorem charge_stall (s : State) (n : Nat) : (s.charge n).cpu.stall = s.cpu.stall := rfl
@[simp] theorem charge_cycles (s : State) (n : Nat) : (s.charge n).cpu.cycles = s.cpu.cycles + n := rfl
@[simp] theorem charge_bus (s : State) (n : Nat) : (s.charge n).bus = s.bus := rfl
@[simp] theorem charge_cart (s : State) (n : Nat) : (s.charge n).cart = s.cart := rfl
@[simp] theorem charge_mapper (s : State) (n : Nat) : (s.charge n).mapper = s.mapper := rfl
@[simp] theorem charge_ppu (s : State) (n : Nat) : (s.charge n).ppu = s.ppu := rfl
@[simp] theorem charge_ext (s : State) (n : Nat) : (s.charge n).ext = s.ext := rfl

@[simp] theorem setBus_cpu (s : State) (v : Bus) : (s.setBus v).cpu = s.cpu := rfl
@[simp] theorem setBus_bus (s : State) (v : Bus) : (s.setBus v).bus = v := rfl
@[simp] theorem setBus_cart (s : State) (v : Bus) : (s.setBus v).cart = s.cart := rfl
@[simp] theorem setBus_mapper (s : State) (v : Bus) : (s.setBus v).mapper = s.mapper := rfl
@[simp] theorem setBus_ppu (s : State) (v : Bus) : (s.setBus v).ppu = s.ppu := rfl
@[simp] theorem setBus_ext (s : State) (v : Bus) : (s.setBus v).ext = s.ext := rfl

@[simp] theorem setCart_cpu (s : State) (v : Cartridge) : (s.setCart v).cpu = s.cpu := rfl
@[simp] theorem setCart_bus (s : State) (v : Cartridge) : (s.setCart v).bus = s.bus := rfl
@[simp] theorem setCart_cart (s : State) (v : Cartridge) : (s.setCart v).cart = v := rfl
@[simp] theorem setCart_mapper (s : State) (v : Cartridge) : (s.setCart v).mapper = s.mapper := rfl
@[simp] theorem setCart_ppu (s : State) (v : Cartridge) : (s.setCart v).ppu = s.ppu := rfl
@[simp] theorem setCart_ext (s : State) (v : Cartridge) : (s.setCart v).ext = s.ext := rfl

@[simp] theorem setMapper_cpu (s : State) (v : Mapper) : (s.setMapper v).cpu = s.cpu := rfl
@[simp] theorem setMapper_bus (s : State) (v : Mapper) : (s.setMapper v).bus = s.bus := rfl
@[simp] theorem setMapper_cart (s : State) (v : Mapper) : (s.setMapper v).cart = s.cart := rfl
@[simp] theorem setMapper_mapper (s : State) (v : Mapper) : (s.setMapper v).mapper = v := rfl
@[simp] theorem setMapper_ppu (s : State) (v : Mapper) : (s.setMapper v).ppu = s.ppu := rfl
@[simp] theorem setMapper_ext (s : State) (v : Mapper) : (s.setMapper v).ext = s.ext := rfl

@[simp] theorem setPpu_cpu (s : State) (v : Ppu) : (s.setPpu v).cpu = s.cpu := rfl
@[simp] theorem setPpu_bus (s : State) (v : Ppu) : (s.setPpu v).bus = s.bus := rfl
@[simp] theorem setPpu_cart (s : State) (v : Ppu) : (s.setPpu v).cart = s.cart := rfl
@[simp] theorem setPpu_mapper (s : State) (v : Ppu) : (s.setPpu v).mapper = s.mapper := rfl
@[simp] theorem setPpu_ppu (s : State) (v : Ppu) : (s.setPpu v).ppu = v := rfl
@[simp] theorem setPpu_ext (s : State) (v : Ppu) : (s.setPpu v).ext = s.ext := rfl

@[simp] theorem setExt_cpu (s : State) (v : Ext) : (s.setExt v).cpu = s.cpu := rfl
@[simp] theorem setExt_bus (s : State) (v : Ext) : (s.setExt v).bus = s.bus := rfl
@[simp] theorem setExt_cart (s : State) (v : Ext) : (s.setExt v).cart = s.cart := rfl
@[simp] theorem setExt_mapper (s : State) (v : Ext) : (s.setExt v).mapper = s.mapper := rfl
@[simp] theorem setExt_ppu (s : State) (v : Ext) : (s.setExt v).ppu = s.ppu := rfl
@[simp] theorem setExt_ext (s : State) (v : Ext) : (s.setExt v).ext = v := rfl

@[simp] theorem setFlag_a (s : State) (f : Flag) (b : Bool) : (s.setFlag f b).cpu.a = s.cpu.a := rfl
@[simp] theorem setFlag_x (s : State) (f : Flag) (b : Bool) : (s.setFlag f b).cpu.x = s.cpu.x := rfl
@[simp] theorem setFlag_y (s : State) (f : Flag) (b : Bool) : (s.setFlag f b).cpu.y = s.cpu.y := rfl
@[simp] theorem setFlag_sp (s : State) (f : Flag) (b : Bool) : (s.setFlag f b).cpu.sp = s.cpu.sp := rfl
@[simp] theorem setFlag_pc (s : State) (f : Flag) (b : Bool) : (s.setFlag f b).cpu.pc = s.cpu.pc := rfl
@[simp] theorem setFlag_p (s : State) (f : Flag) (b : Bool) : (s.setFlag f b).cpu.p = putFlag f b s.cpu.p := rfl
@[simp] theorem setFlag_irqSlot (s : State) (f : Flag) (b : Bool) : (s.setFlag f b).cpu.irqSlot = s.cpu.irqSlot := rfl
@[simp] theorem setFlag_stall (s : State) (f : Flag) (b : Bool) : (s.setFlag f b).cpu.stall = s.cpu.stall := rfl
@[simp] theorem setFlag_cycles (s : State) (f : Flag) (b : Bool) : (s.setFlag f b).cpu.cycles = s.cpu.cycles := rfl
@[simp] theorem setFlag_bus (s : State) (f : Flag) (b : Bool) : (s.setFlag f b).bus = s.bus := rfl
@[simp] theorem setFlag_cart (s : State) (f : Flag) (b : Bool) : (s.setFlag f b).cart = s.cart := rfl
@[simp] theorem setFlag_mapper (s : State) (f : Flag) (b : Bool) : (s.setFlag f b).mapper = s.mapper := rfl
@[simp] theorem setFlag_ppu (s : State) (f : Flag) (b : Bool) : (s.setFlag f b).ppu = s.ppu := rfl
@[simp] theorem setFlag_ext (s : State) (f : Flag) (b : Bool) : (s.setFlag f b).ext = s.ext := rfl
@[simp] theorem setZN_a (s : State) (v : Byte) : (s.setZN v).cpu.a = s.cpu.a := rfl
@[simp] theorem setZN_x (s : State) (v : Byte) : (s.setZN v).cpu.x = s.cpu.x := rfl
@[simp] theorem setZN_y (s : State) (v : Byte) : (s.setZN v).cpu.y = s.cpu.y := rfl
@[simp] theorem setZN_sp (s : State) (v : Byte) : (s.setZN v).cpu.sp = s.cpu.sp := rfl
@[simp] theorem setZN_pc (s : State) (v : Byte) : (s.setZN v).cpu.pc = s.cpu.pc := rfl
@[simp] theorem setZN_p (s : State) (v : Byte) : (s.setZN v).cpu.p = putZN v s.cpu.p := rfl
@[simp] theorem setZN_irqSlot (s : State) (v : Byte) : (s.setZN v).cpu.irqSlot = s.cpu.irqSlot := rfl
@[simp] theorem setZN_stall (s : State) (v : Byte) : (s.setZN v).cpu.stall = s.cpu.stall := rfl
@[simp] theorem setZN_cycles (s : State) (v : Byte) : (s.setZN v).cpu.cycles = s.cpu.cycles := rfl
@[simp] theorem setZN_bus (s : State) (v : Byte) : (s.setZN v).bus = s.bus := rfl
@[simp] theorem setZN_cart (s : State) (v : Byte) : (s.setZN v).cart = s.cart := rfl
@[simp] theorem setZN_mapper (s : State) (v : Byte) : (s.setZN v).mapper = s.mapper := rfl
@[simp] theorem setZN_ppu (s : State) (v : Byte) : (s.setZN v).ppu = s.ppu := rfl
@[simp] theorem setZN_ext (s : State) (v : Byte) : (s.setZN v).ext = s.ext := rfl

/-- Two states with equal blocks are equal. -/
theorem State.eq_of_blocks {s t : State} (hcpu : s.cpu = t.cpu) (hbus : s.bus = t.bus) (hcart : s.cart = t.cart)
    (hmapper : s.mapper = t.mapper) (hppu : s.ppu = t.ppu) (hext : s.ext = t.ext) : s = t := by
  cases s; cases t; simp_all

/-- Two CPU states with equal registers are equal. -/
theorem Cpu.eq_of_fields {c d : Cpu} (ha : c.a = d.a) (hx : c.x = d.x) (hy : c.y = d.y) (hsp : c.sp = d.sp)
    (hpc : c.pc = d.pc) (hp : c.p = d.p) (hslot : c.irqSlot = d.irqSlot) (hstall : c.stall = d.stall)
    (hcycles : c.cycles = d.cycles) : c = d := by
  cases c; cases d; simp_all

end Sys2Proof.Machine
end

