-- ==== Sys2Proof/Laws/Memory.lean ====
section
/-!
SUPPORT. The sparse storages: a read after a write, and that a write keeps the canonical form and the bounds (log 2).
-/

namespace Sys2Proof.Machine

theorem Memory.read_erase {w : Nat} (m : Memory w) (k j : Nat) :
    Memory.read (Memory.erase m k) j = if j = k then 0 else Memory.read m j := by
  induction m with
  | nil => simp [Memory.erase, Memory.read]
  | cons c r ih =>
    obtain ⟨i, u⟩ := c
    by_cases hik : i = k
    · by_cases hjk : j = k
      · simpa [Memory.erase, hik, hjk] using ih
      · simp [Memory.erase, hik, ih, hjk, Memory.read, Ne.symm hjk]
    · by_cases hij : i = j
      · subst hij; simp [Memory.erase, hik, Memory.read]
      · simp [Memory.erase, hik, Memory.read, hij, ih]

theorem Memory.read_insert_erase {w : Nat} (m : Memory w) (k j : Nat) (u : BitVec w) :
    Memory.read (Memory.insert (Memory.erase m k) k u) j = if j = k then u else Memory.read m j := by
  induction m with
  | nil => by_cases hjk : k = j <;> simp [Memory.erase, Memory.insert, Memory.read, hjk, eq_comm]
  | cons c r ih =>
    obtain ⟨i, v⟩ := c
    by_cases hik : i = k
    · by_cases hjk : j = k
      · simpa [Memory.erase, hik, hjk] using ih
      · simp [Memory.erase, hik, ih, hjk, Memory.read, Ne.symm hjk]
    · by_cases hle : k ≤ i
      · have he := Memory.read_erase r k j
        by_cases hjk : j = k
        · simp [Memory.erase, hik, Memory.insert, hle, Memory.read, hjk]
        · simp [Memory.erase, hik, Memory.insert, hle, Memory.read, hjk, Ne.symm hjk, he]
      · by_cases hij : i = j
        · subst hij; simp [Memory.erase, hik, Memory.insert, hle, Memory.read]
        · simp [Memory.erase, hik, Memory.insert, hle, Memory.read, hij, ih]

/-- A read after a write: the value at the index written, the old contents elsewhere. -/
theorem Memory.read_write {w : Nat} (m : Memory w) (k j : Nat) (u : BitVec w) :
    Memory.read (Memory.write m k u) j = if j = k then u else Memory.read m j := by
  unfold Memory.write
  split
  · rename_i hu; rw [Memory.read_erase]; simp [hu]
  · exact Memory.read_insert_erase m k j u

@[simp] theorem Memory.read_write_same {w : Nat} (m : Memory w) (k : Nat) (u : BitVec w) :
    Memory.read (Memory.write m k u) k = u := by simp [Memory.read_write]

theorem Memory.read_write_other {w : Nat} (m : Memory w) {k j : Nat} (u : BitVec w) (h : j ≠ k) :
    Memory.read (Memory.write m k u) j = Memory.read m j := by simp [Memory.read_write, h]

theorem Memory.risesFrom_mono {w : Nat} {lo lo' : Nat} {m : Memory w} (h : Memory.risesFrom lo' m = true)
    (hle : lo ≤ lo') : Memory.risesFrom lo m = true := by
  cases m with
  | nil => rfl
  | cons c r =>
    obtain ⟨i, u⟩ := c
    simp only [Memory.risesFrom, Bool.and_eq_true, decide_eq_true_eq] at h ⊢
    exact ⟨⟨by omega, h.1.2⟩, h.2⟩

theorem Memory.risesFrom_erase {w : Nat} (m : Memory w) (lo k : Nat) (h : Memory.risesFrom lo m = true) :
    Memory.risesFrom lo (Memory.erase m k) = true := by
  induction m generalizing lo with
  | nil => rfl
  | cons c r ih =>
    obtain ⟨i, u⟩ := c
    simp only [Memory.risesFrom, Bool.and_eq_true, decide_eq_true_eq] at h
    by_cases hik : i = k
    · simp only [Memory.erase, hik, if_true]
      exact ih _ (Memory.risesFrom_mono h.2 (by omega))
    · simp only [Memory.erase, hik, if_false, Memory.risesFrom, Bool.and_eq_true, decide_eq_true_eq]
      exact ⟨h.1, ih _ h.2⟩

theorem Memory.risesFrom_insert {w : Nat} (m : Memory w) (lo k : Nat) (u : BitVec w)
    (h : Memory.risesFrom lo m = true) (hlo : lo ≤ k) (hu : u ≠ 0) :
    Memory.risesFrom lo (Memory.insert (Memory.erase m k) k u) = true := by
  induction m generalizing lo with
  | nil => simpa [Memory.erase, Memory.insert, Memory.risesFrom, hlo] using hu
  | cons c r ih =>
    obtain ⟨i, v⟩ := c
    simp only [Memory.risesFrom, Bool.and_eq_true, decide_eq_true_eq] at h
    by_cases hik : i = k
    · simp only [Memory.erase, hik, if_true]
      exact ih _ (Memory.risesFrom_mono h.2 (by omega)) hlo
    · by_cases hle : k ≤ i
      · simp only [Memory.erase, hik, if_false, Memory.insert, hle, if_true, Memory.risesFrom, Bool.and_eq_true,
          decide_eq_true_eq]
        exact ⟨⟨hlo, hu⟩, ⟨⟨by omega, h.1.2⟩, Memory.risesFrom_erase r _ k h.2⟩⟩
      · simp only [Memory.erase, hik, if_false, Memory.insert, hle, Memory.risesFrom, Bool.and_eq_true,
          decide_eq_true_eq]
        exact ⟨h.1, ih _ h.2 (by omega)⟩

/-- A write keeps the canonical form. -/
theorem Memory.wf_write {w : Nat} {m : Memory w} (k : Nat) (u : BitVec w) (h : Memory.wf m = true) :
    Memory.wf (Memory.write m k u) = true := by
  unfold Memory.wf Memory.write at *
  split
  · exact Memory.risesFrom_erase m 0 k h
  · rename_i hu; exact Memory.risesFrom_insert m 0 k u h (Nat.zero_le k) hu

theorem Memory.within_erase {w : Nat} {size : Nat} {m : Memory w} (k : Nat) (h : Memory.within size m = true) :
    Memory.within size (Memory.erase m k) = true := by
  induction m with
  | nil => rfl
  | cons c r ih =>
    obtain ⟨i, u⟩ := c
    simp only [Memory.within, List.all_cons, Bool.and_eq_true] at h ih ⊢
    by_cases hik : i = k
    · simpa [Memory.erase, hik] using ih h.2
    · simp only [Memory.erase, hik, if_false, List.all_cons, Bool.and_eq_true]
      exact ⟨h.1, ih h.2⟩

theorem Memory.within_insert {w : Nat} {size : Nat} {m : Memory w} {k : Nat} (u : BitVec w)
    (h : Memory.within size m = true) (hk : k < size) : Memory.within size (Memory.insert m k u) = true := by
  induction m with
  | nil => simp [Memory.insert, Memory.within, hk]
  | cons c r ih =>
    obtain ⟨i, v⟩ := c
    simp only [Memory.within, List.all_cons, Bool.and_eq_true] at h ih
    unfold Memory.insert
    split
    · simp only [Memory.within, List.all_cons, Bool.and_eq_true, decide_eq_true_eq]
      exact ⟨hk, by simpa using h.1, h.2⟩
    · simp only [Memory.within, List.all_cons, Bool.and_eq_true]
      exact ⟨h.1, ih h.2⟩

/-- A write below the size keeps the storage within its size. -/
theorem Memory.within_write {w : Nat} {size : Nat} {m : Memory w} {k : Nat} (u : BitVec w)
    (h : Memory.within size m = true) (hk : k < size) : Memory.within size (Memory.write m k u) = true := by
  unfold Memory.write
  split
  · exact Memory.within_erase k h
  · exact Memory.within_insert u (Memory.within_erase k h) hk

/-- A write below the size keeps a storage in form. -/
theorem Memory.Ok.write {w : Nat} {size : Nat} {m : Memory w} {k : Nat} (h : Memory.Ok size m) (hk : k < size)
    (u : BitVec w) : Memory.Ok size (Memory.write m k u) :=
  ⟨Memory.wf_write k u h.wf, Memory.within_write u h.within hk⟩

/-- Nothing listed is in form: every storage of `State.reset` is. -/
theorem Memory.ok_nil {w : Nat} (size : Nat) : Memory.Ok size ([] : Memory w) := ⟨rfl, rfl⟩

theorem Memory.read_lt {w : Nat} (m : Memory w) (lo k : Nat) (h : Memory.risesFrom lo m = true) (hk : k < lo) :
    Memory.read m k = 0 := by
  induction m generalizing lo with
  | nil => rfl
  | cons c r ih =>
    obtain ⟨i, u⟩ := c
    simp only [Memory.risesFrom, Bool.and_eq_true, decide_eq_true_eq] at h
    have hik : i ≠ k := by omega
    simp only [Memory.read, hik, if_false]
    exact ih _ h.2 (by omega)

theorem Memory.eq_of_read {w : Nat} (m n : Memory w) (lo : Nat) (hm : Memory.risesFrom lo m = true)
    (hn : Memory.risesFrom lo n = true) (h : ∀ k, Memory.read m k = Memory.read n k) : m = n := by
  induction m generalizing n lo with
  | nil =>
    cases n with
    | nil => rfl
    | cons c r =>
      obtain ⟨i, u⟩ := c
      simp only [Memory.risesFrom, Bool.and_eq_true, decide_eq_true_eq] at hn
      have := h i
      simp [Memory.read] at this
      exact absurd this.symm hn.1.2
  | cons c r ih =>
    obtain ⟨i, u⟩ := c
    simp only [Memory.risesFrom, Bool.and_eq_true, decide_eq_true_eq] at hm
    cases n with
    | nil =>
      have := h i
      simp [Memory.read] at this
      exact absurd this hm.1.2
    | cons d q =>
      obtain ⟨j, v⟩ := d
      simp only [Memory.risesFrom, Bool.and_eq_true, decide_eq_true_eq] at hn
      have hij : i = j := by
        by_contra hne
        rcases Nat.lt_or_gt_of_ne hne with hlt | hgt
        · have := h i
          simp only [Memory.read, if_true, Ne.symm hne, if_false] at this
          rw [Memory.read_lt q (j + 1) i hn.2 (by omega)] at this
          exact hm.1.2 this
        · have := h j
          simp only [Memory.read, if_true, hne, if_false] at this
          rw [Memory.read_lt r (i + 1) j hm.2 (by omega)] at this
          exact hn.1.2 this.symm
      subst hij
      have huv : u = v := by simpa [Memory.read] using h i
      subst huv
      congr 1
      refine ih q (i + 1) hm.2 hn.2 fun k => ?_
      by_cases hk : i = k
      · subst hk
        rw [Memory.read_lt r _ _ hm.2 (by omega), Memory.read_lt q _ _ hn.2 (by omega)]
      · simpa [Memory.read, hk] using h k

/-- Equal contents are equal data (the canonical form is unique). -/
theorem Memory.eq_of_wf {w : Nat} {m n : Memory w} (hm : Memory.wf m = true) (hn : Memory.wf n = true)
    (h : ∀ k, Memory.read m k = Memory.read n k) : m = n := Memory.eq_of_read m n 0 hm hn h

end Sys2Proof.Machine
end

