-- ==== Sys2Proof/Laws/Access.lean ====
section
/-!
SUPPORT. What a one-byte read and a one-byte write of CPU space can change (R44, R45, R51, R63, R71, R72): the lemmas
later proofs cite instead of unfolding the bus.
-/

namespace Sys2Proof.Machine

/-! ## Reads -/

/-- What a read may change in the Picture Engine: the latch, the toggle, the edge detector, the read buffer and `v`. -/
structure SamePpuButReads (p q : Ppu) : Prop where
  oam : q.oam = p.oam
  dot : q.dot = p.dot
  scanline : q.scanline = p.scanline
  frame : q.frame = p.frame
  ctrl : q.ctrl = p.ctrl
  mask : q.mask = p.mask
  t : q.t = p.t
  x : q.x = p.x
  oamAddr : q.oamAddr = p.oamAddr
  regLatch : q.regLatch = p.regLatch
  sprOverflow : q.sprOverflow = p.sprOverflow
  spr0Hit : q.spr0Hit = p.spr0Hit
  sprCount : q.sprCount = p.sprCount
  sprites : q.sprites = p.sprites
  front : q.front = p.front
  back : q.back = p.back

theorem SamePpuButReads.rfl {p : Ppu} : SamePpuButReads p p := by constructor <;> exact Eq.refl _

theorem ppuRegRead_ppu (s : State) (r : PicReg) : SamePpuButReads s.ppu (ppuRegRead s r).2.ppu := by
  cases r <;> constructor <;> rfl

theorem ppuRegRead_else (s : State) (r : PicReg) :
    (ppuRegRead s r).2.cpu = s.cpu ∧ (ppuRegRead s r).2.bus = s.bus ∧ (ppuRegRead s r).2.cart = s.cart ∧
    (ppuRegRead s r).2.mapper = s.mapper ∧ (ppuRegRead s r).2.ext = s.ext := by
  cases r <;> exact ⟨rfl, rfl, rfl, rfl, rfl⟩

@[simp] theorem memRead_cpu (s : State) (a : Word) : (memRead s a).2.cpu = s.cpu := by
  unfold memRead; dsimp only; split_ifs <;> first | rfl | exact (ppuRegRead_else s _).1

@[simp] theorem memRead_cart (s : State) (a : Word) : (memRead s a).2.cart = s.cart := by
  unfold memRead; dsimp only; split_ifs <;> first | rfl | exact (ppuRegRead_else s _).2.2.1

@[simp] theorem memRead_mapper (s : State) (a : Word) : (memRead s a).2.mapper = s.mapper := by
  unfold memRead; dsimp only; split_ifs <;> first | rfl | exact (ppuRegRead_else s _).2.2.2.1

@[simp] theorem memRead_ram (s : State) (a : Word) : (memRead s a).2.bus.ram = s.bus.ram := by
  unfold memRead; dsimp only; split_ifs <;> first | rfl | rw [(ppuRegRead_else s _).2.1]

@[simp] theorem memRead_nt (s : State) (a : Word) : (memRead s a).2.bus.nt = s.bus.nt := by
  unfold memRead; dsimp only; split_ifs <;> first | rfl | rw [(ppuRegRead_else s _).2.1]

@[simp] theorem memRead_pal (s : State) (a : Word) : (memRead s a).2.bus.pal = s.bus.pal := by
  unfold memRead; dsimp only; split_ifs <;> first | rfl | rw [(ppuRegRead_else s _).2.1]

theorem memRead_ppu (s : State) (a : Word) : SamePpuButReads s.ppu (memRead s a).2.ppu := by
  unfold memRead; dsimp only; split_ifs <;> first | exact SamePpuButReads.rfl | exact ppuRegRead_ppu s _

@[simp] theorem memRead_oam (s : State) (a : Word) : (memRead s a).2.ppu.oam = s.ppu.oam := (memRead_ppu s a).oam

@[simp] theorem memRead_mirror (s : State) (a : Word) : (memRead s a).2.mirror = s.mirror := by
  simp [State.mirror]

/-- A read of a quiet address changes nothing (R63). -/
theorem memRead_quiet {s : State} {a : Word} (h : quiet a = true) : (memRead s a).2 = s := by
  unfold quiet at h
  simp only [Bool.or_eq_true, Bool.and_eq_true, decide_eq_true_eq, bne_iff_ne, ne_eq, beq_iff_eq] at h
  unfold memRead
  dsimp only
  split_ifs with h1 h2 h3 h4 h5 h6 h7 h8
  · rfl
  · have hr : (a.setWidth 3).toNat = a.toNat % 8 := by simp [BitVec.toNat_setWidth]
    rcases h with ((h | h) | h) | h
    · omega
    · unfold picReg
      rw [hr]
      have hlt : a.toNat % 8 < 8 := Nat.mod_lt _ (by decide)
      generalize a.toNat % 8 = n at *
      have hn : n = 0 ∨ n = 1 ∨ n = 3 ∨ n = 4 ∨ n = 5 ∨ n = 6 := by omega
      rcases hn with rfl | rfl | rfl | rfl | rfl | rfl <;> rfl
    · subst h; simp at h2
    · omega
  · rcases h with ((h | h) | h) | h
    · omega
    · omega
    · subst h; simp at h3
    · omega
  · rfl
  all_goals first | rfl | (exfalso; rcases h with ((h | h) | h) | h <;> first | omega | (subst h; simp at *))

/-- Work RAM reads (R46). -/
theorem memRead_of_ram {s : State} {a : Word} (h : a.toNat < 0x2000) :
    memRead s a = (Memory.read s.bus.ram (a.toNat % Config.ramSize), s) := by
  unfold memRead; simp [h]

/-- A read of an address from 0x6000 up goes to the Mapper. -/
theorem memRead_of_mapper {s : State} {a : Word} (h : 0x6000 ≤ a.toNat) :
    memRead s a = (mapperCpuRead s a, s) := by
  unfold memRead; dsimp only
  repeat rw [if_neg (by omega)]

@[simp] theorem quiet_of_holdsBytes {a : Word} (h : holdsBytes a = true) : quiet a = true := by
  simp only [holdsBytes, Bool.or_eq_true, decide_eq_true_eq] at h
  simp only [quiet, Bool.or_eq_true, decide_eq_true_eq]
  rcases h with h | h
  · exact .inl (.inl (.inl h))
  · exact .inr h

/-- What the mapper answers depends on the cartridge and the mapper state only. -/
theorem mapperCpuRead_congr {s t : State} (a : Word) (hc : t.cart = s.cart) (hm : t.mapper = s.mapper) :
    mapperCpuRead t a = mapperCpuRead s a := by
  unfold mapperCpuRead prgIndex; rw [hc, hm]

/-- A byte of work RAM, save-RAM or PRG depends on RAM, the cartridge and the mapper only. -/
theorem peek_congr {s t : State} {a : Word} (h : holdsBytes a = true) (hr : t.bus.ram = s.bus.ram)
    (hc : t.cart = s.cart) (hm : t.mapper = s.mapper) : peek t a = peek s a := by
  simp only [holdsBytes, Bool.or_eq_true, decide_eq_true_eq] at h
  unfold peek
  rcases h with h | h
  · rw [memRead_of_ram h, memRead_of_ram h, hr]
  · rw [memRead_of_mapper h, memRead_of_mapper h, mapperCpuRead_congr a hc hm]

/-- The CPU registers are not read by the bus. -/
theorem memRead_withCpu (s : State) (c : Cpu) (a : Word) :
    memRead { s with cpu := c } a = ((memRead s a).1, { (memRead s a).2 with cpu := c }) := by
  unfold memRead; dsimp only
  split_ifs <;> first | rfl | (cases picReg a <;> rfl)

@[simp] theorem memRead_setPc (s : State) (v a : Word) :
    memRead (s.setPc v) a = ((memRead s a).1, (memRead s a).2.setPc v) := by
  simp only [State.setPc, memRead_withCpu, memRead_cpu]

@[simp] theorem memRead_setSp (s : State) (v : Byte) (a : Word) :
    memRead (s.setSp v) a = ((memRead s a).1, (memRead s a).2.setSp v) := by
  simp only [State.setSp, memRead_withCpu, memRead_cpu]

@[simp] theorem memRead_setP (s : State) (v : Byte) (a : Word) :
    memRead (s.setP v) a = ((memRead s a).1, (memRead s a).2.setP v) := by
  simp only [State.setP, memRead_withCpu, memRead_cpu]

@[simp] theorem memRead_charge (s : State) (n : Nat) (a : Word) :
    memRead (s.charge n) a = ((memRead s a).1, (memRead s a).2.charge n) := by
  simp only [State.charge, memRead_withCpu, memRead_cpu]

@[simp] theorem memRead_advance (s : State) (n c : Nat) (a : Word) :
    memRead (advance s n c) a = ((memRead s a).1, advance (memRead s a).2 n c) := by
  simp [advance]

@[simp] theorem readPair_cpu (s : State) (lo hi : Word) : (readPair s lo hi).2.cpu = s.cpu := by
  simp [readPair]

@[simp] theorem readPair_cart (s : State) (lo hi : Word) : (readPair s lo hi).2.cart = s.cart := by
  simp [readPair]

@[simp] theorem readPair_mapper (s : State) (lo hi : Word) : (readPair s lo hi).2.mapper = s.mapper := by
  simp [readPair]

@[simp] theorem readPair_ram (s : State) (lo hi : Word) : (readPair s lo hi).2.bus.ram = s.bus.ram := by
  simp [readPair]

/-- Two quiet reads: the two bytes, and nothing changed. -/
theorem readPair_quiet {s : State} {lo hi : Word} (hl : quiet lo = true) (hh : quiet hi = true) :
    readPair s lo hi = (joinBytes (peek s hi) (peek s lo), s) := by
  simp [readPair, memRead_quiet hl, memRead_quiet hh, peek]

/-- The vectors lie in the mapper's window, so reading them changes nothing. -/
theorem read16_vector {s : State} {v : Word} (hl : 0x6000 ≤ v.toNat) (hh : v.toNat < 0xFFFF) :
    read16 s v = (joinBytes (peek s (v + 1)) (peek s v), s) := by
  have h1 : (v + 1).toNat = v.toNat + 1 := by
    rw [BitVec.toNat_add]; simp; omega
  exact readPair_quiet (by simp [quiet]; omega) (by simp [quiet]; omega)

/-! ## Writes -/

/-- Work RAM writes (R46). -/
theorem memWrite_of_ram {s : State} {a : Word} (v : Byte) (h : a.toNat < 0x2000) :
    memWrite s a v = s.setBus { s.bus with ram := Memory.write s.bus.ram (a.toNat % Config.ramSize) v } := by
  unfold memWrite; simp [h]

theorem memWrite_of_mapper {s : State} {a : Word} (v : Byte) (h : 0x6000 ≤ a.toNat) :
    memWrite s a v = mapperCpuWrite s a v := by
  unfold memWrite; dsimp only
  repeat rw [if_neg (by omega)]

theorem ppuWrite_else (s : State) (a : PicAddr) (v : Byte) :
    (ppuWrite s a v).cpu = s.cpu ∧ (ppuWrite s a v).mapper = s.mapper ∧ (ppuWrite s a v).ppu = s.ppu ∧
    (ppuWrite s a v).ext = s.ext ∧ (ppuWrite s a v).bus.ram = s.bus.ram ∧
    (ppuWrite s a v).bus.unmapped = s.bus.unmapped ∧ (ppuWrite s a v).cart.prg = s.cart.prg ∧
    (ppuWrite s a v).cart.sram = s.cart.sram ∧ (ppuWrite s a v).cart.n16 = s.cart.n16 ∧
    (ppuWrite s a v).cart.n4 = s.cart.n4 ∧ (ppuWrite s a v).cart.mirror0 = s.cart.mirror0 := by
  unfold ppuWrite
  split_ifs <;> exact ⟨rfl, rfl, rfl, rfl, rfl, rfl, rfl, rfl, rfl, rfl, rfl⟩

/-- A picture register write: what it never touches. -/
theorem ppuRegWrite_else (s : State) (r : PicReg) (v : Byte) :
    (ppuRegWrite s r v).cpu = s.cpu ∧ (ppuRegWrite s r v).mapper = s.mapper ∧ (ppuRegWrite s r v).ext = s.ext ∧
    (ppuRegWrite s r v).bus.ram = s.bus.ram ∧ (ppuRegWrite s r v).bus.unmapped = s.bus.unmapped ∧
    (ppuRegWrite s r v).cart.prg = s.cart.prg ∧ (ppuRegWrite s r v).cart.sram = s.cart.sram ∧
    (ppuRegWrite s r v).cart.n16 = s.cart.n16 ∧ (ppuRegWrite s r v).cart.n4 = s.cart.n4 ∧
    (ppuRegWrite s r v).cart.mirror0 = s.cart.mirror0 := by
  cases r
  case data =>
    have h := ppuWrite_else (s.latch v) (s.latch v).ppu.dataAddr v
    exact ⟨h.1, h.2.1, h.2.2.2.1, h.2.2.2.2.1, h.2.2.2.2.2.1, h.2.2.2.2.2.2.1, h.2.2.2.2.2.2.2.1,
      h.2.2.2.2.2.2.2.2.1, h.2.2.2.2.2.2.2.2.2.1, h.2.2.2.2.2.2.2.2.2.2⟩
  all_goals exact ⟨rfl, rfl, rfl, rfl, rfl, rfl, rfl, rfl, rfl, rfl⟩

/-- The position of the beam and what only the pipeline writes. -/
structure SamePosition (p q : Ppu) : Prop where
  dot : q.dot = p.dot
  scanline : q.scanline = p.scanline
  frame : q.frame = p.frame
  sprCount : q.sprCount = p.sprCount
  sprites : q.sprites = p.sprites
  atBits : q.atBits = p.atBits
  front : q.front = p.front
  back : q.back = p.back
  ntByte : q.ntByte = p.ntByte
  loTile : q.loTile = p.loTile
  hiTile : q.hiTile = p.hiTile
  tileData : q.tileData = p.tileData
  spr0Hit : q.spr0Hit = p.spr0Hit
  sprOverflow : q.sprOverflow = p.sprOverflow

theorem SamePosition.refl (p : Ppu) : SamePosition p p := by constructor <;> rfl

theorem SamePosition.trans {p q r : Ppu} (h : SamePosition p q) (k : SamePosition q r) : SamePosition p r :=
  ⟨k.dot.trans h.dot, k.scanline.trans h.scanline, k.frame.trans h.frame, k.sprCount.trans h.sprCount,
    k.sprites.trans h.sprites, k.atBits.trans h.atBits, k.front.trans h.front, k.back.trans h.back,
    k.ntByte.trans h.ntByte, k.loTile.trans h.loTile, k.hiTile.trans h.hiTile, k.tileData.trans h.tileData,
    k.spr0Hit.trans h.spr0Hit, k.sprOverflow.trans h.sprOverflow⟩

theorem memRead_position (s : State) (a : Word) : SamePosition s.ppu (memRead s a).2.ppu := by
  unfold memRead; dsimp only
  split_ifs <;> first | exact SamePosition.refl _ | (cases picReg a <;> constructor <;> rfl)

theorem writeScroll_position (p : Ppu) (v : Byte) : SamePosition p (p.writeScroll v) := by
  unfold Ppu.writeScroll; split <;> constructor <;> rfl

theorem writeAddress_position (p : Ppu) (v : Byte) : SamePosition p (p.writeAddress v) := by
  unfold Ppu.writeAddress; split <;> constructor <;> rfl

theorem latch_position (s : State) (v : Byte) : SamePosition s.ppu (s.latch v).ppu := by constructor <;> rfl

theorem ppuRegWrite_position (s : State) (r : PicReg) (v : Byte) :
    SamePosition s.ppu (ppuRegWrite s r v).ppu := by
  refine (latch_position s v).trans ?_
  cases r
  case data =>
    have h := (ppuWrite_else (s.latch v) (s.latch v).ppu.dataAddr v).2.2.1
    refine SamePosition.trans (q := (ppuWrite (s.latch v) (s.latch v).ppu.dataAddr v).ppu) ?_ ?_
    · rw [h]; exact SamePosition.refl _
    · constructor <;> rfl
  case scroll => exact writeScroll_position _ v
  case address => exact writeAddress_position _ v
  all_goals constructor <;> rfl

/-! ## OAM DMA -/

/-- One byte of the DMA: the state but for OAM, its address and the read's own effects. -/
theorem dmaByte_else (v : Byte) (s : State) (k : Nat) :
    (dmaByte v s k).cpu = s.cpu ∧ (dmaByte v s k).cart = s.cart ∧ (dmaByte v s k).mapper = s.mapper ∧
    (dmaByte v s k).bus.ram = s.bus.ram ∧ (dmaByte v s k).bus.nt = s.bus.nt ∧ (dmaByte v s k).bus.pal = s.bus.pal ∧
    SamePosition s.ppu (dmaByte v s k).ppu ∧ (dmaByte v s k).ppu.mask = s.ppu.mask ∧
    (dmaByte v s k).ppu.ctrl = s.ppu.ctrl ∧ (dmaByte v s k).ppu.regLatch = s.ppu.regLatch ∧
    (dmaByte v s k).ppu.oamAddr = s.ppu.oamAddr + 1 := by
  have h := memRead_ppu s (pageAddr v k)
  have hp := memRead_position s (pageAddr v k)
  refine ⟨?_, ?_, ?_, ?_, ?_, ?_, ?_, ?_, ?_, ?_, ?_⟩
  case _ => simp [dmaByte]
  case _ => simp [dmaByte]
  case _ => simp [dmaByte]
  case _ => simp [dmaByte]
  case _ => simp [dmaByte]
  case _ => simp [dmaByte]
  case _ =>
    exact ⟨hp.dot, hp.scanline, hp.frame, hp.sprCount, hp.sprites, hp.atBits, hp.front, hp.back, hp.ntByte, hp.loTile,
      hp.hiTile, hp.tileData, hp.spr0Hit, hp.sprOverflow⟩
  case _ => exact h.mask
  case _ => exact h.ctrl
  case _ => exact h.regLatch
  case _ => simp [dmaByte, Ppu.storeOam, h.oamAddr]

/-- Induction over the bytes of a DMA: what every byte keeps, the copy keeps. -/
theorem dmaCopy_induction {R : State → Prop} (v : Byte) (h : ∀ s k, R s → R (dmaByte v s k)) :
    ∀ (l : List Nat) (s : State), R s → R (l.foldl (dmaByte v) s)
  | [], _, hs => hs
  | k :: l, s, hs => dmaCopy_induction v h l (dmaByte v s k) (h s k hs)

/-- What every byte of a DMA keeps, the whole copy keeps. -/
theorem dmaCopy_keeps {R : State → Prop} (v : Byte) (h : ∀ s k, R s → R (dmaByte v s k)) (s : State) (hs : R s) :
    R (dmaCopy v s) := by
  unfold dmaCopy
  generalize List.range 256 = l
  exact dmaCopy_induction v h l s hs

/-- The DMA's copy: what it keeps. -/
theorem dmaCopy_else (v : Byte) (s : State) :
    (dmaCopy v s).cpu = s.cpu ∧ (dmaCopy v s).cart = s.cart ∧ (dmaCopy v s).mapper = s.mapper ∧
    (dmaCopy v s).bus.ram = s.bus.ram ∧ (dmaCopy v s).bus.nt = s.bus.nt ∧ (dmaCopy v s).bus.pal = s.bus.pal ∧
    SamePosition s.ppu (dmaCopy v s).ppu ∧ (dmaCopy v s).ppu.mask = s.ppu.mask ∧
    (dmaCopy v s).ppu.ctrl = s.ppu.ctrl ∧ (dmaCopy v s).ppu.regLatch = s.ppu.regLatch := by
  refine dmaCopy_keeps
    (R := fun t => t.cpu = s.cpu ∧ t.cart = s.cart ∧ t.mapper = s.mapper ∧ t.bus.ram = s.bus.ram ∧
      t.bus.nt = s.bus.nt ∧ t.bus.pal = s.bus.pal ∧ SamePosition s.ppu t.ppu ∧ t.ppu.mask = s.ppu.mask ∧
      t.ppu.ctrl = s.ppu.ctrl ∧ t.ppu.regLatch = s.ppu.regLatch)
    v ?_ s ⟨rfl, rfl, rfl, rfl, rfl, rfl, SamePosition.refl _, rfl, rfl, rfl⟩
  rintro t k ⟨h1, h2, h3, h4, h5, h6, h7, h8, h9, h10⟩
  obtain ⟨g1, g2, g3, g4, g5, g6, g7, g8, g9, g10, -⟩ := dmaByte_else v t k
  exact ⟨g1.trans h1, g2.trans h2, g3.trans h3, g4.trans h4, g5.trans h5, g6.trans h6, h7.trans g7,
    g8.trans h8, g9.trans h9, g10.trans h10⟩

/-- The write of 0x4014: of the CPU only the stall counter changes. -/
theorem oamDma_cpu (s : State) (v : Byte) :
    (oamDma s v).cpu = { s.cpu with stall := s.cpu.stall + dmaStall s.cpu.cycles } := by
  have h := (dmaCopy_else v (s.latch v)).1
  have h' : (dmaCopy v (s.latch v)).cpu = s.cpu := h
  simp [oamDma, State.setStall, h']

/-- The write of 0x4014 keeps the cartridge, the mapper, the Bus memories and the beam. -/
theorem oamDma_else (s : State) (v : Byte) :
    (oamDma s v).cart = s.cart ∧ (oamDma s v).mapper = s.mapper ∧ (oamDma s v).bus.ram = s.bus.ram ∧
    (oamDma s v).bus.nt = s.bus.nt ∧ (oamDma s v).bus.pal = s.bus.pal ∧ SamePosition s.ppu (oamDma s v).ppu := by
  obtain ⟨-, h2, h3, h4, h5, h6, h7, -⟩ := dmaCopy_else v (s.latch v)
  simp only [oamDma, setStall_cart, setStall_mapper, setStall_bus, setStall_ppu]
  exact ⟨h2, h3, h4, h5, h6, (latch_position s v).trans h7⟩

/-! ## Writes, all targets -/

/-- The stall a write adds (R245): only 0x4014 adds one. -/
def stallOf (a : Word) (cycles : Nat) : Nat := if a = 0x4014 then dmaStall cycles else 0

/-- Of the CPU a write changes the stall counter only, and only at 0x4014 (R18, R245). -/
theorem memWrite_cpu (s : State) (a : Word) (v : Byte) :
    (memWrite s a v).cpu = { s.cpu with stall := s.cpu.stall + stallOf a s.cpu.cycles } := by
  have hne : a.toNat ≠ 0x4014 → stallOf a s.cpu.cycles = 0 := fun h => by
    unfold stallOf; rw [if_neg]; rintro rfl; exact h rfl
  unfold memWrite; dsimp only
  split_ifs with h1 h2 h3 h4 h5 h6 h7 h8
  case pos => rw [hne (by omega)]; rfl
  case pos => rw [hne (by omega)]; exact (ppuRegWrite_else s _ v).1
  case pos => rw [hne (by omega)]; rfl
  case pos =>
    have : a = 0x4014 := BitVec.eq_of_toNat_eq (by simpa using h4)
    rw [oamDma_cpu]; simp [stallOf, this]
  case pos => rw [hne (by omega)]; rfl
  case pos => rw [hne (by omega)]; rfl
  case pos => rw [hne (by omega)]; rfl
  case pos => rw [hne (by omega)]; rfl
  case neg =>
    rw [hne (by omega)]
    unfold mapperCpuWrite mapperRegisterWrite
    split
    · rfl
    · split <;> rfl

@[simp] theorem memWrite_a (s : State) (a : Word) (v : Byte) : (memWrite s a v).cpu.a = s.cpu.a := by
  rw [memWrite_cpu]

@[simp] theorem memWrite_x (s : State) (a : Word) (v : Byte) : (memWrite s a v).cpu.x = s.cpu.x := by
  rw [memWrite_cpu]

@[simp] theorem memWrite_y (s : State) (a : Word) (v : Byte) : (memWrite s a v).cpu.y = s.cpu.y := by
  rw [memWrite_cpu]

@[simp] theorem memWrite_sp (s : State) (a : Word) (v : Byte) : (memWrite s a v).cpu.sp = s.cpu.sp := by
  rw [memWrite_cpu]

@[simp] theorem memWrite_pc (s : State) (a : Word) (v : Byte) : (memWrite s a v).cpu.pc = s.cpu.pc := by
  rw [memWrite_cpu]

@[simp] theorem memWrite_p (s : State) (a : Word) (v : Byte) : (memWrite s a v).cpu.p = s.cpu.p := by
  rw [memWrite_cpu]

@[simp] theorem memWrite_irqSlot (s : State) (a : Word) (v : Byte) :
    (memWrite s a v).cpu.irqSlot = s.cpu.irqSlot := by
  rw [memWrite_cpu]

@[simp] theorem memWrite_cycles (s : State) (a : Word) (v : Byte) :
    (memWrite s a v).cpu.cycles = s.cpu.cycles := by
  rw [memWrite_cpu]

/-- No write stores into PRG or changes what the loader fixed (R22, R71, R205, R217). -/
theorem memWrite_fixed (s : State) (a : Word) (v : Byte) :
    (memWrite s a v).cart.prg = s.cart.prg ∧ (memWrite s a v).cart.n16 = s.cart.n16 ∧
    (memWrite s a v).cart.n4 = s.cart.n4 ∧ (memWrite s a v).cart.mirror0 = s.cart.mirror0 := by
  unfold memWrite; dsimp only
  split_ifs
  case pos => exact ⟨rfl, rfl, rfl, rfl⟩
  case pos =>
    have h := ppuRegWrite_else s (picReg a) v
    exact ⟨h.2.2.2.2.2.1, h.2.2.2.2.2.2.2.1, h.2.2.2.2.2.2.2.2.1, h.2.2.2.2.2.2.2.2.2⟩
  case pos => exact ⟨rfl, rfl, rfl, rfl⟩
  case pos =>
    rw [(oamDma_else s v).1]; exact ⟨rfl, rfl, rfl, rfl⟩
  case pos => exact ⟨rfl, rfl, rfl, rfl⟩
  case pos => exact ⟨rfl, rfl, rfl, rfl⟩
  case pos => exact ⟨rfl, rfl, rfl, rfl⟩
  case pos => exact ⟨rfl, rfl, rfl, rfl⟩
  case neg =>
    unfold mapperCpuWrite mapperRegisterWrite
    split
    · exact ⟨rfl, rfl, rfl, rfl⟩
    · split <;> exact ⟨rfl, rfl, rfl, rfl⟩

/-- No write moves the beam or touches the framebuffers and the sprite buffers (R18). -/
theorem memWrite_position (s : State) (a : Word) (v : Byte) : SamePosition s.ppu (memWrite s a v).ppu := by
  unfold memWrite; dsimp only
  split_ifs
  case pos => exact SamePosition.refl _
  case pos => exact ppuRegWrite_position s _ v
  case pos => exact SamePosition.refl _
  case pos => exact (oamDma_else s v).2.2.2.2.2
  case pos => exact SamePosition.refl _
  case pos => exact SamePosition.refl _
  case pos => exact SamePosition.refl _
  case pos => exact SamePosition.refl _
  case neg =>
    unfold mapperCpuWrite mapperRegisterWrite
    split
    · exact SamePosition.refl _
    · split <;> exact SamePosition.refl _

end Sys2Proof.Machine
end

