-- ==== Sys2Proof/Laws/Decode.lean ====
section
/-!
SUPPORT. The opcode matrix and the operand bytes, in the form the decoding proofs use (R81, R83, R98).
-/

namespace Sys2Proof

/-- The matrix marks the byte illegal. -/
def Shape.isBad : Shape → Bool
  | .bad => true
  | .alone _ => false
  | .padded _ => false
  | .byte _ => false
  | .word _ => false

/-- The matrix's illegal entries are R168's list. -/
theorem isBad_eq (op : Byte) : (opShape op).isBad = illegalOpcodes.contains op := by
  revert op; decide

theorem opShape_bad {op : Byte} (h : illegalOpcodes.contains op = true) : opShape op = .bad := by
  have hb := isBad_eq op
  rw [h] at hb
  cases hs : opShape op <;> rw [hs] at hb <;> first | rfl | cases hb

/-- The two bytes of a 16-bit operand make it again. -/
@[simp] theorem operandWord_bytes (a : Word) : operandWord (a.setWidth 8) ((a >>> 8).setWidth 8) = a := by
  apply BitVec.eq_of_toNat_eq
  unfold operandWord
  rw [BitVec.toNat_append, ← Nat.shiftLeft_add_eq_or_of_lt (BitVec.isLt _), Nat.shiftLeft_eq]
  have := a.isLt
  simp only [BitVec.toNat_setWidth, BitVec.toNat_ushiftRight, Nat.shiftRight_eq_div_pow]
  omega

/-- A 16-bit operand has the bytes it was made of. -/
@[simp] theorem wordBytes_operandWord (lo hi : Byte) : wordBytes (operandWord lo hi) = [lo, hi] := by
  have hl := lo.isLt
  have hh := hi.isLt
  have hn : (operandWord lo hi).toNat = hi.toNat * 256 + lo.toNat := by
    unfold operandWord
    rw [BitVec.toNat_append, ← Nat.shiftLeft_add_eq_or_of_lt lo.isLt, Nat.shiftLeft_eq]
  have h1 : (operandWord lo hi).setWidth 8 = lo := by
    apply BitVec.eq_of_toNat_eq
    rw [BitVec.toNat_setWidth, hn]; omega
  have h2 : ((operandWord lo hi) >>> 8).setWidth 8 = hi := by
    apply BitVec.eq_of_toNat_eq
    rw [BitVec.toNat_setWidth, BitVec.toNat_ushiftRight, hn, Nat.shiftRight_eq_div_pow]; omega
  simp [wordBytes, h1, h2]

/-- The operand bytes an opcode announces are those of the instruction (R80, R81). -/
def Announces (i : Instr) (bytes : List Byte) : Shape → Prop
  | .bad => i = .illegal i.opcode ∧ bytes = []
  | .alone j => j = i ∧ bytes = []
  | .padded j => j = i ∧ bytes = [0x00]
  | .byte f => ∃ d, f d = i ∧ bytes = [d]
  | .word f => ∃ a, f a = i ∧ bytes = wordBytes a

end Sys2Proof
end

