-- ==== Sys2Proof/Laws/Operands.lean ====
section
/-!
SUPPORT. Address resolution, the common beginnings of the instructions, and the stack, each in one equation: resolution
changes nothing, since its pointers lie in page 0 (R91, R93), and the stack is work RAM (R59).
-/

namespace Sys2Proof.Machine

/-- A zero-page address is quiet work RAM. -/
theorem zeroPage_lt (d : Byte) : (d.setWidth 16).toNat < 0x2000 := by
  have := d.isLt; simp [BitVec.toNat_setWidth]; omega

theorem quiet_of_ram {a : Word} (h : a.toNat < 0x2000) : quiet a = true := by simp [quiet, h]

/-- The next address in page 0 is in page 0. -/
theorem nextInPage_zeroPage (d : Byte) : nextInPage (d.setWidth 16) = (d + 1).setWidth 16 := by
  revert d; decide

/-- A pointer read in page 0: two bytes of work RAM, nothing changed (R43, R91, R93). -/
theorem read16Bug_zeroPage (s : State) (d : Byte) :
    read16Bug s (d.setWidth 16) = (joinBytes (peek s ((d + 1).setWidth 16)) (peek s (d.setWidth 16)), s) := by
  unfold read16Bug
  rw [nextInPage_zeroPage]
  exact readPair_quiet (quiet_of_ram (zeroPage_lt _)) (quiet_of_ram (zeroPage_lt _))

/-- Resolution changes nothing. -/
@[simp] theorem resolve_state (s : State) (m : MemOperand) : (resolve s m).state = s := by
  cases m <;> simp [resolve, read16Bug_zeroPage]

/-- The cost of a read with the page-cross cycle (R97). -/
def readCost (s : State) (m : MemOperand) : Nat := readCycles m + if (resolve s m).crossed then 1 else 0

/-- A memory operand read: the byte at the resolved address; the read's effects, PC advanced, the cost charged. -/
theorem loadOperand_mem (s : State) (m : MemOperand) :
    loadOperand s (.mem m) =
      (peek s (resolve s m).addr, advance (afterRead s (resolve s m).addr) (modeLength m) (readCost s m)) := by
  simp [loadOperand, readCost, peek, afterRead]

theorem loadOperand_imm (s : State) (v : Byte) : loadOperand s (.imm v) = (v, advance s 2 2) := rfl

/-- A store's target: the resolved address; PC advanced, the cost charged, nothing else. -/
theorem storeTarget_eq (s : State) (m : MemOperand) :
    storeTarget s m = ((resolve s m).addr, advance s (modeLength m) (storeCycles m)) := by
  simp [storeTarget]

/-- A read-modify-write's read. -/
theorem rmwLoad_eq (s : State) (o : RmwOperand) :
    rmwLoad s o =
      { addr := (resolve s o.mem).addr
        value := peek s (resolve s o.mem).addr
        state := advance (afterRead s (resolve s o.mem).addr) (modeLength o.mem) (rmwCycles o) } := by
  simp [rmwLoad, peek, afterRead]

@[simp] theorem advance_pc (s : State) (n c : Nat) : (advance s n c).cpu.pc = s.cpu.pc + BitVec.ofNat 16 n := rfl
@[simp] theorem advance_cycles (s : State) (n c : Nat) : (advance s n c).cpu.cycles = s.cpu.cycles + c := rfl
@[simp] theorem advance_a (s : State) (n c : Nat) : (advance s n c).cpu.a = s.cpu.a := rfl
@[simp] theorem advance_x (s : State) (n c : Nat) : (advance s n c).cpu.x = s.cpu.x := rfl
@[simp] theorem advance_y (s : State) (n c : Nat) : (advance s n c).cpu.y = s.cpu.y := rfl
@[simp] theorem advance_sp (s : State) (n c : Nat) : (advance s n c).cpu.sp = s.cpu.sp := rfl
@[simp] theorem advance_p (s : State) (n c : Nat) : (advance s n c).cpu.p = s.cpu.p := rfl
@[simp] theorem advance_irqSlot (s : State) (n c : Nat) : (advance s n c).cpu.irqSlot = s.cpu.irqSlot := rfl
@[simp] theorem advance_stall (s : State) (n c : Nat) : (advance s n c).cpu.stall = s.cpu.stall := rfl
@[simp] theorem advance_bus (s : State) (n c : Nat) : (advance s n c).bus = s.bus := rfl
@[simp] theorem advance_cart (s : State) (n c : Nat) : (advance s n c).cart = s.cart := rfl
@[simp] theorem advance_mapper (s : State) (n c : Nat) : (advance s n c).mapper = s.mapper := rfl
@[simp] theorem advance_ppu (s : State) (n c : Nat) : (advance s n c).ppu = s.ppu := rfl
@[simp] theorem advance_ext (s : State) (n c : Nat) : (advance s n c).ext = s.ext := rfl
@[simp] theorem advance_flag (s : State) (n c : Nat) (f : Flag) : (advance s n c).flag f = s.flag f := rfl

@[simp] theorem afterRead_cpu (s : State) (a : Word) : (afterRead s a).cpu = s.cpu := memRead_cpu s a
@[simp] theorem afterRead_cart (s : State) (a : Word) : (afterRead s a).cart = s.cart := memRead_cart s a
@[simp] theorem afterRead_mapper (s : State) (a : Word) : (afterRead s a).mapper = s.mapper := memRead_mapper s a
@[simp] theorem afterRead_ram (s : State) (a : Word) : (afterRead s a).bus.ram = s.bus.ram := memRead_ram s a
@[simp] theorem afterRead_nt (s : State) (a : Word) : (afterRead s a).bus.nt = s.bus.nt := memRead_nt s a
@[simp] theorem afterRead_pal (s : State) (a : Word) : (afterRead s a).bus.pal = s.bus.pal := memRead_pal s a
@[simp] theorem afterRead_oam (s : State) (a : Word) : (afterRead s a).ppu.oam = s.ppu.oam := memRead_oam s a

theorem afterRead_quiet {s : State} {a : Word} (h : quiet a = true) : afterRead s a = s := memRead_quiet h

/-! ## The stack -/

theorem stackAddr_toNat (sp : Byte) : (stackAddr sp).toNat = 0x100 + sp.toNat := by
  have := sp.isLt
  simp [stackAddr, BitVec.toNat_add, BitVec.toNat_setWidth]; omega

theorem stackAddr_lt (sp : Byte) : (stackAddr sp).toNat < 0x2000 := by
  have := sp.isLt; rw [stackAddr_toNat]; omega

/-- The RAM index of a stack location. -/
def stackIndex (sp : Byte) : Nat := 0x100 + sp.toNat

theorem stackAddr_mod (sp : Byte) : (stackAddr sp).toNat % Config.ramSize = stackIndex sp := by
  have := sp.isLt; rw [stackAddr_toNat]; simp [stackIndex, Config.ramSize]; omega

theorem stackIndex_inj {a b : Byte} (h : stackIndex a = stackIndex b) : a = b := by
  apply BitVec.eq_of_toNat_eq; simp [stackIndex] at h; exact h

theorem stackIndex_lt (sp : Byte) : stackIndex sp < Config.ramSize := by
  have := sp.isLt; simp [stackIndex, Config.ramSize]; omega

/-- A push: one byte of page 1, and SP down by one (R59). -/
theorem push_eq (s : State) (v : Byte) :
    push s v = (s.setBus { s.bus with ram := Memory.write s.bus.ram (stackIndex s.cpu.sp) v }).setSp (s.cpu.sp - 1) := by
  simp only [push, memWrite_of_ram v (stackAddr_lt _), stackAddr_mod]; rfl

/-- A pull: SP up by one, and the byte of page 1 it then names (R59). -/
theorem pull_eq (s : State) :
    pull s = (Memory.read s.bus.ram (stackIndex (s.cpu.sp + 1)), s.setSp (s.cpu.sp + 1)) := by
  unfold pull; dsimp only
  rw [memRead_of_ram (stackAddr_lt _), stackAddr_mod]; rfl

/-- Two pushes: high byte first (R59). -/
theorem push16_eq (s : State) (w : Word) :
    push16 s w =
      (s.setBus
        { s.bus with
          ram := Memory.write (Memory.write s.bus.ram (stackIndex s.cpu.sp) (highByte w))
            (stackIndex (s.cpu.sp - 1)) (lowByte w) }).setSp (s.cpu.sp - 1 - 1) := by
  simp only [push16, push_eq]; rfl

/-- Two pulls: low byte first (R59). -/
theorem pull16_eq (s : State) :
    pull16 s =
      (joinBytes (Memory.read s.bus.ram (stackIndex (s.cpu.sp + 1 + 1)))
        (Memory.read s.bus.ram (stackIndex (s.cpu.sp + 1))), s.setSp (s.cpu.sp + 1 + 1)) := by
  simp only [pull16, pull_eq]; rfl

/-- The number a high and a low byte make (00_scope.md section 5). -/
theorem joinBytes_toNat (h l : Byte) : (joinBytes h l).toNat = h.toNat * 256 + l.toNat := by
  unfold joinBytes
  rw [BitVec.toNat_append, ← Nat.shiftLeft_add_eq_or_of_lt l.isLt, Nat.shiftLeft_eq]

theorem highByte_toNat (w : Word) : (highByte w).toNat = w.toNat / 256 := by
  have := w.isLt
  simp [highByte, BitVec.toNat_setWidth, Nat.shiftRight_eq_div_pow]; omega

theorem lowByte_toNat (w : Word) : (lowByte w).toNat = w.toNat % 256 := by
  simp [lowByte, BitVec.toNat_setWidth]

@[simp] theorem joinBytes_high_low (w : Word) : joinBytes (highByte w) (lowByte w) = w := by
  apply BitVec.eq_of_toNat_eq
  rw [joinBytes_toNat, highByte_toNat, lowByte_toNat]; omega

@[simp] theorem highByte_join (h l : Byte) : highByte (joinBytes h l) = h := by
  apply BitVec.eq_of_toNat_eq
  have := l.isLt
  rw [highByte_toNat, joinBytes_toNat]; omega

@[simp] theorem lowByte_join (h l : Byte) : lowByte (joinBytes h l) = l := by
  apply BitVec.eq_of_toNat_eq
  have := l.isLt
  rw [lowByte_toNat, joinBytes_toNat]; omega

/-- Taking an interrupt or a trap: the stack writes, then the status, then PC from the vector; the bus reads of the
vector change nothing (R158, R317). -/
theorem enterHandler_eq (s : State) (vec : Word) (b : Bool) (hl : 0x6000 ≤ vec.toNat) (hh : vec.toNat < 0xFFFF) :
    enterHandler s vec b =
      (((s.setBus
        { s.bus with
          ram := Memory.write
            (Memory.write (Memory.write s.bus.ram (stackIndex s.cpu.sp) (highByte s.cpu.pc))
              (stackIndex (s.cpu.sp - 1)) (lowByte s.cpu.pc))
            (stackIndex (s.cpu.sp - 1 - 1)) (packP b s.cpu.p) }).setSp (s.cpu.sp - 1 - 1 - 1)).setFlag .i true).setPc
        (joinBytes (peek s (vec + 1)) (peek s vec)) := by
  have h1 : (vec + 1).toNat = vec.toNat + 1 := by rw [BitVec.toNat_add]; simp; omega
  have key : ∀ u : State, u.cart = s.cart → u.mapper = s.mapper →
      read16 u vec = (joinBytes (peek s (vec + 1)) (peek s vec), u) := fun u hc hm => by
    have hp : ∀ a : Word, 0x6000 ≤ a.toNat → peek u a = peek s a := fun a ha => by
      unfold peek
      rw [memRead_of_mapper ha, memRead_of_mapper ha, mapperCpuRead_congr a hc hm]
    rw [read16_vector hl hh, hp _ hl, hp _ (by omega)]
  unfold enterHandler
  simp only [push16_eq, push_eq]
  rw [key]
  all_goals rfl

/-- The return from a handler (R157). -/
theorem returnFromHandler_eq (s : State) :
    returnFromHandler s =
      ((s.setSp (s.cpu.sp + 1 + 1 + 1)).setP (unpackP (Memory.read s.bus.ram (stackIndex (s.cpu.sp + 1))))).setPc
        (joinBytes (Memory.read s.bus.ram (stackIndex (s.cpu.sp + 1 + 1 + 1)))
          (Memory.read s.bus.ram (stackIndex (s.cpu.sp + 1 + 1)))) := by
  simp only [returnFromHandler, pull16_eq, pull_eq]; rfl

end Sys2Proof.Machine
end

