-- ==== Sys2Proof/Laws/Invariant.lean ====
section
/-!
SUPPORT. Every bus access keeps the machine's invariant: the storages stay in canonical form and inside their sizes, the
mapper's windows inside the cartridge, the counters in range.
-/

namespace Sys2Proof.Machine

theorem ntIndex_lt (m : Mirroring) (a : PicAddr) : ntIndex m a < Config.ntSize := Nat.mod_lt _ (by decide)

theorem palIndex_lt (a : PicAddr) : palIndex a < Config.palSize := by
  unfold palIndex Config.palSize; dsimp only; split <;> omega

/-- CHR accesses stay inside CHR storage (R206, R216, R218). -/
theorem chrIndex_lt {s : State} {a : PicAddr} (hc : s.cart.Ok) (hm : s.mapper.Ok s.cart)
    (ha : a.toNat < 0x2000) : chrIndex s a < s.cart.n4 * Config.chrBank := by
  have h4 : 2 * Config.chrBank ≤ s.cart.n4 * Config.chrBank := Nat.mul_le_mul_right _ hc.n4
  unfold chrIndex; dsimp only
  cases h : s.mapper with
  | variantA m => simp only [Config.chrBank] at *; omega
  | variantB m =>
    rw [h] at hm
    have h0 := hm.chr0
    have h1 := hm.chr1
    simp only [Config.chrBank] at *
    split <;> omega

/-! ## The Picture Engine's registers -/

/-- The latch and the control register may change if `NmiChange` follows: it makes the edge detector right (R262). -/
theorem Ppu.Ok.changeNmi {p : Ppu} (h : p.Ok) (ctrl : Byte) (occurred : Bool) :
    ({ p with ctrl := ctrl, nmiOccurred := occurred } : Ppu).nmiChange.Ok := by
  refine ⟨h.dot, h.scanline, h.sprCount, h.sprites, ?_, rfl, h.atBits, h.oam, h.front, h.back⟩
  unfold Ppu.nmiChange; dsimp only
  split
  · exact Nat.le_refl _
  · exact h.nmiDelay

theorem Ppu.Ok.storeOam {p : Ppu} (h : p.Ok) (v : Byte) : (p.storeOam v).Ok :=
  ⟨h.dot, h.scanline, h.sprCount, h.sprites, h.nmiDelay, h.nmiPrevious, h.atBits,
    h.oam.write (by have := p.oamAddr.isLt; simpa [Config.oamSize] using this) v, h.front, h.back⟩

theorem Ppu.Ok.latch {p : Ppu} (h : p.Ok) (v : Byte) : ({ p with regLatch := v } : Ppu).Ok :=
  ⟨h.dot, h.scanline, h.sprCount, h.sprites, h.nmiDelay, h.nmiPrevious, h.atBits, h.oam, h.front, h.back⟩

/-- The address, scroll, mask and buffer registers are free. -/
theorem Ppu.Ok.registers {p : Ppu} (h : p.Ok) (v t : ScrollAddr) (x : BitVec 3) (w : Bool) (mask oamAddr buffer : Byte) :
    ({ p with v := v, t := t, x := x, w := w, mask := mask, oamAddr := oamAddr, readBuffer := buffer } : Ppu).Ok :=
  ⟨h.dot, h.scanline, h.sprCount, h.sprites, h.nmiDelay, h.nmiPrevious, h.atBits, h.oam, h.front, h.back⟩

theorem ppuRegRead_ok {s : State} (h : s.ppu.Ok) (r : PicReg) : (ppuRegRead s r).2.ppu.Ok := by
  cases r
  case status =>
    exact (h.changeNmi s.ppu.ctrl false).registers s.ppu.v s.ppu.t s.ppu.x false s.ppu.mask s.ppu.oamAddr s.ppu.readBuffer
  case data =>
    exact h.registers s.ppu.advanceV s.ppu.t s.ppu.x s.ppu.w s.ppu.mask s.ppu.oamAddr (dataPortBuffer s)
  all_goals exact h

theorem writeScroll_ok {p : Ppu} (h : p.Ok) (v : Byte) : (p.writeScroll v).Ok := by
  unfold Ppu.writeScroll
  split
  · exact h.registers _ _ _ _ _ _ _
  · exact h.registers _ _ _ _ _ _ _

theorem writeAddress_ok {p : Ppu} (h : p.Ok) (v : Byte) : (p.writeAddress v).Ok := by
  unfold Ppu.writeAddress
  split
  · exact h.registers _ _ _ _ _ _ _
  · exact h.registers _ _ _ _ _ _ _

/-- A write to picture space keeps the Bus and the cartridge in form (R54). -/
theorem ppuWrite_ok {s : State} (hb : s.bus.Ok) (hc : s.cart.Ok) (hm : s.mapper.Ok s.cart) (a : PicAddr) (v : Byte) :
    (ppuWrite s a v).bus.Ok ∧ (ppuWrite s a v).cart.Ok := by
  unfold ppuWrite
  split
  · rename_i h
    exact ⟨hb, ⟨hc.n16, hc.n4, hc.prg, hc.sram, hc.chr.write (chrIndex_lt hc hm h) v⟩⟩
  · split
    · exact ⟨⟨hb.ram, hb.nt.write (ntIndex_lt _ _) v, hb.pal⟩, hc⟩
    · exact ⟨⟨hb.ram, hb.nt, hb.pal.write (palIndex_lt _) v⟩, hc⟩

theorem ppuRegWrite_ok {s : State} (h : s.ppu.Ok) (hb : s.bus.Ok) (hc : s.cart.Ok) (hm : s.mapper.Ok s.cart)
    (r : PicReg) (v : Byte) :
    (ppuRegWrite s r v).ppu.Ok ∧ (ppuRegWrite s r v).bus.Ok ∧ (ppuRegWrite s r v).cart.Ok := by
  have hl : (s.latch v).ppu.Ok := h.latch v
  cases r
  case control =>
    exact ⟨(hl.changeNmi v (s.latch v).ppu.nmiOccurred).registers _ _ _ _ _ _ _, hb, hc⟩
  case mask => exact ⟨hl.registers _ _ _ _ v _ _, hb, hc⟩
  case status => exact ⟨hl, hb, hc⟩
  case oamAddr => exact ⟨hl.registers _ _ _ _ _ v _, hb, hc⟩
  case oamData => exact ⟨hl.storeOam v, hb, hc⟩
  case scroll => exact ⟨writeScroll_ok hl v, hb, hc⟩
  case address => exact ⟨writeAddress_ok hl v, hb, hc⟩
  case data =>
    have hw := ppuWrite_ok (s := s.latch v) hb hc hm (s.latch v).ppu.dataAddr v
    have hp := (ppuWrite_else (s.latch v) (s.latch v).ppu.dataAddr v).2.2.1
    refine ⟨?_, hw.1, hw.2⟩
    have hq : (ppuWrite (s.latch v) (s.latch v).ppu.dataAddr v).ppu.Ok := by rw [hp]; exact hl
    exact hq.registers _ _ _ _ _ _ _

/-! ## The mapper -/

theorem offset_le {n size i : Nat} (hn : 1 ≤ n) : i % n * size + size ≤ n * size := by
  have h : i % n + 1 ≤ n := Nat.mod_lt i (by omega)
  calc i % n * size + size = (i % n + 1) * size := by rw [Nat.add_mul, Nat.one_mul]
    _ ≤ n * size := Nat.mul_le_mul_right _ h

/-- Every window `Recompute` sets lies inside its storage (R216). -/
theorem recompute_ok {c : Cartridge} (hc : c.Ok) (m : MapperB) (h : m.count ≤ 4) :
    MapperB.Ok c (recompute c.n16 c.n4 m) := by
  have hp : ∀ i, prgOffset c.n16 i + Config.prgBank ≤ c.n16 * Config.prgBank := fun _ => offset_le hc.n16
  have hq : ∀ i, chrOffset c.n4 i + Config.chrBank ≤ c.n4 * Config.chrBank := fun _ =>
    offset_le (Nat.le_trans (by decide) hc.n4)
  refine ⟨h, ?_, ?_, ?_, ?_⟩
  · show (prgWindows c.n16 m).1 + _ ≤ _
    unfold prgWindows; split <;> exact hp _
  · show (prgWindows c.n16 m).2 + _ ≤ _
    unfold prgWindows; split <;> exact hp _
  · show (chrWindows c.n4 m).1 + _ ≤ _
    unfold chrWindows; split <;> exact hq _
  · show (chrWindows c.n4 m).2 + _ ≤ _
    unfold chrWindows; split <;> exact hq _

theorem commit_ok {c : Cartridge} (hc : c.Ok) (m : MapperB) (h : m.count ≤ 4) (a : Word) (val : BitVec 5) :
    MapperB.Ok c (commit c.n16 c.n4 a val m) := by
  unfold commit; dsimp only
  refine recompute_ok hc _ ?_
  split <;> exact h

theorem serialWrite_ok {c : Cartridge} (hc : c.Ok) {m : MapperB} (h : MapperB.Ok c m) (a : Word) (v : Byte) :
    MapperB.Ok c (serialWrite c.n16 c.n4 a v m) := by
  unfold serialWrite
  split
  · exact recompute_ok hc _ (Nat.zero_le _)
  · split
    · exact commit_ok hc _ (Nat.zero_le _) a _
    · rename_i hcount
      have := h.count
      exact ⟨by dsimp only; omega, h.prg0, h.prg1, h.chr0, h.chr1⟩

theorem mapperRegisterWrite_ok {s : State} (hc : s.cart.Ok) (hm : s.mapper.Ok s.cart) (a : Word) (v : Byte) :
    (mapperRegisterWrite s a v).mapper.Ok s.cart := by
  unfold mapperRegisterWrite
  cases h : s.mapper with
  | variantA m => exact Nat.mod_lt _ (by have := hc.n16; omega)
  | variantB m => rw [h] at hm; exact serialWrite_ok hc hm a v

/-! ## The bus -/

theorem pad_advance_le {p : Pad} : p.advance.index ≤ 8 := by
  unfold Pad.advance; dsimp only; split <;> omega

theorem pad_strobe_le {p : Pad} (h : p.index ≤ 8) (v : Byte) : (p.strobeWrite v).index ≤ 8 := by
  unfold Pad.strobeWrite; dsimp only; split <;> omega

theorem padRead_ok {s : State} (h : Ext.Ok s.ext) (port : Port) : Ext.Ok (padRead s port).2.ext := by
  cases port
  · exact ⟨pad_advance_le, h.pad2⟩
  · exact ⟨h.pad1, pad_advance_le⟩

theorem noteUnmapped_busOk {s : State} (h : s.bus.Ok) : (noteUnmapped s).bus.Ok := ⟨h.ram, h.nt, h.pal⟩

/-- A one-byte read keeps the invariant. -/
theorem memRead_inv {s : State} (h : Inv s) (a : Word) : Inv (memRead s a).2 := by
  refine ⟨by rw [memRead_cpu]; exact h.cpu, ?_, by rw [memRead_cart]; exact h.cart,
    by rw [memRead_mapper, memRead_cart]; exact h.mapper, ?_, ?_⟩
  · exact ⟨by rw [memRead_ram]; exact h.bus.ram, by rw [memRead_nt]; exact h.bus.nt,
      by rw [memRead_pal]; exact h.bus.pal⟩
  · unfold memRead; dsimp only
    split_ifs <;> first | exact h.ppu | exact ppuRegRead_ok h.ppu _
  · unfold memRead; dsimp only
    split_ifs
    case pos => exact h.ext
    case pos => rw [(ppuRegRead_else s _).2.2.2.2]; exact h.ext
    case pos => exact h.ext
    case pos => exact h.ext
    case pos => exact ⟨h.ext.pad1, h.ext.pad2⟩
    case pos => exact padRead_ok h.ext .one
    case pos => exact padRead_ok h.ext .two
    case pos => exact h.ext
    case neg => exact h.ext

theorem dmaByte_inv {s : State} (h : Inv s) (v : Byte) (k : Nat) : Inv (dmaByte v s k) := by
  have hr := memRead_inv h (pageAddr v k)
  exact ⟨hr.cpu, hr.bus, hr.cart, hr.mapper, hr.ppu.storeOam _, hr.ext⟩

theorem oamDma_inv {s : State} (h : Inv s) (v : Byte) : Inv (oamDma s v) := by
  have hl : Inv (s.latch v) := ⟨h.cpu, h.bus, h.cart, h.mapper, h.ppu.latch v, h.ext⟩
  have hd : Inv (dmaCopy v (s.latch v)) := dmaCopy_keeps (R := Inv) v (fun t k ht => dmaByte_inv ht v k) _ hl
  unfold oamDma
  generalize dmaCopy v (s.latch v) = t at hd
  exact ⟨⟨hd.cpu.unusedSet, hd.cpu.breakClear⟩, hd.bus, hd.cart, hd.mapper, hd.ppu, hd.ext⟩

/-- A one-byte write keeps the invariant, wherever it goes. -/
theorem memWrite_inv {s : State} (h : Inv s) (a : Word) (v : Byte) : Inv (memWrite s a v) := by
  unfold memWrite; dsimp only
  split_ifs
  case pos =>
    exact ⟨h.cpu, ⟨h.bus.ram.write (Nat.mod_lt _ (by decide)) v, h.bus.nt, h.bus.pal⟩, h.cart, h.mapper, h.ppu, h.ext⟩
  case pos =>
    have hw := ppuRegWrite_ok h.ppu h.bus h.cart h.mapper (picReg a) v
    have he := ppuRegWrite_else s (picReg a) v
    refine ⟨by rw [he.1]; exact h.cpu, hw.2.1, hw.2.2, ?_, hw.1, by rw [he.2.2.1]; exact h.ext⟩
    rw [he.2.1]
    have hm := h.mapper
    cases hs : s.mapper with
    | variantA m =>
      rw [hs] at hm
      show m.bank < (ppuRegWrite s (picReg a) v).cart.n16
      rw [he.2.2.2.2.2.2.2.1]; exact hm
    | variantB m =>
      rw [hs] at hm
      refine ⟨hm.count, ?_, ?_, ?_, ?_⟩
      · rw [he.2.2.2.2.2.2.2.1]; exact hm.prg0
      · rw [he.2.2.2.2.2.2.2.1]; exact hm.prg1
      · rw [he.2.2.2.2.2.2.2.2.1]; exact hm.chr0
      · rw [he.2.2.2.2.2.2.2.2.1]; exact hm.chr1
  case pos => exact ⟨h.cpu, h.bus, h.cart, h.mapper, h.ppu, ⟨h.ext.pad1, h.ext.pad2⟩⟩
  case pos => exact oamDma_inv h v
  case pos => exact ⟨h.cpu, h.bus, h.cart, h.mapper, h.ppu, ⟨h.ext.pad1, h.ext.pad2⟩⟩
  case pos =>
    exact ⟨h.cpu, h.bus, h.cart, h.mapper, h.ppu, ⟨pad_strobe_le h.ext.pad1 v, pad_strobe_le h.ext.pad2 v⟩⟩
  case pos => exact ⟨h.cpu, h.bus, h.cart, h.mapper, h.ppu, ⟨h.ext.pad1, h.ext.pad2⟩⟩
  case pos => exact ⟨h.cpu, noteUnmapped_busOk h.bus, h.cart, h.mapper, h.ppu, h.ext⟩
  case neg =>
    have hge : 0x6000 ≤ a.toNat := by omega
    unfold mapperCpuWrite
    split
    · rename_i hlt
      have hc : ({ s.cart with sram := Memory.write s.cart.sram (a.toNat - 0x6000) v } : Cartridge).Ok :=
        ⟨h.cart.n16, h.cart.n4, h.cart.prg, h.cart.sram.write (by simp [Config.sramSize]; omega) v, h.cart.chr⟩
      refine ⟨h.cpu, h.bus, hc, ?_, h.ppu, h.ext⟩
      have hm := h.mapper
      show Mapper.Ok _ s.mapper
      cases hs : s.mapper with
      | variantA m => rw [hs] at hm; exact hm
      | variantB m => rw [hs] at hm; exact ⟨hm.count, hm.prg0, hm.prg1, hm.chr0, hm.chr1⟩
    · have hm := mapperRegisterWrite_ok h.cart h.mapper a v
      have hs : mapperRegisterWrite s a v = s.setMapper (mapperRegisterWrite s a v).mapper := by
        unfold mapperRegisterWrite; cases s.mapper <;> rfl
      rw [hs]
      exact ⟨h.cpu, h.bus, h.cart, hm, h.ppu, h.ext⟩

end Sys2Proof.Machine
end

