-- ==== Sys2Proof/Laws/Exec.lean ====
section
/-!
SUPPORT. What any instruction can do, said once: it changes CPU registers and makes bus reads and writes, nothing else
(R64, R65, R66). What reads and writes keep, every instruction keeps.
-/

namespace Sys2Proof.Machine

/-- Reached from `s` by changes of the CPU registers and by bus accesses. -/
inductive Moves (s : State) : State → Prop
  | start : Moves s s
  | regs {t : State} (c : Cpu) : Moves s t → Moves s { t with cpu := c }
  | read {t : State} (a : Word) : Moves s t → Moves s (memRead t a).2
  | write {t : State} (a : Word) (v : Byte) : Moves s t → Moves s (memWrite t a v)

namespace Moves

variable {s t : State}

theorem setA (h : Moves s t) (v : Byte) : Moves s (t.setA v) := h.regs _
theorem setX (h : Moves s t) (v : Byte) : Moves s (t.setX v) := h.regs _
theorem setY (h : Moves s t) (v : Byte) : Moves s (t.setY v) := h.regs _
theorem setSp (h : Moves s t) (v : Byte) : Moves s (t.setSp v) := h.regs _
theorem setPc (h : Moves s t) (v : Word) : Moves s (t.setPc v) := h.regs _
theorem setP (h : Moves s t) (v : Byte) : Moves s (t.setP v) := h.regs _
theorem setSlot (h : Moves s t) (v : IrqSlot) : Moves s (t.setSlot v) := h.regs _
theorem setStall (h : Moves s t) (n : Nat) : Moves s (t.setStall n) := h.regs _
theorem setFlag (h : Moves s t) (f : Flag) (b : Bool) : Moves s (t.setFlag f b) := h.regs _
theorem setZN (h : Moves s t) (v : Byte) : Moves s (t.setZN v) := h.regs _
theorem charge (h : Moves s t) (n : Nat) : Moves s (t.charge n) := h.regs _
theorem advance (h : Moves s t) (n c : Nat) : Moves s (Machine.advance t n c) := (h.setPc _).charge c
theorem resultToA (h : Moves s t) (v : Byte) : Moves s (Machine.resultToA t v) := (h.setA v).setZN v
theorem resultToX (h : Moves s t) (v : Byte) : Moves s (Machine.resultToX t v) := (h.setX v).setZN v
theorem resultToY (h : Moves s t) (v : Byte) : Moves s (Machine.resultToY t v) := (h.setY v).setZN v
theorem addToA (h : Moves s t) (v : Byte) : Moves s (Machine.addToA t v) := (h.setP _).setA _

theorem readPair (h : Moves s t) (lo hi : Word) : Moves s (Machine.readPair t lo hi).2 := (h.read lo).read hi
theorem read16 (h : Moves s t) (a : Word) : Moves s (Machine.read16 t a).2 := h.readPair _ _
theorem read16Bug (h : Moves s t) (a : Word) : Moves s (Machine.read16Bug t a).2 := h.readPair _ _
theorem push (h : Moves s t) (v : Byte) : Moves s (Machine.push t v) := (h.write _ v).setSp _
theorem push16 (h : Moves s t) (w : Word) : Moves s (Machine.push16 t w) := (h.push _).push _
theorem pull (h : Moves s t) : Moves s (Machine.pull t).2 := (h.setSp _).read _
theorem pull16 (h : Moves s t) : Moves s (Machine.pull16 t).2 := h.pull.pull

theorem loadOperand (h : Moves s t) (o : Operand) : Moves s (Machine.loadOperand t o).2 := by
  cases o with
  | imm v => exact h.advance 2 2
  | mem m => rw [loadOperand_mem]; exact (h.read _).advance _ _

theorem storeTarget (h : Moves s t) (m : MemOperand) : Moves s (Machine.storeTarget t m).2 := by
  rw [storeTarget_eq]; exact h.advance _ _

theorem rmwLoad (h : Moves s t) (o : RmwOperand) : Moves s (Machine.rmwLoad t o).state := by
  rw [rmwLoad_eq]; exact (h.read _).advance _ _

theorem rmwStore {l : Loaded} (h : Moves s l.state) (v : Byte) : Moves s (Machine.rmwStore l v) := h.write _ v

theorem enterHandler (h : Moves s t) (vec : Word) (b : Bool) : Moves s (Machine.enterHandler t vec b) :=
  ((((h.push16 _).push _).setFlag .i true).read16 vec).setPc _

theorem returnFromHandler (h : Moves s t) : Moves s (Machine.returnFromHandler t) :=
  ((h.pull.setP _).pull16).setPc _

theorem shiftOperand (h : Moves s t) (f : Byte → Bool → Shifted) (o : ShiftOperand) :
    Moves s (Machine.shiftOperand f o t) := by
  cases o with
  | acc => exact ((h.advance 1 2).setA _).setP _
  | mem m => exact ((h.rmwLoad m).rmwStore _).setP _

theorem branchIf (h : Moves s t) (c : Bool) (d : Byte) : Moves s (Machine.branchIf c d t) := by
  unfold Machine.branchIf; dsimp only
  split
  · exact ((h.advance 2 2).setPc _).charge _
  · exact h.advance 2 2

end Moves

/-- The next state of an outcome is the one it names. -/
theorem Moves.of_next {s t u : State} (h : (Host.Outcome.next u : Result) = .next t) (hu : Moves s u) : Moves s t := by
  injection h with h
  exact h ▸ hu

/-- Every instruction that completes only moves registers and accesses the bus. -/
theorem exec_moves {i : Instr} {s t : State} (h : exec i s = .next t) : Moves s t := by
  have m : Moves s s := .start
  cases i
  case adc o => exact .of_next h ((m.loadOperand _).addToA _)
  case sbc o => exact .of_next h ((m.loadOperand _).addToA _)
  case and o => exact .of_next h ((m.loadOperand _).resultToA _)
  case ora o => exact .of_next h ((m.loadOperand _).resultToA _)
  case eor o => exact .of_next h ((m.loadOperand _).resultToA _)
  case bit o => exact .of_next h ((m.loadOperand _).setP _)
  case inc o => exact .of_next h (((m.rmwLoad o).rmwStore _).setZN _)
  case dec o => exact .of_next h (((m.rmwLoad o).rmwStore _).setZN _)
  case inx => exact .of_next h ((m.advance 1 2).resultToX _)
  case iny => exact .of_next h ((m.advance 1 2).resultToY _)
  case dex => exact .of_next h ((m.advance 1 2).resultToX _)
  case dey => exact .of_next h ((m.advance 1 2).resultToY _)
  case asl o => exact .of_next h (m.shiftOperand _ o)
  case lsr o => exact .of_next h (m.shiftOperand _ o)
  case rol o => exact .of_next h (m.shiftOperand _ o)
  case ror o => exact .of_next h (m.shiftOperand _ o)
  case cmp o => exact .of_next h ((m.loadOperand _).setP _)
  case cpx o => exact .of_next h ((m.loadOperand _).setP _)
  case cpy o => exact .of_next h ((m.loadOperand _).setP _)
  case lda o => exact .of_next h ((m.loadOperand _).resultToA _)
  case ldx o => exact .of_next h ((m.loadOperand _).resultToX _)
  case ldy o => exact .of_next h ((m.loadOperand _).resultToY _)
  case sta o => exact .of_next h ((m.storeTarget _).write _ _)
  case stx o => exact .of_next h ((m.storeTarget _).write _ _)
  case sty o => exact .of_next h ((m.storeTarget _).write _ _)
  case tax => exact .of_next h ((m.advance 1 2).resultToX _)
  case tay => exact .of_next h ((m.advance 1 2).resultToY _)
  case txa => exact .of_next h ((m.advance 1 2).resultToA _)
  case tya => exact .of_next h ((m.advance 1 2).resultToA _)
  case tsx => exact .of_next h ((m.advance 1 2).resultToX _)
  case txs => exact .of_next h ((m.advance 1 2).setSp _)
  case pha => exact .of_next h ((m.advance 1 3).push _)
  case php => exact .of_next h ((m.advance 1 3).push _)
  case pla => exact .of_next h ((m.advance 1 4).pull.resultToA _)
  case plp => exact .of_next h ((m.advance 1 4).pull.setP _)
  case bcc d => exact .of_next h (m.branchIf _ d)
  case bcs d => exact .of_next h (m.branchIf _ d)
  case beq d => exact .of_next h (m.branchIf _ d)
  case bne d => exact .of_next h (m.branchIf _ d)
  case bmi d => exact .of_next h (m.branchIf _ d)
  case bpl d => exact .of_next h (m.branchIf _ d)
  case bvc d => exact .of_next h (m.branchIf _ d)
  case bvs d => exact .of_next h (m.branchIf _ d)
  case jmp o =>
    cases o with
    | abs a => exact .of_next h ((m.advance 3 3).setPc a)
    | ind a => exact .of_next h (((m.read16Bug a).advance 3 5).setPc _)
  case jsr a => exact .of_next h (((m.advance 3 6).push16 _).setPc a)
  case rts => exact .of_next h ((m.advance 1 6).pull16.setPc _)
  case rti => exact .of_next h ((m.advance 1 6).returnFromHandler)
  case brk => exact .of_next h ((m.advance 2 7).enterHandler _ _)
  case clc => exact .of_next h ((m.advance 1 2).setFlag _ _)
  case sec => exact .of_next h ((m.advance 1 2).setFlag _ _)
  case cli => exact .of_next h ((m.advance 1 2).setFlag _ _)
  case sei => exact .of_next h ((m.advance 1 2).setFlag _ _)
  case cld => exact .of_next h ((m.advance 1 2).setFlag _ _)
  case sed => exact .of_next h ((m.advance 1 2).setFlag _ _)
  case clv => exact .of_next h ((m.advance 1 2).setFlag _ _)
  case nop => exact .of_next h (m.advance 1 2)
  case illegal op => cases h

/-- What CPU changes, reads and writes keep, an instruction keeps. -/
theorem exec_keeps {R : State → Prop} (hcpu : ∀ t c, R t → R { t with cpu := c })
    (hread : ∀ t a, R t → R (memRead t a).2) (hwrite : ∀ t a v, R t → R (memWrite t a v))
    {i : Instr} {s t : State} (h : exec i s = .next t) (hs : R s) : R t := by
  have hm := exec_moves h
  clear h
  induction hm with
  | start => exact hs
  | regs c _ ih => exact hcpu _ c ih
  | read a _ ih => exact hread _ a ih
  | write a v _ ih => exact hwrite _ a v ih

/-- No instruction moves the beam, the framebuffers or the sprite buffers: only the dots that follow it do (R66, R300). -/
theorem exec_position {i : Instr} {s t : State} (h : exec i s = .next t) : SamePosition s.ppu t.ppu :=
  exec_keeps (R := fun u => SamePosition s.ppu u.ppu) (fun _ _ hu => hu)
    (fun u a hu => hu.trans (memRead_position u a)) (fun u a v hu => hu.trans (memWrite_position u a v)) h
    (SamePosition.refl _)

/-- Fetching an instruction's bytes is reading the bus (R82). -/
theorem fetchInstr_moves (s : State) : Moves s (fetchInstr s).2 := by
  have m : Moves s s := .start
  unfold fetchInstr; dsimp only
  split
  · exact m.read _
  · exact m.read _
  · exact m.read _
  · exact (m.read _).read _
  · exact (m.read _).read16 _

/-- The CPU registers are as they were while the bytes are fetched. -/
theorem fetchInstr_cpu (s : State) : (fetchInstr s).2.cpu = s.cpu := by
  unfold fetchInstr; dsimp only
  split <;> simp [read16]

end Sys2Proof.Machine
end

