-- ==== Sys2Proof/Laws/Flags.lean ====
section
/-!
SUPPORT. The flags of a status byte after each computation on it (R13, R14, R100).
-/

namespace Sys2Proof.Machine

/-- A flag after one flag is written: the new value there, the old one elsewhere. -/
theorem getFlag_putFlag (f g : Flag) (b : Bool) (p : Byte) :
    getFlag f (putFlag g b p) = if f = g then b else getFlag f p := by
  cases f <;> cases g <;> cases b <;> simp [getFlag, putFlag, bitByte, Flag.pos]

@[simp] theorem getFlag_putFlag_same (f : Flag) (b : Bool) (p : Byte) : getFlag f (putFlag f b p) = b := by
  simp [getFlag_putFlag]

theorem getFlag_putFlag_other {f g : Flag} (b : Bool) (p : Byte) (h : f ≠ g) :
    getFlag f (putFlag g b p) = getFlag f p := by
  simp [getFlag_putFlag, h]

/-- Z, N and the other flags after `SetZN` (R100). -/
theorem getFlag_putZN (f : Flag) (v p : Byte) :
    getFlag f (putZN v p) = if f = .n then v.getLsbD 7 else if f = .z then v == 0 else getFlag f p := by
  simp [putZN, getFlag_putFlag]

/-- The flags of the byte pushed (R14b). -/
theorem getFlag_packP (f : Flag) (b : Bool) (p : Byte) :
    getFlag f (packP b p) = if f = .b then b else if f = .u then true else getFlag f p := by
  cases f <;> cases b <;> simp [getFlag, packP, bitByte, Flag.pos]

/-- The flags after a pull (R14c). -/
theorem getFlag_unpackP (f : Flag) (m : Byte) :
    getFlag f (unpackP m) = if f = .b then false else if f = .u then true else getFlag f m := by
  cases f <;> simp [getFlag, unpackP, Flag.pos]

/-- A status byte is its eight flags. -/
theorem eq_of_getFlag {p q : Byte} (h : ∀ f, getFlag f p = getFlag f q) : p = q := by
  refine BitVec.eq_of_getLsbD_eq fun i hi => ?_
  have hc := h .c; have hz := h .z; have hI := h .i; have hd := h .d
  have hb := h .b; have hu := h .u; have hv := h .v; have hn := h .n
  simp only [getFlag, Flag.pos] at *
  match i, hi with
  | 0, _ => exact hc
  | 1, _ => exact hz
  | 2, _ => exact hI
  | 3, _ => exact hd
  | 4, _ => exact hb
  | 5, _ => exact hu
  | 6, _ => exact hv
  | 7, _ => exact hn

end Sys2Proof.Machine
end

