-- ==== Sys2Proof/Laws/Pipeline.lean ====
section
/-!
SUPPORT. What one picture dot can change (R261, R289): the parts of a dot one by one, then the dot, and any number of dots.
-/

namespace Sys2Proof.Machine

/-- What the rendering part of a dot keeps (R261 part 3): everything outside the Picture Engine, the counters, the
registers, the NMI logic, OAM and the front buffer. -/
structure RenderKeeps (s t : State) : Prop where
  cpu : t.cpu = s.cpu
  bus : t.bus = s.bus
  cart : t.cart = s.cart
  mapper : t.mapper = s.mapper
  ext : t.ext = s.ext
  dot : t.ppu.dot = s.ppu.dot
  scanline : t.ppu.scanline = s.ppu.scanline
  frame : t.ppu.frame = s.ppu.frame
  ctrl : t.ppu.ctrl = s.ppu.ctrl
  mask : t.ppu.mask = s.ppu.mask
  temp : t.ppu.t = s.ppu.t
  x : t.ppu.x = s.ppu.x
  w : t.ppu.w = s.ppu.w
  oam : t.ppu.oam = s.ppu.oam
  oamAddr : t.ppu.oamAddr = s.ppu.oamAddr
  readBuffer : t.ppu.readBuffer = s.ppu.readBuffer
  regLatch : t.ppu.regLatch = s.ppu.regLatch
  nmiOccurred : t.ppu.nmiOccurred = s.ppu.nmiOccurred
  nmiPrevious : t.ppu.nmiPrevious = s.ppu.nmiPrevious
  nmiDelay : t.ppu.nmiDelay = s.ppu.nmiDelay
  front : t.ppu.front = s.ppu.front

namespace RenderKeeps

theorem refl (s : State) : RenderKeeps s s := by constructor <;> rfl

theorem trans {s t u : State} (h : RenderKeeps s t) (k : RenderKeeps t u) : RenderKeeps s u :=
  ⟨k.cpu.trans h.cpu, k.bus.trans h.bus, k.cart.trans h.cart, k.mapper.trans h.mapper, k.ext.trans h.ext,
    k.dot.trans h.dot, k.scanline.trans h.scanline, k.frame.trans h.frame, k.ctrl.trans h.ctrl, k.mask.trans h.mask,
    k.temp.trans h.temp, k.x.trans h.x, k.w.trans h.w, k.oam.trans h.oam, k.oamAddr.trans h.oamAddr,
    k.readBuffer.trans h.readBuffer, k.regLatch.trans h.regLatch, k.nmiOccurred.trans h.nmiOccurred,
    k.nmiPrevious.trans h.nmiPrevious, k.nmiDelay.trans h.nmiDelay, k.front.trans h.front⟩

end RenderKeeps

theorem pixelDot_keeps (s : State) : RenderKeeps s (pixelDot s) := by
  unfold pixelDot
  split
  · constructor <;> rfl
  · exact .refl s

theorem fetchOperation_keeps (s : State) : RenderKeeps s (fetchOperation s) := by
  unfold fetchOperation
  split
  · constructor <;> rfl
  · constructor <;> rfl
  · constructor <;> rfl
  · constructor <;> rfl
  · constructor <;> rfl
  · exact .refl s

theorem backgroundDot_keeps (s : State) : RenderKeeps s (backgroundDot s) := by
  unfold backgroundDot
  split
  · exact RenderKeeps.trans (t := s.setPpu { s.ppu with tileData := s.ppu.tileData <<< 4 })
      (by constructor <;> rfl) (fetchOperation_keeps _)
  · exact .refl s

/-- Parts 3c and 3d of a dot move `v` only. -/
theorem scroll_eq (p : Ppu) : ∃ v, p.verticalCopy.scrollDot = { p with v := v } := by
  have h1 : ∃ v, p.verticalCopy = { p with v := v } := by
    unfold Ppu.verticalCopy
    split
    · exact ⟨_, rfl⟩
    · exact ⟨p.v, rfl⟩
  obtain ⟨v, hv⟩ := h1
  rw [hv]
  unfold Ppu.scrollDot
  split
  · exact ⟨_, rfl⟩
  · exact ⟨v, rfl⟩

theorem scroll_keeps (s : State) : RenderKeeps s (s.setPpu s.ppu.verticalCopy.scrollDot) := by
  obtain ⟨v, hv⟩ := scroll_eq s.ppu
  rw [hv]
  constructor <;> rfl

theorem spriteDot_keeps (s : State) : RenderKeeps s (spriteDot s) := by
  unfold spriteDot
  split
  · split
    · unfold evaluateSprites
      generalize scanSprites s = r
      constructor <;> rfl
    · constructor <;> rfl
  · exact .refl s

/-- The rendering part of a dot. -/
theorem renderDot_keeps (s : State) : RenderKeeps s (renderDot s) := by
  unfold renderDot
  split
  · exact (pixelDot_keeps s).trans ((backgroundDot_keeps _).trans ((scroll_keeps _).trans (spriteDot_keeps _)))
  · exact .refl s

/-- With rendering disabled there is no rendering part (R289). -/
theorem renderDot_off {s : State} (h : s.ppu.rendering = false) : renderDot s = s := by
  unfold renderDot; simp [h]

/-- The rendering switch reads `mask` only (R232). -/
theorem rendering_congr {p q : Ppu} (h : q.mask = p.mask) : q.rendering = p.rendering := by
  unfold Ppu.rendering; rw [h]

/-! ## The parts around rendering -/

/-- The delay's tick moves the delay and may request the NMI (R263). -/
theorem nmiDelayTick_eq (s : State) :
    ∃ n slot, nmiDelayTick s = (s.setPpu { s.ppu with nmiDelay := n }).setSlot slot ∧
      n = s.ppu.nmiDelay - 1 ∧ (slot = s.cpu.irqSlot ∨ slot = .nmi) := by
  unfold nmiDelayTick
  split
  · rename_i h
    exact ⟨s.ppu.nmiDelay, s.cpu.irqSlot, rfl, by omega, .inl rfl⟩
  · dsimp only
    split
    · exact ⟨s.ppu.nmiDelay - 1, .nmi, rfl, rfl, .inr rfl⟩
    · exact ⟨s.ppu.nmiDelay - 1, s.cpu.irqSlot, rfl, rfl, .inl rfl⟩

theorem advanceDot_eq (p : Ppu) :
    p.advanceDot =
      { p with dot := p.advanceDot.dot, scanline := p.advanceDot.scanline, frame := p.advanceDot.frame } := by
  unfold Ppu.advanceDot
  split_ifs <;> rfl

/-- The counters do not depend on the delay. -/
theorem advanceDot_nmiDelay (p : Ppu) (n : Nat) :
    ({ p with nmiDelay := n } : Ppu).advanceDot = { p.advanceDot with nmiDelay := n } := by
  have hr : ({ p with nmiDelay := n } : Ppu).rendering = p.rendering := rfl
  unfold Ppu.advanceDot
  rw [hr]
  dsimp only
  split_ifs <;> rfl

/-- The vertical-blank part of a dot leaves the counters and `mask` alone. -/
theorem vblankDot_keeps (p : Ppu) :
    p.vblankDot.dot = p.dot ∧ p.vblankDot.scanline = p.scanline ∧ p.vblankDot.frame = p.frame ∧
    p.vblankDot.ctrl = p.ctrl ∧ p.vblankDot.mask = p.mask ∧ p.vblankDot.v = p.v ∧ p.vblankDot.t = p.t ∧
    p.vblankDot.x = p.x ∧ p.vblankDot.w = p.w ∧ p.vblankDot.oam = p.oam ∧ p.vblankDot.tileData = p.tileData ∧
    p.vblankDot.sprCount = p.sprCount ∧ p.vblankDot.sprites = p.sprites ∧ p.vblankDot.oamAddr = p.oamAddr ∧
    p.vblankDot.readBuffer = p.readBuffer ∧ p.vblankDot.regLatch = p.regLatch := by
  unfold Ppu.vblankDot
  split_ifs <;> exact ⟨rfl, rfl, rfl, rfl, rfl, rfl, rfl, rfl, rfl, rfl, rfl, rfl, rfl, rfl, rfl, rfl⟩

/-- One dot: outside the Picture Engine only the interrupt slot may change, to NMI (R18, R261, R314). -/
theorem ppuStep_outside (s : State) :
    (ppuStep s).bus = s.bus ∧ (ppuStep s).cart = s.cart ∧ (ppuStep s).mapper = s.mapper ∧
    (ppuStep s).ext = s.ext ∧
    ((ppuStep s).cpu = s.cpu ∨ (ppuStep s).cpu = { s.cpu with irqSlot := .nmi }) := by
  obtain ⟨n, slot, he, -, hs⟩ := nmiDelayTick_eq s
  have k := renderDot_keeps ((nmiDelayTick s).setPpu (nmiDelayTick s).ppu.advanceDot)
  unfold ppuStep; dsimp only
  simp only [setPpu_bus, setPpu_cart, setPpu_mapper, setPpu_ext, setPpu_cpu]
  rw [k.bus, k.cart, k.mapper, k.ext, k.cpu, he]
  refine ⟨rfl, rfl, rfl, rfl, ?_⟩
  rcases hs with rfl | rfl
  · exact .inl rfl
  · exact .inr rfl

/-- One dot: the counters move as `Advance` says (R265), the registers and OAM stay. -/
theorem ppuStep_counters (s : State) :
    (ppuStep s).ppu.dot = s.ppu.advanceDot.dot ∧ (ppuStep s).ppu.scanline = s.ppu.advanceDot.scanline ∧
    (ppuStep s).ppu.frame = s.ppu.advanceDot.frame ∧ (ppuStep s).ppu.ctrl = s.ppu.ctrl ∧
    (ppuStep s).ppu.mask = s.ppu.mask ∧ (ppuStep s).ppu.t = s.ppu.t ∧ (ppuStep s).ppu.x = s.ppu.x ∧
    (ppuStep s).ppu.w = s.ppu.w ∧ (ppuStep s).ppu.oam = s.ppu.oam ∧ (ppuStep s).ppu.oamAddr = s.ppu.oamAddr ∧
    (ppuStep s).ppu.readBuffer = s.ppu.readBuffer ∧ (ppuStep s).ppu.regLatch = s.ppu.regLatch := by
  obtain ⟨n, slot, he, -, -⟩ := nmiDelayTick_eq s
  have k := renderDot_keeps ((nmiDelayTick s).setPpu (nmiDelayTick s).ppu.advanceDot)
  have v := vblankDot_keeps (renderDot ((nmiDelayTick s).setPpu (nmiDelayTick s).ppu.advanceDot)).ppu
  have ha : (nmiDelayTick s).ppu.advanceDot = { s.ppu.advanceDot with nmiDelay := n } := by
    rw [he]; exact advanceDot_nmiDelay s.ppu n
  have hd := advanceDot_eq s.ppu
  unfold ppuStep; dsimp only
  simp only [setPpu_ppu]
  rw [v.1, v.2.1, v.2.2.1, v.2.2.2.1, v.2.2.2.2.1, v.2.2.2.2.2.2.1, v.2.2.2.2.2.2.2.1, v.2.2.2.2.2.2.2.2.1,
    v.2.2.2.2.2.2.2.2.2.1, v.2.2.2.2.2.2.2.2.2.2.2.2.2.1, v.2.2.2.2.2.2.2.2.2.2.2.2.2.2.1,
    v.2.2.2.2.2.2.2.2.2.2.2.2.2.2.2, k.dot, k.scanline, k.frame, k.ctrl, k.mask, k.temp, k.x, k.w, k.oam, k.oamAddr,
    k.readBuffer, k.regLatch]
  simp only [setPpu_ppu]
  rw [ha]
  refine ⟨rfl, rfl, rfl, ?_, ?_, ?_, ?_, ?_, ?_, ?_, ?_, ?_⟩
  all_goals dsimp only
  all_goals rw [hd]

/-- What every dot keeps, any number of dots keeps. -/
theorem runDots_keeps {R : State → Prop} (h : ∀ s, R s → R (ppuStep s)) : ∀ (n : Nat) (s : State), R s → R (runDots n s)
  | 0, _, hs => hs
  | n + 1, s, hs => runDots_keeps h n (ppuStep s) (h s hs)

theorem runDots_succ (n : Nat) (s : State) : runDots (n + 1) s = runDots n (ppuStep s) := rfl

theorem runDots_add (m n : Nat) (s : State) : runDots (m + n) s = runDots n (runDots m s) := by
  induction m generalizing s with
  | zero => simp [runDots]
  | succ m ih => rw [Nat.succ_add, runDots_succ, ih, runDots_succ]

@[simp] theorem runAudio_eq (n : Nat) (s : State) : runAudio n s = s := by
  induction n generalizing s with
  | zero => rfl
  | succ n ih => exact ih s

/-- The dots that follow a CPU step (R300). -/
theorem afterCpu_eq (c : Nat) (s : State) : afterCpu c s = runDots (3 * c) s := by
  simp [afterCpu, Config.dotsPerCycle]

/-- Any number of dots: outside the Picture Engine only the interrupt slot may change, to NMI. -/
theorem runDots_outside (n : Nat) (s : State) :
    (runDots n s).bus = s.bus ∧ (runDots n s).cart = s.cart ∧ (runDots n s).mapper = s.mapper ∧
    (runDots n s).ext = s.ext ∧
    ((runDots n s).cpu = s.cpu ∨ (runDots n s).cpu = { s.cpu with irqSlot := .nmi }) := by
  refine runDots_keeps
    (R := fun t => t.bus = s.bus ∧ t.cart = s.cart ∧ t.mapper = s.mapper ∧ t.ext = s.ext ∧
      (t.cpu = s.cpu ∨ t.cpu = { s.cpu with irqSlot := .nmi })) ?_ n s ⟨rfl, rfl, rfl, rfl, .inl rfl⟩
  rintro t ⟨h1, h2, h3, h4, h5⟩
  obtain ⟨g1, g2, g3, g4, g5⟩ := ppuStep_outside t
  refine ⟨g1.trans h1, g2.trans h2, g3.trans h3, g4.trans h4, ?_⟩
  rcases g5 with g5 | g5
  · rw [g5]; exact h5
  · rw [g5]; rcases h5 with h5 | h5 <;> rw [h5] <;> exact .inr rfl

theorem runDots_mask (n : Nat) (s : State) : (runDots n s).ppu.mask = s.ppu.mask :=
  runDots_keeps (R := fun t => t.ppu.mask = s.ppu.mask)
    (fun t ht => (ppuStep_counters t).2.2.2.2.1.trans ht) n s rfl

/-! ## The invariant -/

theorem advanceDot_ok {p : Ppu} (h : p.Ok) : p.advanceDot.Ok := by
  have hd := h.dot
  have hs := h.scanline
  unfold Ppu.advanceDot
  split_ifs
  all_goals
    refine ⟨?_, ?_, h.sprCount, h.sprites, h.nmiDelay, h.nmiPrevious, h.atBits, h.oam, h.front, h.back⟩
    · dsimp only; omega
    · dsimp only; omega

theorem nmiDelayTick_ok {s : State} (h : s.ppu.Ok) : (nmiDelayTick s).ppu.Ok := by
  obtain ⟨n, slot, he, hn, -⟩ := nmiDelayTick_eq s
  have hd := h.nmiDelay
  rw [he]
  exact ⟨h.dot, h.scanline, h.sprCount, h.sprites, by dsimp only [setSlot_ppu, setPpu_ppu]; omega, h.nmiPrevious, h.atBits,
    h.oam, h.front, h.back⟩

theorem pixelDot_ok {s : State} (h : s.ppu.Ok) : (pixelDot s).ppu.Ok := by
  unfold pixelDot
  split
  · rename_i hv
    simp only [Ppu.visibleLine, Ppu.visibleDot, Bool.and_eq_true, decide_eq_true_eq] at hv
    refine ⟨h.dot, h.scanline, h.sprCount, h.sprites, h.nmiDelay, h.nmiPrevious, h.atBits, h.oam, h.front,
      h.back.write ?_ _⟩
    simp only [pixelIndex, Config.fbWidth, Config.fbHeight]
    omega
  · exact h

theorem atBits_shifted (b : BitVec 4) : b <<< 2 &&& 3 = 0 := by revert b; decide

theorem backgroundDot_ok {s : State} (h : s.ppu.Ok) : (backgroundDot s).ppu.Ok := by
  unfold backgroundDot
  split
  · unfold fetchOperation
    split
    case h_2 =>
      exact ⟨h.dot, h.scanline, h.sprCount, h.sprites, h.nmiDelay, h.nmiPrevious, atBits_shifted _, h.oam, h.front, h.back⟩
    all_goals
      exact ⟨h.dot, h.scanline, h.sprCount, h.sprites, h.nmiDelay, h.nmiPrevious, h.atBits, h.oam, h.front, h.back⟩
  · exact h

theorem evaluateSlot_length (s : State) (acc : List Sprite × Nat) (i : Nat) :
    (evaluateSlot s acc i).1.length = acc.1.length := by
  unfold evaluateSlot; dsimp only
  split_ifs <;> simp

theorem foldl_evaluateSlot_length (s : State) (l : List Nat) (acc : List Sprite × Nat) :
    (l.foldl (evaluateSlot s) acc).1.length = acc.1.length := by
  induction l generalizing acc with
  | nil => rfl
  | cons i l ih => rw [List.foldl_cons, ih, evaluateSlot_length]

theorem scanSprites_length (s : State) : (scanSprites s).1.length = s.ppu.sprites.length := by
  unfold scanSprites
  exact foldl_evaluateSlot_length s _ _

theorem spriteDot_ok {s : State} (h : s.ppu.Ok) : (spriteDot s).ppu.Ok := by
  unfold spriteDot
  split
  · split
    · have hl := scanSprites_length s
      unfold evaluateSprites
      generalize scanSprites s = r at hl
      exact ⟨h.dot, h.scanline, Nat.min_le_right _ _, hl.trans h.sprites, h.nmiDelay, h.nmiPrevious, h.atBits, h.oam,
        h.front, h.back⟩
    · exact ⟨h.dot, h.scanline, Nat.zero_le _, h.sprites, h.nmiDelay, h.nmiPrevious, h.atBits, h.oam, h.front, h.back⟩
  · exact h

theorem renderDot_ok {s : State} (h : s.ppu.Ok) : (renderDot s).ppu.Ok := by
  unfold renderDot
  split
  · refine spriteDot_ok ?_
    have hb := backgroundDot_ok (pixelDot_ok h)
    obtain ⟨v, hv⟩ := scroll_eq (backgroundDot (pixelDot s)).ppu
    simp only [setPpu_ppu, hv]
    exact hb.registers v _ _ _ _ _ _
  · exact h

theorem vblankDot_ok {p : Ppu} (h : p.Ok) : p.vblankDot.Ok := by
  unfold Ppu.vblankDot
  split_ifs
  · have hs : ({ p with front := p.back, back := p.front } : Ppu).Ok :=
      ⟨h.dot, h.scanline, h.sprCount, h.sprites, h.nmiDelay, h.nmiPrevious, h.atBits, h.oam, h.back, h.front⟩
    exact hs.changeNmi p.ctrl true
  · have hc := h.changeNmi p.ctrl false
    exact ⟨hc.dot, hc.scanline, hc.sprCount, hc.sprites, hc.nmiDelay, hc.nmiPrevious, hc.atBits, hc.oam, hc.front, hc.back⟩
  · exact h

/-- One dot keeps the invariant. -/
theorem ppuStep_inv {s : State} (h : Inv s) : Inv (ppuStep s) := by
  obtain ⟨g1, g2, g3, g4, g5⟩ := ppuStep_outside s
  refine ⟨?_, by rw [g1]; exact h.bus, by rw [g2]; exact h.cart, by rw [g3, g2]; exact h.mapper, ?_, by rw [g4]; exact h.ext⟩
  · rcases g5 with g5 | g5 <;> rw [g5]
    · exact h.cpu
    · exact ⟨h.cpu.unusedSet, h.cpu.breakClear⟩
  · exact vblankDot_ok (renderDot_ok (advanceDot_ok (nmiDelayTick_ok h.ppu)))

theorem runDots_inv {s : State} (h : Inv s) (n : Nat) : Inv (runDots n s) :=
  runDots_keeps (R := Inv) (fun _ ht => ppuStep_inv ht) n s h

end Sys2Proof.Machine
end

