-- ==== Sys2Proof/Laws/Orchestrator.lean ====
section
/-!
SUPPORT. What the outside's call before a step can change (R315), what the halted machine of a failing step is (R312), and
the cases of one turn of `stepFrame()`'s loop (R301).
-/

namespace Sys2Proof.Machine

/-- The outside's call moves the interrupt slot and the schedule, nothing else. -/
theorem takeIrqCall_eq (s : State) :
    ∃ slot calls, takeIrqCall s =
      { s with cpu := { s.cpu with irqSlot := slot }, ext := { s.ext with irqCalls := calls } } := by
  unfold takeIrqCall
  split
  · exact ⟨s.cpu.irqSlot, s.ext.irqCalls, rfl⟩
  · rename_i r _
    unfold triggerIrq
    split_ifs
    · exact ⟨s.cpu.irqSlot, r, rfl⟩
    · exact ⟨s.cpu.irqSlot, r, rfl⟩
    · exact ⟨.irq, r, rfl⟩
  · rename_i r _
    exact ⟨s.cpu.irqSlot, r, rfl⟩

/-- A failing step moves nothing of the CPU but what the outside's call did. -/
@[simp] theorem halted_cpu (s : State) : (halted s).cpu = (takeIrqCall s).cpu := afterRead_cpu _ _

/-- Where reading PC has no side effect, a failing step changes nothing at all. -/
theorem halted_of_quiet {s : State} (h : quiet s.cpu.pc = true) : halted s = takeIrqCall s := afterRead_quiet h

theorem halted_cart (s : State) : (halted s).cart = s.cart := by
  obtain ⟨_, _, h⟩ := takeIrqCall_eq s
  unfold halted; rw [afterRead_cart, h]

theorem halted_mapper (s : State) : (halted s).mapper = s.mapper := by
  obtain ⟨_, _, h⟩ := takeIrqCall_eq s
  unfold halted; rw [afterRead_mapper, h]

/-- One turn of the loop: the step goes on within the frame, ends it, or stops it. -/
theorem runToFrame_succ (f n : Nat) (s : State) :
    (∃ t, step s = .next t ∧ t.ppu.frame = f ∧ runToFrame f (n + 1) s = runToFrame f n t) ∨
    (∃ t, step s = .next t ∧ t.ppu.frame ≠ f ∧ runToFrame f (n + 1) s = .completed t) ∨
    (∃ e, step s = .fault e ∧ runToFrame f (n + 1) s = .aborted e (halted s)) ∨
    (∃ r, step s = .refused r ∧ runToFrame f (n + 1) s = .refused r) := by
  have turn : runToFrame f (n + 1) s =
      match step s with
      | .next t => if t.ppu.frame = f then runToFrame f n t else .completed t
      | .fault e => .aborted e (halted s)
      | .refused r => .refused r := rfl
  rw [turn]
  cases step s with
  | next t =>
    by_cases h : t.ppu.frame = f
    · exact .inl ⟨t, rfl, h, if_pos h⟩
    · exact .inr (.inl ⟨t, rfl, h, if_neg h⟩)
  | fault e => exact .inr (.inr (.inl ⟨e, rfl, rfl⟩))
  | refused r => exact .inr (.inr (.inr ⟨r, rfl, rfl⟩))

end Sys2Proof.Machine
end

