-- ==== Sys2Proof/Laws/PerInstr.lean ====
section
/-!
SUPPORT. The family Announced, one lemma per instruction: the opcode matrix entry of a well-formed instruction's opcode
announces exactly its operand bytes and rebuilds it from them (R80, R81).
-/

namespace Sys2Proof.Laws.Announced

/-- A well-formed instruction's opcode announces its operand bytes. -/
def Statement (i : Instr) : Prop := i.wellFormed = true → Announces i i.operandBytes (opShape i.opcode)

theorem adc (o : AluOperand) : Statement (.adc o) := fun _ => by
  cases o <;> exact ⟨_, rfl, rfl⟩

theorem sbc (o : AluOperand) : Statement (.sbc o) := fun _ => by
  cases o <;> exact ⟨_, rfl, rfl⟩

theorem and (o : AluOperand) : Statement (.and o) := fun _ => by
  cases o <;> exact ⟨_, rfl, rfl⟩

theorem ora (o : AluOperand) : Statement (.ora o) := fun _ => by
  cases o <;> exact ⟨_, rfl, rfl⟩

theorem eor (o : AluOperand) : Statement (.eor o) := fun _ => by
  cases o <;> exact ⟨_, rfl, rfl⟩

theorem bit (o : BitOperand) : Statement (.bit o) := fun _ => by
  cases o <;> exact ⟨_, rfl, rfl⟩

theorem inc (o : RmwOperand) : Statement (.inc o) := fun _ => by
  cases o <;> exact ⟨_, rfl, rfl⟩

theorem dec (o : RmwOperand) : Statement (.dec o) := fun _ => by
  cases o <;> exact ⟨_, rfl, rfl⟩

theorem inx : Statement .inx := fun _ => ⟨rfl, rfl⟩

theorem iny : Statement .iny := fun _ => ⟨rfl, rfl⟩

theorem dex : Statement .dex := fun _ => ⟨rfl, rfl⟩

theorem dey : Statement .dey := fun _ => ⟨rfl, rfl⟩

theorem asl (o : ShiftOperand) : Statement (.asl o) := fun _ => by
  cases o with
  | acc => exact ⟨rfl, rfl⟩
  | mem m => cases m <;> exact ⟨_, rfl, rfl⟩

theorem lsr (o : ShiftOperand) : Statement (.lsr o) := fun _ => by
  cases o with
  | acc => exact ⟨rfl, rfl⟩
  | mem m => cases m <;> exact ⟨_, rfl, rfl⟩

theorem rol (o : ShiftOperand) : Statement (.rol o) := fun _ => by
  cases o with
  | acc => exact ⟨rfl, rfl⟩
  | mem m => cases m <;> exact ⟨_, rfl, rfl⟩

theorem ror (o : ShiftOperand) : Statement (.ror o) := fun _ => by
  cases o with
  | acc => exact ⟨rfl, rfl⟩
  | mem m => cases m <;> exact ⟨_, rfl, rfl⟩

theorem cmp (o : AluOperand) : Statement (.cmp o) := fun _ => by
  cases o <;> exact ⟨_, rfl, rfl⟩

theorem cpx (o : CpOperand) : Statement (.cpx o) := fun _ => by
  cases o <;> exact ⟨_, rfl, rfl⟩

theorem cpy (o : CpOperand) : Statement (.cpy o) := fun _ => by
  cases o <;> exact ⟨_, rfl, rfl⟩

theorem lda (o : AluOperand) : Statement (.lda o) := fun _ => by
  cases o <;> exact ⟨_, rfl, rfl⟩

theorem ldx (o : LdxOperand) : Statement (.ldx o) := fun _ => by
  cases o <;> exact ⟨_, rfl, rfl⟩

theorem ldy (o : LdyOperand) : Statement (.ldy o) := fun _ => by
  cases o <;> exact ⟨_, rfl, rfl⟩

theorem sta (o : StaOperand) : Statement (.sta o) := fun _ => by
  cases o <;> exact ⟨_, rfl, rfl⟩

theorem stx (o : StxOperand) : Statement (.stx o) := fun _ => by
  cases o <;> exact ⟨_, rfl, rfl⟩

theorem sty (o : StyOperand) : Statement (.sty o) := fun _ => by
  cases o <;> exact ⟨_, rfl, rfl⟩

theorem tax : Statement .tax := fun _ => ⟨rfl, rfl⟩

theorem tay : Statement .tay := fun _ => ⟨rfl, rfl⟩

theorem txa : Statement .txa := fun _ => ⟨rfl, rfl⟩

theorem tya : Statement .tya := fun _ => ⟨rfl, rfl⟩

theorem tsx : Statement .tsx := fun _ => ⟨rfl, rfl⟩

theorem txs : Statement .txs := fun _ => ⟨rfl, rfl⟩

theorem pha : Statement .pha := fun _ => ⟨rfl, rfl⟩

theorem php : Statement .php := fun _ => ⟨rfl, rfl⟩

theorem pla : Statement .pla := fun _ => ⟨rfl, rfl⟩

theorem plp : Statement .plp := fun _ => ⟨rfl, rfl⟩

theorem bcc (d : Byte) : Statement (.bcc d) := fun _ => ⟨d, rfl, rfl⟩

theorem bcs (d : Byte) : Statement (.bcs d) := fun _ => ⟨d, rfl, rfl⟩

theorem beq (d : Byte) : Statement (.beq d) := fun _ => ⟨d, rfl, rfl⟩

theorem bne (d : Byte) : Statement (.bne d) := fun _ => ⟨d, rfl, rfl⟩

theorem bmi (d : Byte) : Statement (.bmi d) := fun _ => ⟨d, rfl, rfl⟩

theorem bpl (d : Byte) : Statement (.bpl d) := fun _ => ⟨d, rfl, rfl⟩

theorem bvc (d : Byte) : Statement (.bvc d) := fun _ => ⟨d, rfl, rfl⟩

theorem bvs (d : Byte) : Statement (.bvs d) := fun _ => ⟨d, rfl, rfl⟩

theorem jmp (o : JmpOperand) : Statement (.jmp o) := fun _ => by
  cases o <;> exact ⟨_, rfl, rfl⟩

theorem jsr (a : Word) : Statement (.jsr a) := fun _ => ⟨a, rfl, rfl⟩

theorem rts : Statement .rts := fun _ => ⟨rfl, rfl⟩

theorem rti : Statement .rti := fun _ => ⟨rfl, rfl⟩

theorem brk : Statement .brk := fun _ => ⟨rfl, rfl⟩

theorem clc : Statement .clc := fun _ => ⟨rfl, rfl⟩

theorem sec : Statement .sec := fun _ => ⟨rfl, rfl⟩

theorem cli : Statement .cli := fun _ => ⟨rfl, rfl⟩

theorem sei : Statement .sei := fun _ => ⟨rfl, rfl⟩

theorem cld : Statement .cld := fun _ => ⟨rfl, rfl⟩

theorem sed : Statement .sed := fun _ => ⟨rfl, rfl⟩

theorem clv : Statement .clv := fun _ => ⟨rfl, rfl⟩

theorem nop : Statement .nop := fun _ => ⟨rfl, rfl⟩

theorem illegal (op : Byte) : Statement (.illegal op) := fun h => by
  show Announces (.illegal op) [] (opShape op)
  rw [opShape_bad h]
  exact ⟨rfl, rfl⟩

end Sys2Proof.Laws.Announced
end

