-- ==== Sys2Proof/Laws/Reset.lean ====
section
/-!
SUPPORT. The state after reset is what the spec's power-on sequence builds (R341, R342), and it meets the invariant's
memory part; what `reset()` does in one equation (R340).
-/

namespace Sys2Proof.Machine

/-- `State.reset` is `reset()` of the machine built around the blank image. -/
theorem reset_is_resetCall : State.reset = resetCall (State.powerOn RomImage.blank) := by rfl

/-- The blank image is one the loader accepts. -/
theorem blank_valid : RomImage.blank.valid = true := by rfl

/-- Every storage of `State.reset` is in canonical form: nothing is listed. -/
theorem reset_memory :
    Memory.wf State.reset.bus.ram = true ∧ Memory.wf State.reset.bus.nt = true ∧
    Memory.wf State.reset.bus.pal = true ∧ Memory.wf State.reset.cart.prg = true ∧
    Memory.wf State.reset.cart.sram = true ∧ Memory.wf State.reset.cart.chr = true ∧
    Memory.wf State.reset.ppu.oam = true ∧ Memory.wf State.reset.ppu.front = true ∧
    Memory.wf State.reset.ppu.back = true := ⟨rfl, rfl, rfl, rfl, rfl, rfl, rfl, rfl, rfl⟩

/-- `reset()`: the registers R340 names, PC from the vector; the vector reads change nothing. -/
theorem resetCall_eq (s : State) :
    resetCall s =
      { s with
        cpu :=
          { s.cpu with
            pc := joinBytes (peek s 0xFFFD) (peek s 0xFFFC), sp := 0xFD, p := 0x24, irqSlot := .none, stall := 0 } } := by
  unfold resetCall
  rw [read16_vector (by decide) (by decide)]
  rfl

end Sys2Proof.Machine
end

