-- ==== Sys2Proof/Tests/Slice0.lean ====
section
/-!
SUPPORT. Tests. Expected results come from spec 95_test_vectors.md (the vector's name stands in the comment) or from the
Encoding tables of the rules; and, for each statement with hypotheses, a witness: a state and operands that meet them.
-/

namespace Sys2Proof.Tests

open Sys2Proof Sys2Proof.Machine

/-! ## Well-formedness -/

theorem test_official_byte_is_not_illegal : (Instr.illegal 0xA9).wellFormed = false := by decide

theorem test_official_byte_is_not_illegal_brk : (Instr.illegal 0x00).wellFormed = false := by decide

theorem test_illegal_byte_is_well_formed : (Instr.illegal 0xFF).wellFormed = true := by decide

/-! ## Decoding: words written out from the Encoding tables, opcode bit by bit, then the operand bytes -/

theorem test_decode_adc_abx : decode [0b01111101, 0x34, 0x12] = .ok (.adc (.abx 0x1234), []) := by decide

theorem test_decode_sbc_izy : decode [0b11110001, 0x10] = .ok (.sbc (.izy 0x10), []) := by decide

theorem test_decode_bit_abs : decode [0b00101100, 0x34, 0x12] = .ok (.bit (.abs 0x1234), []) := by decide

theorem test_decode_inc_zpx : decode [0b11110110, 0x10] = .ok (.inc (.zpx 0x10), []) := by decide

theorem test_decode_ror_acc : decode [0b01101010, 0x10] = .ok (.ror .acc, [0x10]) := by decide

theorem test_decode_rol_abs : decode [0b00101110, 0x34, 0x12] = .ok (.rol (.mem (.abs 0x1234)), []) := by decide

theorem test_decode_cmp_izx : decode [0b11000001, 0x10] = .ok (.cmp (.izx 0x10), []) := by decide

theorem test_decode_cpy_imm : decode [0b11000000, 0x10] = .ok (.cpy (.imm 0x10), []) := by decide

theorem test_decode_ldx_aby : decode [0b10111110, 0x34, 0x12] = .ok (.ldx (.aby 0x1234), []) := by decide

theorem test_decode_ldy_abx : decode [0b10111100, 0x34, 0x12] = .ok (.ldy (.abx 0x1234), []) := by decide

theorem test_decode_sta_aby : decode [0b10011001, 0x34, 0x12] = .ok (.sta (.aby 0x1234), []) := by decide

theorem test_decode_stx_zpy : decode [0b10010110, 0x10] = .ok (.stx (.zpy 0x10), []) := by decide

theorem test_decode_txs : decode [0b10011010] = .ok (.txs, []) := by decide

theorem test_decode_plp : decode [0b00101000] = .ok (.plp, []) := by decide

theorem test_decode_bvs : decode [0b01110000, 0x80] = .ok (.bvs 0x80, []) := by decide

theorem test_decode_jsr : decode [0b00100000, 0x34, 0x12] = .ok (.jsr 0x1234, []) := by decide

theorem test_decode_jmp_ind : decode [0b01101100, 0x34, 0x12] = .ok (.jmp (.ind 0x1234), []) := by decide

theorem test_decode_sed : decode [0b11111000] = .ok (.sed, []) := by decide

theorem test_decode_illegal : decode [0b11101011, 0x01] = .ok (.illegal 0xEB, [0x01]) := by decide

theorem test_table_word : decodeTableWord 24 0x12348D = some (.sta (.abs 0x1234)) := by decide

/-! ## One step: the vectors of spec 95_test_vectors.md -/

/-- The CPU of the vectors' default start state. -/
def cpu0 : Cpu :=
  { a := 0, x := 0, y := 0, sp := 0xFD, pc := 0x0200, p := 0x24, irqSlot := .none, stall := 0, cycles := 0 }

/-- The vectors' machine: `cells` in work RAM and the code where PC points. -/
def boot (c : Cpu) (code : List Byte) (cells : List (Nat × Byte)) : State :=
  let ram := cells.foldl (fun m e => Memory.write m e.1 e.2) []
  placeBytes { State.reset with cpu := c, bus := { State.reset.bus with ram := ram } } c.pc code

/-- The CPU after a step, and what reads of some addresses give. -/
def ended (r : Result) (addrs : List Word) : Option (Cpu × List Byte) :=
  match r with
  | .next t => some (t.cpu, addrs.map (peek t))
  | .fault _ => none
  | .refused _ => none

/-- The fault a step stopped with. -/
def stopped (r : Result) : Option Fault :=
  match r with
  | .next _ => none
  | .fault f => some f
  | .refused _ => none

/-- V3: `ADC #$80`. -/
theorem test_adc_signed_overflow :
    ended (cpuStep (boot { cpu0 with a := 0x80 } [0x69, 0x80] [])) [] =
      some ({ cpu0 with pc := 0x0202, p := 0x67, cycles := 2 }, []) := by decide

/-- V8: `ADC $02FF,X`. -/
theorem test_adc_page_cross :
    ended (cpuStep (boot { cpu0 with a := 0x01, x := 0x01 } [0x7D, 0xFF, 0x02] [(0x0300, 0x02)])) [] =
      some ({ cpu0 with a := 0x03, x := 0x01, pc := 0x0203, cycles := 5 }, []) := by decide

/-- V10: `SBC #$01`. -/
theorem test_sbc_signed_overflow :
    ended (cpuStep (boot { cpu0 with a := 0x80, p := 0x25 } [0xE9, 0x01] [])) [] =
      some ({ cpu0 with a := 0x7F, p := 0x65, pc := 0x0202, cycles := 2 }, []) := by decide

/-- V14: `SBC #$01`. -/
theorem test_sbc_ignores_decimal :
    ended (cpuStep (boot { cpu0 with a := 0x10, p := 0x2D } [0xE9, 0x01] [])) [] =
      some ({ cpu0 with a := 0x0F, p := 0x2D, pc := 0x0202, cycles := 2 }, []) := by decide

/-- V16: `AND #$00`. -/
theorem test_and_keeps_carry :
    ended (cpuStep (boot { cpu0 with a := 0xFF, p := 0xA5 } [0x29, 0x00] [])) [] =
      some ({ cpu0 with p := 0x27, pc := 0x0202, cycles := 2 }, []) := by decide

/-- V17: `ORA #$80`. -/
theorem test_ora :
    ended (cpuStep (boot { cpu0 with a := 0x01 } [0x09, 0x80] [])) [] =
      some ({ cpu0 with a := 0x81, pc := 0x0202, p := 0xA4, cycles := 2 }, []) := by decide

/-- V18: `EOR #$FF`. -/
theorem test_eor_zero :
    ended (cpuStep (boot { cpu0 with a := 0xFF } [0x49, 0xFF] [])) [] =
      some ({ cpu0 with pc := 0x0202, p := 0x26, cycles := 2 }, []) := by decide

/-- V19: `BIT $10`. -/
theorem test_bit_copies_memory_bits :
    ended (cpuStep (boot { cpu0 with a := 0x01 } [0x24, 0x10] [(0x0010, 0xC0)])) [] =
      some ({ cpu0 with a := 0x01, pc := 0x0202, p := 0xE6, cycles := 3 }, []) := by decide

/-- V20: `BIT $0300`. -/
theorem test_bit_clears :
    ended (cpuStep (boot { cpu0 with a := 0xFF, p := 0xE4 } [0x2C, 0x00, 0x03] [(0x0300, 0x3F)])) [] =
      some ({ cpu0 with a := 0xFF, pc := 0x0203, cycles := 4 }, []) := by decide

/-- V21: `INC $10`. -/
theorem test_inc_wraps :
    ended (cpuStep (boot cpu0 [0xE6, 0x10] [(0x0010, 0xFF)])) [0x0010] =
      some ({ cpu0 with pc := 0x0202, p := 0x26, cycles := 5 }, [0x00]) := by decide

/-- V23: `INC $02FF,X`. -/
theorem test_inc_indexed_fixed_cost :
    ended (cpuStep (boot { cpu0 with x := 0x01 } [0xFE, 0xFF, 0x02] [(0x0300, 0x01)])) [0x0300] =
      some ({ cpu0 with x := 0x01, pc := 0x0203, cycles := 7 }, [0x02]) := by decide

/-- V24: `DEC $10`. -/
theorem test_dec_wraps :
    ended (cpuStep (boot cpu0 [0xC6, 0x10] [(0x0010, 0x00)])) [0x0010] =
      some ({ cpu0 with pc := 0x0202, p := 0xA4, cycles := 5 }, [0xFF]) := by decide

/-- V26: `INX`. -/
theorem test_inx_wraps :
    ended (cpuStep (boot { cpu0 with x := 0xFF } [0xE8] [])) [] =
      some ({ cpu0 with pc := 0x0201, p := 0x26, cycles := 2 }, []) := by decide

/-- V27: `INY`. -/
theorem test_iny_negative :
    ended (cpuStep (boot { cpu0 with y := 0x7F } [0xC8] [])) [] =
      some ({ cpu0 with y := 0x80, pc := 0x0201, p := 0xA4, cycles := 2 }, []) := by decide

/-- V28: `DEX`. -/
theorem test_dex_wraps :
    ended (cpuStep (boot { cpu0 with x := 0x00 } [0xCA] [])) [] =
      some ({ cpu0 with x := 0xFF, pc := 0x0201, p := 0xA4, cycles := 2 }, []) := by decide

/-- V29: `DEY`. -/
theorem test_dey_zero :
    ended (cpuStep (boot { cpu0 with y := 0x01 } [0x88] [])) [] =
      some ({ cpu0 with pc := 0x0201, p := 0x26, cycles := 2 }, []) := by decide

/-- V31: `ASL A`. -/
theorem test_asl_carry_and_zero :
    ended (cpuStep (boot { cpu0 with a := 0x80 } [0x0A] [])) [] =
      some ({ cpu0 with pc := 0x0201, p := 0x27, cycles := 2 }, []) := by decide

/-- V33: `ASL $02FF,X`. -/
theorem test_asl_memory_indexed :
    ended (cpuStep (boot { cpu0 with x := 0x01 } [0x1E, 0xFF, 0x02] [(0x0300, 0xFF)])) [0x0300] =
      some ({ cpu0 with x := 0x01, pc := 0x0203, p := 0xA5, cycles := 7 }, [0xFE]) := by decide

/-- V35: `LSR A`. -/
theorem test_lsr_clears_negative :
    ended (cpuStep (boot { cpu0 with a := 0x01, p := 0xA4 } [0x4A] [])) [] =
      some ({ cpu0 with p := 0x27, pc := 0x0201, cycles := 2 }, []) := by decide

/-- V36: `LSR $10`. -/
theorem test_lsr_memory :
    ended (cpuStep (boot cpu0 [0x46, 0x10] [(0x0010, 0xFF)])) [0x0010] =
      some ({ cpu0 with pc := 0x0202, p := 0x25, cycles := 5 }, [0x7F]) := by decide

/-- V37: `ROL A`. -/
theorem test_rol_carry_in :
    ended (cpuStep (boot { cpu0 with a := 0x80, p := 0x25 } [0x2A] [])) [] =
      some ({ cpu0 with a := 0x01, p := 0x25, pc := 0x0201, cycles := 2 }, []) := by decide

/-- V39: `ROL $10`. -/
theorem test_rol_memory :
    ended (cpuStep (boot { cpu0 with p := 0x25 } [0x26, 0x10] [(0x0010, 0x00)])) [0x0010] =
      some ({ cpu0 with pc := 0x0202, cycles := 5 }, [0x01]) := by decide

/-- V40: `ROR A`. -/
theorem test_ror_carry_in :
    ended (cpuStep (boot { cpu0 with a := 0x01, p := 0x25 } [0x6A] [])) [] =
      some ({ cpu0 with a := 0x80, p := 0xA5, pc := 0x0201, cycles := 2 }, []) := by decide

/-- V42: `ROR $0300`. -/
theorem test_ror_memory :
    ended (cpuStep (boot { cpu0 with p := 0x25 } [0x6E, 0x00, 0x03] [(0x0300, 0x00)])) [0x0300] =
      some ({ cpu0 with p := 0xA4, pc := 0x0203, cycles := 6 }, [0x80]) := by decide

/-- V46: `CMP #$01`. -/
theorem test_cmp_is_unsigned :
    ended (cpuStep (boot { cpu0 with a := 0x80, p := 0x64 } [0xC9, 0x01] [])) [] =
      some ({ cpu0 with a := 0x80, p := 0x65, pc := 0x0202, cycles := 2 }, []) := by decide

/-- V47: `CMP ($10),Y`. -/
theorem test_cmp_indirect_page_cross :
    ended (cpuStep (boot { cpu0 with a := 0x05, y := 0x01 } [0xD1, 0x10]
        [(0x0010, 0xFF), (0x0011, 0x02), (0x0300, 0x05)])) [] =
      some ({ cpu0 with a := 0x05, y := 0x01, pc := 0x0202, p := 0x27, cycles := 6 }, []) := by decide

/-- V48: `CPX #$10`. -/
theorem test_cpx_borrow :
    ended (cpuStep (boot { cpu0 with x := 0x0F } [0xE0, 0x10] [])) [] =
      some ({ cpu0 with x := 0x0F, pc := 0x0202, p := 0xA4, cycles := 2 }, []) := by decide

/-- V50: `CPY #$FF`. -/
theorem test_cpy_equal :
    ended (cpuStep (boot { cpu0 with y := 0xFF } [0xC0, 0xFF] [])) [] =
      some ({ cpu0 with y := 0xFF, pc := 0x0202, p := 0x27, cycles := 2 }, []) := by decide

/-- V63: `LDA ($FE,X)`. -/
theorem test_lda_izx_pointer_wraps :
    ended (cpuStep (boot { cpu0 with x := 0x01 } [0xA1, 0xFE]
        [(0x0000, 0x03), (0x00FF, 0x00), (0x0100, 0x07), (0x0300, 0x45)])) [] =
      some ({ cpu0 with x := 0x01, a := 0x45, pc := 0x0202, cycles := 6 }, []) := by decide

/-- V67: `LDA ($FF),Y`. -/
theorem test_lda_izy_pointer_wraps :
    ended (cpuStep (boot { cpu0 with y := 0x00 } [0xB1, 0xFF]
        [(0x0000, 0x03), (0x00FF, 0x00), (0x0100, 0x07), (0x0300, 0x4A)])) [] =
      some ({ cpu0 with a := 0x4A, pc := 0x0202, cycles := 5 }, []) := by decide

/-- V57: `LDX $FF,Y`. -/
theorem test_ldx_zpy_wraps :
    ended (cpuStep (boot { cpu0 with y := 0x01 } [0xB6, 0xFF] [(0x0000, 0x66), (0x0100, 0x99)])) [] =
      some ({ cpu0 with y := 0x01, x := 0x66, pc := 0x0202, cycles := 4 }, []) := by decide

/-- V72: `LDX $02FF,Y`. -/
theorem test_ldx_aby_cross :
    ended (cpuStep (boot { cpu0 with y := 0x01 } [0xBE, 0xFF, 0x02] [(0x0300, 0x12)])) [] =
      some ({ cpu0 with y := 0x01, x := 0x12, pc := 0x0203, cycles := 5 }, []) := by decide

/-- V74: `LDY $10,X`. -/
theorem test_ldy_zpx :
    ended (cpuStep (boot { cpu0 with x := 0x01 } [0xB4, 0x10] [(0x0011, 0x80)])) [] =
      some ({ cpu0 with x := 0x01, y := 0x80, pc := 0x0202, p := 0xA4, cycles := 4 }, []) := by decide

/-- V79: `STA $02FF,X`. -/
theorem test_sta_abx_fixed_cost :
    ended (cpuStep (boot { cpu0 with a := 0x58, x := 0x01 } [0x9D, 0xFF, 0x02] [])) [0x0300] =
      some ({ cpu0 with a := 0x58, x := 0x01, pc := 0x0203, cycles := 5 }, [0x58]) := by decide

/-- V83: `STA ($10),Y`. -/
theorem test_sta_izy :
    ended (cpuStep (boot { cpu0 with a := 0x5B, y := 0x01 } [0x91, 0x10] [(0x0010, 0xFF), (0x0011, 0x02)])) [0x0300] =
      some ({ cpu0 with a := 0x5B, y := 0x01, pc := 0x0202, cycles := 6 }, [0x5B]) := by decide

/-- V87: `STX $10,Y`. -/
theorem test_stx_zpy :
    ended (cpuStep (boot { cpu0 with x := 0x62, y := 0x01 } [0x96, 0x10] [])) [0x0011] =
      some ({ cpu0 with x := 0x62, y := 0x01, pc := 0x0202, cycles := 4 }, [0x62]) := by decide

/-- V90: `STY $10,X`. -/
theorem test_sty_zpx :
    ended (cpuStep (boot { cpu0 with x := 0x01, y := 0x65 } [0x94, 0x10] [])) [0x0011] =
      some ({ cpu0 with x := 0x01, y := 0x65, pc := 0x0202, cycles := 4 }, [0x65]) := by decide

/-- V92: `TAX`. -/
theorem test_tax :
    ended (cpuStep (boot { cpu0 with a := 0x80 } [0xAA] [])) [] =
      some ({ cpu0 with a := 0x80, x := 0x80, pc := 0x0201, p := 0xA4, cycles := 2 }, []) := by decide

/-- V93: `TAY`. -/
theorem test_tay_zero :
    ended (cpuStep (boot { cpu0 with a := 0x00, p := 0xA4 } [0xA8] [])) [] =
      some ({ cpu0 with p := 0x26, pc := 0x0201, cycles := 2 }, []) := by decide

/-- V94: `TXA`. -/
theorem test_txa :
    ended (cpuStep (boot { cpu0 with a := 0xFF, x := 0x01 } [0x8A] [])) [] =
      some ({ cpu0 with a := 0x01, x := 0x01, pc := 0x0201, cycles := 2 }, []) := by decide

/-- V95: `TYA`. -/
theorem test_tya :
    ended (cpuStep (boot { cpu0 with y := 0x90 } [0x98] [])) [] =
      some ({ cpu0 with y := 0x90, a := 0x90, pc := 0x0201, p := 0xA4, cycles := 2 }, []) := by decide

/-- V97: `TSX`. -/
theorem test_tsx_zero :
    ended (cpuStep (boot { cpu0 with sp := 0x00 } [0xBA] [])) [] =
      some ({ cpu0 with sp := 0x00, pc := 0x0201, p := 0x26, cycles := 2 }, []) := by decide

/-- V98: `TXS`. -/
theorem test_txs_keeps_flags :
    ended (cpuStep (boot { cpu0 with x := 0x00, p := 0xA4 } [0x9A] [])) [] =
      some ({ cpu0 with p := 0xA4, sp := 0x00, pc := 0x0201, cycles := 2 }, []) := by decide

/-- V100: `PHA`. -/
theorem test_pha_wraps :
    ended (cpuStep (boot { cpu0 with a := 0x43, sp := 0x00 } [0x48] [])) [0x0100] =
      some ({ cpu0 with a := 0x43, sp := 0xFF, pc := 0x0201, cycles := 3 }, [0x43]) := by decide

/-- V102: `PHP`. -/
theorem test_php_sets_bits :
    ended (cpuStep (boot { cpu0 with p := 0xEF } [0x08] [])) [0x01FD] =
      some ({ cpu0 with p := 0xEF, sp := 0xFC, pc := 0x0201, cycles := 3 }, [0xFF]) := by decide

/-- V104: `PLA`. -/
theorem test_pla_wraps :
    ended (cpuStep (boot { cpu0 with sp := 0xFF } [0x68] [(0x0100, 0x80)])) [] =
      some ({ cpu0 with sp := 0x00, a := 0x80, pc := 0x0201, p := 0xA4, cycles := 4 }, []) := by decide

/-- V105: `PLP`. -/
theorem test_plp_fixes_bits :
    ended (cpuStep (boot { cpu0 with sp := 0xFC } [0x28] [(0x01FD, 0xFF)])) [] =
      some ({ cpu0 with pc := 0x0201, p := 0xEF, cycles := 4 }, []) := by decide

/-- V108: `BCC $0207`. -/
theorem test_bcc_not_taken :
    ended (cpuStep (boot { cpu0 with p := 0x25 } [0x90, 0x05] [])) [] =
      some ({ cpu0 with p := 0x25, pc := 0x0202, cycles := 2 }, []) := by decide

/-- V109: `BCS $0281`. -/
theorem test_bcs_forward :
    ended (cpuStep (boot { cpu0 with p := 0x25 } [0xB0, 0x7F] [])) [] =
      some ({ cpu0 with p := 0x25, pc := 0x0281, cycles := 3 }, []) := by decide

/-- V110: `BEQ $0200`. -/
theorem test_beq_to_itself :
    ended (cpuStep (boot { cpu0 with p := 0x26 } [0xF0, 0xFE] [])) [] =
      some ({ cpu0 with p := 0x26, pc := 0x0200, cycles := 3 }, []) := by decide

/-- V111: `BNE $0182`. -/
theorem test_bne_backward_page_cross :
    ended (cpuStep (boot { cpu0 with p := 0x24 } [0xD0, 0x80] [])) [] =
      some ({ cpu0 with pc := 0x0182, cycles := 4 }, []) := by decide

/-- V112: `BMI $0202`. -/
theorem test_bmi_offset_zero :
    ended (cpuStep (boot { cpu0 with p := 0xA4 } [0x30, 0x00] [])) [] =
      some ({ cpu0 with p := 0xA4, pc := 0x0202, cycles := 3 }, []) := by decide

/-- V113: `BPL $0212`. -/
theorem test_bpl_not_taken :
    ended (cpuStep (boot { cpu0 with p := 0xA4 } [0x10, 0x10] [])) [] =
      some ({ cpu0 with p := 0xA4, pc := 0x0202, cycles := 2 }, []) := by decide

/-- V114: `BVC $0301`. -/
theorem test_bvc_page_cross :
    ended (cpuStep (boot { cpu0 with p := 0x24, pc := 0x02FD } [0x50, 0x02] [])) [] =
      some ({ cpu0 with pc := 0x0301, cycles := 4 }, []) := by decide

/-- V115: `BVS $0302`. -/
theorem test_bvs_same_page :
    ended (cpuStep (boot { cpu0 with p := 0x64, pc := 0x02FE } [0x70, 0x02] [])) [] =
      some ({ cpu0 with p := 0x64, pc := 0x0302, cycles := 3 }, []) := by decide

/-- V116: `JMP $1234`. -/
theorem test_jmp :
    ended (cpuStep (boot cpu0 [0x4C, 0x34, 0x12] [])) [] =
      some ({ cpu0 with pc := 0x1234, cycles := 3 }, []) := by decide

/-- V118: `JMP ($03FF)`. -/
theorem test_jmp_indirect_same_page :
    ended (cpuStep (boot cpu0 [0x6C, 0xFF, 0x03] [(0x0300, 0x12), (0x03FF, 0x34), (0x0400, 0x56)])) [] =
      some ({ cpu0 with pc := 0x1234, cycles := 5 }, []) := by decide

/-- V119: `JSR $0300`. -/
theorem test_jsr :
    ended (cpuStep (boot cpu0 [0x20, 0x00, 0x03] [])) [0x01FC, 0x01FD] =
      some ({ cpu0 with sp := 0xFB, pc := 0x0300, cycles := 6 }, [0x02, 0x02]) := by decide

/-- V121: `RTS`. -/
theorem test_rts_wraps :
    ended (cpuStep (boot { cpu0 with sp := 0xFB } [0x60] [(0x01FC, 0xFF), (0x01FD, 0xFF)])) [] =
      some ({ cpu0 with pc := 0x0000, cycles := 6 }, []) := by decide

/-- V123: `RTI`. -/
theorem test_rti_fixes_bits :
    ended (cpuStep (boot { cpu0 with sp := 0xFA, p := 0x24 } [0x40]
        [(0x01FB, 0x10), (0x01FC, 0x00), (0x01FD, 0x03)])) [] =
      some ({ cpu0 with p := 0x20, pc := 0x0300, cycles := 6 }, []) := by decide

/-- V124: `BRK`. -/
theorem test_brk :
    ended (cpuStep (boot { cpu0 with p := 0x20 } [0x00, 0xFF] [])) [0x01FB, 0x01FC, 0x01FD] =
      some ({ cpu0 with sp := 0xFA, pc := 0x0000, cycles := 7 }, [0x30, 0x02, 0x02]) := by decide

/-- V125: `CLC`. -/
theorem test_clc :
    ended (cpuStep (boot { cpu0 with p := 0x25 } [0x18] [])) [] =
      some ({ cpu0 with pc := 0x0201, cycles := 2 }, []) := by decide

/-- V126: `SEC`. -/
theorem test_sec :
    ended (cpuStep (boot cpu0 [0x38] [])) [] =
      some ({ cpu0 with pc := 0x0201, p := 0x25, cycles := 2 }, []) := by decide

/-- V127: `CLI`. -/
theorem test_cli :
    ended (cpuStep (boot cpu0 [0x58] [])) [] =
      some ({ cpu0 with pc := 0x0201, p := 0x20, cycles := 2 }, []) := by decide

/-- V128: `SEI`. -/
theorem test_sei :
    ended (cpuStep (boot { cpu0 with p := 0x20 } [0x78] [])) [] =
      some ({ cpu0 with pc := 0x0201, cycles := 2 }, []) := by decide

/-- V129: `CLD`. -/
theorem test_cld :
    ended (cpuStep (boot { cpu0 with p := 0x2C } [0xD8] [])) [] =
      some ({ cpu0 with pc := 0x0201, cycles := 2 }, []) := by decide

/-- V130: `SED`. -/
theorem test_sed :
    ended (cpuStep (boot cpu0 [0xF8] [])) [] =
      some ({ cpu0 with pc := 0x0201, p := 0x2C, cycles := 2 }, []) := by decide

/-- V131: `CLV`. -/
theorem test_clv :
    ended (cpuStep (boot { cpu0 with p := 0x64 } [0xB8] [])) [] =
      some ({ cpu0 with pc := 0x0201, cycles := 2 }, []) := by decide

/-- V132: `NOP`. -/
theorem test_nop :
    ended (cpuStep (boot cpu0 [0xEA] [])) [] =
      some ({ cpu0 with pc := 0x0201, cycles := 2 }, []) := by decide

/-- V133. -/
theorem test_illegal : stopped (cpuStep (boot cpu0 [0x02] [])) = some (.unimplementedOpcode 0x02 0x0200) := by decide

/-! ## Interrupts, reset, the Bus, the mapper, the picture -/

/-- V144, with the vectors of this image at 0x0000: IRQ serviced, the status pushed with bit 4 clear. -/
theorem test_irq_entry :
    ended (cpuStep (triggerIrq (boot { cpu0 with p := 0xE3 } [0xEA] []))) [0x01FD, 0x01FC, 0x01FB] =
      some ({ cpu0 with pc := 0x0000, sp := 0xFA, p := 0xE7, cycles := 7 }, [0x02, 0x00, 0xE3]) := by decide

/-- V141: an IRQ in the slot while I is set is dropped and the NOP runs. -/
theorem test_irq_dropped_at_service :
    ended (cpuStep (boot { cpu0 with irqSlot := .irq } [0xEA] [])) [0x01FD] =
      some ({ cpu0 with pc := 0x0201, cycles := 2 }, [0x00]) := by decide

/-- V145: a stall step leaves a pending NMI pending. -/
theorem test_stall_step :
    ended (cpuStep (boot { cpu0 with p := 0x20, stall := 3, irqSlot := .nmi } [0xEA] [])) [] =
      some ({ cpu0 with p := 0x20, stall := 2, irqSlot := .nmi, cycles := 1 }, []) := by decide

/-- E2: the reset vector. -/
theorem test_reset_vector :
    (resetCall (placeBytes State.reset 0xFFFC [0x23, 0xC1])).cpu.pc = 0xC123 := by decide

/-- B4: the scroll port. -/
theorem test_scroll_port :
    let s := memWrite (memWrite (memWrite State.reset 0x2000 0x03) 0x2005 0x7D) 0x2005 0x5E
    (s.ppu.t, s.ppu.x, s.ppu.w) = (0x6D6F, 5, false) := by decide

/-- B2: the palette's alias and an immediate palette read. -/
theorem test_palette_alias :
    let s := memWrite (memWrite (memWrite State.reset 0x2006 0x3F) 0x2006 0x10) 0x2007 0x2A
    peek (memWrite (memWrite s 0x2006 0x3F) 0x2006 0x00) 0x2007 = 0x2A := by decide

/-- The scroll table of part 2.10: rows 3, 6 and 8. -/
theorem test_scroll_increments :
    incrementX 0x041F = 0x0000 ∧ incrementY 0x73A0 = 0x0800 ∧ incrementY 0x73E0 = 0x0000 := by decide

/-- E6: 11 modulo 8 banks is bank 3. -/
theorem test_bank_switch :
    let c := { State.reset.cart with n16 := 8, prg := [(49152, 3)] }
    peek (memWrite { State.reset with cart := c } 0xFFFF 0x0B) 0x8000 = 3 := by decide

/-- A variant B mapper as power-on leaves it, with two PRG banks. -/
def mapB : MapperB :=
  { shift := 0, count := 0, control := 0x0C, chr0 := 0, chr1 := 0, prg := 0, prgOff0 := 0, prgOff1 := 16384,
    chrOff0 := 0, chrOff1 := 4096, mirror := .horizontal }

set_option maxRecDepth 4096 in
/-- R301, R312: a run to the frame's end that meets an illegal byte after a NOP keeps the NOP's effect. -/
theorem test_aborted_frame :
    (match runToFrame 0 2 (boot cpu0 [0xEA, 0x02] []) with
      | .aborted e t => some (e, t.cpu)
      | .completed _ => none
      | .refused _ => none) = some (.unimplementedOpcode 0x02 0x0201, { cpu0 with pc := 0x0201, cycles := 2 }) := by
  decide

/-- Part 2.9, `ser(0x8000, 0x0A)`: control 0x0A, vertical mirroring. -/
theorem test_serial_port :
    let w := fun (s : State) (v : Byte) => memWrite s 0x8000 v
    let s : State := { State.reset with mapper := .variantB mapB }
    (match (w (w (w (w (w s 0) 1) 0) 1) 0).mapper with
      | .variantB m => (m.control, m.mirror, m.prgOff0, m.count)
      | .variantA _ => (0, .single0, 1, 9)) = (0x0A, .vertical, 0, 0) := by decide

/-! ## Witnesses: what the statements assume can be met -/

/-- The vectors' machine with a NOP, three times, at PC. -/
def rig : State := boot cpu0 [0xEA, 0xEA, 0xEA] []

/-- A state at a dot of a line with a given mask. -/
def beam (line dot : Nat) (mask : Byte) : State :=
  { rig with ppu := { rig.ppu with scanline := line, dot := dot, mask := mask } }

/-- The invariant holds of the vectors' machine. -/
theorem rig_inv : Inv rig where
  cpu := ⟨by decide, by decide⟩
  bus := ⟨⟨by decide, by decide⟩, ⟨by decide, by decide⟩, ⟨by decide, by decide⟩⟩
  cart := ⟨by decide, by decide, ⟨by decide, by decide⟩, ⟨by decide, by decide⟩, ⟨by decide, by decide⟩⟩
  mapper := show (0 : Nat) < 2 by decide
  ppu := ⟨by decide, by decide, by decide, by decide, by decide, by decide, by decide,
    ⟨by decide, by decide⟩, ⟨by decide, by decide⟩, ⟨by decide, by decide⟩⟩
  ext := ⟨by decide, by decide⟩

theorem witness_DecodeInvertsEncode :
    (Instr.illegal 0x02).wellFormed = true ∧ (Instr.adc (.abx 0xFFFF)).wellFormed = true := by decide

theorem witness_EncodeInvertsDecode :
    decode [0x00] = .ok (.brk, []) ∧ decode [0x00, 0x99, 0xEA] = .ok (.brk, [0xEA]) ∧
    decode [0x4C, 0xFF, 0xFF] = .ok (.jmp (.abs 0xFFFF), []) := by decide

theorem witness_IllegalOpcodesStop :
    let s := boot cpu0 [0xFF] []
    (takeIrqCall s).cpu.stall = 0 ∧ (takeIrqCall s).cpu.irqSlot = .none ∧
    peek (takeIrqCall s) s.cpu.pc ∈ illegalOpcodes := by decide

theorem witness_StepRunsDecodedInstruction :
    let s := boot { cpu0 with pc := 0x1FFD } [0x8D, 0x00, 0x02] []
    let u := takeIrqCall s
    let pc := u.cpu.pc
    u.cpu.stall = 0 ∧ u.cpu.irqSlot = .none ∧ quiet pc = true ∧ quiet (pc + 1) = true ∧ quiet (pc + 2) = true ∧
    decode [peek u pc, peek u (pc + 1), peek u (pc + 2)] = .ok (.sta (.abs 0x0200), []) := by decide

theorem witness_WritesAreVisible :
    (sameCell 0x1FFF 0x07FF = true ∧ holdsBytes 0x1FFE = true ∧ sameCell 0x1FFF 0x1FFE = false) ∧
    (sameCell 0x6000 0x6000 = true ∧ holdsBytes 0x7FFF = true ∧ sameCell 0x6000 0x7FFF = false) ∧
    (holdsBytes 0xFFFF = true ∧ sameCell 0x7FFF 0xFFFF = false ∧ holdsBytes 0x0000 = true) := by decide

theorem witness_PictureRegisterMirrors : 7 < 8 ∧ 1023 < 1024 ∧ 0x2000 + 7 + 8 * 1023 = 0x3FFF := by decide

theorem witness_UnmappedAccessCounted :
    let m := fun n : Nat => (0x4000 ≤ n ∧ n < 0x4014) ∨ (0x4018 ≤ n ∧ n < 0x6000)
    m (0x4000 : Word).toNat ∧ m (0x4013 : Word).toNat ∧ m (0x4018 : Word).toNat ∧ m (0x5FFF : Word).toNat ∧
    ¬m (0x3FFF : Word).toNat ∧ ¬m (0x4014 : Word).toNat ∧ ¬m (0x4017 : Word).toNat ∧ ¬m (0x6000 : Word).toNat := by
  decide

theorem witness_ReadSideEffects :
    let q := fun n : Nat => n < 0x2000 ∨ (0x2000 ≤ n ∧ n < 0x4000 ∧ n % 8 ≠ 2 ∧ n % 8 ≠ 7) ∨ n = 0x4014 ∨ 0x6000 ≤ n
    q (0x1FFF : Word).toNat ∧ q (0x2000 : Word).toNat ∧ q (0x3FFE : Word).toNat ∧ q (0x4014 : Word).toNat ∧
    q (0x6000 : Word).toNat ∧ ¬q (0x3FFF : Word).toNat := by decide

theorem witness_PictureSpaceDecode :
    (0x2000 ≤ (0x2000 : PicAddr).toNat ∧ (0x2000 : PicAddr).toNat < 0x3F00) ∧
    (0x2000 ≤ (0x3EFF : PicAddr).toNat ∧ (0x3EFF : PicAddr).toNat < 0x3F00) ∧ 0x3F00 ≤ (0x3F00 : PicAddr).toNat ∧
    pictureCell rig 0x2000 ≠ pictureCell rig 0x2800 ∧ pictureCell rig 0x3F10 ≠ pictureCell rig 0x3F11 := by decide

theorem witness_WordReads :
    (0x0000 : Word).toNat = ((0xFFFF : Word).toNat + 1) % 65536 ∧
    (0xFF00 : Word).toNat = (0xFFFF : Word).toNat / 256 * 256 + ((0xFFFF : Word).toNat + 1) % 256 ∧
    quiet 0xFFFF = true ∧ quiet 0x0000 = true ∧ quiet 0xFF00 = true := by decide

theorem witness_OamDma :
    (0x1F : Byte).toNat < 0x20 ∧ 0x60 ≤ (0x60 : Byte).toNat ∧ (0x00 : Byte).toNat < 0x20 ∧ 0x60 ≤ (0xFF : Byte).toNat := by
  decide

theorem witness_ExternalPorts :
    (8 ≤ ({ rig.ext with pad1 := { strobe := false, index := 8 } }.pad .one).index) ∧
    (0x4000 ≤ (0x4013 : Word).toNat ∧ (0x4013 : Word).toNat < 0x4014) ∧ (0x4015 : Word).toNat = 0x4015 ∧
    (0x4017 : Word).toNat = 0x4017 := by decide

theorem witness_CyclesAndLength :
    (∃ t, exec (.bne 0x80) rig = .next t ∧ Instr.branch rig.cpu.p (.bne 0x80) = some (0x80, true)) ∧
    (∃ t, exec (.lda (.abx 0x02FF)) { rig with cpu := { cpu0 with x := 1 } } = .next t ∧
      (resolve { rig with cpu := { cpu0 with x := 1 } } (.abx 0x02FF)).crossed = true) ∧
    (∃ t, exec .nop rig = .next t ∧ Instr.loadsPc .nop = false ∧ Instr.branch rig.cpu.p .nop = none) :=
  ⟨⟨_, rfl, by decide⟩, ⟨_, rfl, by decide⟩, ⟨_, rfl, by decide⟩⟩

theorem witness_Stores : (resolve rig (.abs 0x1FFF)).addr.toNat < 0x2000 := by decide

theorem witness_Branches : rig.flag .c ≠ true ∧ rig.flag .c = false ∧ rig.flag .i = true := by decide

theorem witness_CallsReturn :
    (∃ t u, exec (.jsr 0x0300) rig = .next t ∧ exec .rts t = .next u) ∧
    (∃ t u, exec .brk rig = .next t ∧ exec .rti t = .next u) ∧ rig.cpu.Ok :=
  ⟨⟨_, _, rfl, rfl⟩, ⟨_, _, rfl, rfl⟩, rig_inv.cpu⟩

theorem witness_RegisterAndFlagFrame :
    ∃ t, exec (.adc (.imm 1)) rig = .next t ∧ Reg.x ∉ Instr.writesRegs (.adc (.imm 1)) ∧
      Flag.d ∉ Instr.writesFlags (.adc (.imm 1)) := ⟨_, rfl, by decide, by decide⟩

theorem witness_HiddenStateFrame :
    (∃ t, exec (.sta (.abs 0x4015)) rig = .next t) ∧ Instr.storeOperand (.sta (.abs 0x4015)) = some (.abs 0x4015) ∧
    (resolve rig (.abs 0x4015)).addr ≠ 0x4014 ∧ Instr.rmwOperand (.inc (.abs 0x4013)) = some (.abs 0x4013) ∧
    (resolve rig (.abs 0x4013)).addr ≠ 0x4014 ∧ (∃ m, rig.mapper = .variantA m) ∧
    (∃ m, { rig with mapper := .variantB mapB }.mapper = .variantB m) :=
  ⟨⟨_, rfl⟩, rfl, by decide, rfl, by decide, ⟨_, rfl⟩, ⟨_, rfl⟩⟩

theorem witness_NoStoreFrame :
    (∃ t, exec .inx rig = .next t ∧ Instr.registerOnly .inx = true) ∧ (∃ t, exec .pla rig = .next t) ∧
    (∃ t, exec (.lda (.abs 0x2002)) rig = .next t ∧ Instr.readOperand (.lda (.abs 0x2002)) ≠ none) ∧
    (∃ t, exec (.jmp (.ind 0x2007)) rig = .next t ∧ Instr.pulls (.jmp (.ind 0x2007)) = true) :=
  ⟨⟨_, rfl, rfl⟩, ⟨_, rfl⟩, ⟨_, rfl, by decide⟩, ⟨_, rfl, rfl⟩⟩

theorem witness_StoreMemoryFrame :
    (∃ t, exec (.sta (.abs 0x07FF)) rig = .next t ∧ Instr.storeOperand (.sta (.abs 0x07FF)) = some (.abs 0x07FF)) ∧
    (∃ t, exec (.inc (.abs 0x2007)) rig = .next t ∧ Instr.rmwOperand (.inc (.abs 0x2007)) = some (.abs 0x2007)) ∧
    (∃ t, exec .brk rig = .next t) ∧ 0 < Instr.pushes .brk ∧ holdsBytes 0x01FA = true ∧
    ∀ k < Instr.pushes .brk, sameCell (stackAddr (rig.cpu.sp - BitVec.ofNat 8 k)) 0x01FA = false :=
  ⟨⟨_, rfl, rfl⟩, ⟨_, rfl, rfl⟩, ⟨_, rfl⟩, by decide, by decide, by decide⟩

theorem witness_PowerOn :
    RomImage.blank.valid = true ∧ RomImage.blank.chrBanks = 0 ∧ RomImage.blank.mapperId ≠ 1 ∧
    { RomImage.blank with mapperId := 1, chrBanks := 2 }.valid = true ∧
    { RomImage.blank with prgBanks := 0 }.valid = false := by decide

theorem witness_InterruptRequests :
    (rig.flag .i = true ∧ (triggerNmi rig).cpu.irqSlot = .nmi) ∧
    (rig.setP 0x20).flag .i = false ∧ (rig.setP 0x20).cpu.irqSlot ≠ .nmi ∧
    { rig.ext with irqCalls := [true] }.irqCalls = [true] ∧ rig.ext.irqCalls = [] := by decide

theorem witness_InterruptEntry :
    (rig.cpu.stall = 0 ∧ (triggerNmi rig).cpu.irqSlot = .nmi) ∧
    ((rig.setP 0x20).setSlot .irq).cpu.irqSlot = .irq ∧ ((rig.setP 0x20).setSlot .irq).flag .i = false := by decide

theorem witness_StepOrder :
    0 < (takeIrqCall (rig.setStall 1)).cpu.stall ∧
    ((takeIrqCall (rig.setSlot .nmi)).cpu.stall = 0 ∧ (takeIrqCall (rig.setSlot .nmi)).cpu.irqSlot = .nmi) ∧
    ((takeIrqCall (rig.setSlot .irq)).cpu.irqSlot = .irq ∧ (takeIrqCall (rig.setSlot .irq)).flag .i = true ∧
      (takeIrqCall (rig.setSlot .irq)).cpu.stall = 0) := by decide

theorem witness_StepOutcomes :
    (∃ f, step (boot cpu0 [0x02] []) = .fault f) ∧ (∃ f, step (boot { cpu0 with irqSlot := .irq } [0xFF] []) = .fault f) ∧
    (takeIrqCall (boot { cpu0 with irqSlot := .irq } [0xFF] [])).cpu.irqSlot = .irq ∧
    peek (takeIrqCall rig) rig.cpu.pc ∉ illegalOpcodes :=
  ⟨⟨_, rfl⟩, ⟨_, rfl⟩, by decide, by decide⟩

/-- Whether a step went on, to a state with a property. -/
def goesOn (r : Result) (q : State → Bool) : Bool :=
  match r with
  | .next t => q t
  | .fault _ => false
  | .refused _ => false

theorem goesOn_next {r : Result} {q : State → Bool} (h : goesOn r q = true) : ∃ t, r = .next t ∧ q t = true := by
  cases r with
  | next t => exact ⟨t, rfl, h⟩
  | fault f => cases h
  | refused f => cases h

/-- The last dot before the skipped one, in an odd frame with rendering on. -/
def oddFrameEnd : State := { rig with ppu := { (beam 261 339 8).ppu with frame := 1 } }

theorem oddFrameEnd_inv : Inv oddFrameEnd :=
  { rig_inv with
    ppu := { rig_inv.ppu with dot := show 339 ≤ 340 by decide, scanline := show 261 ≤ 261 by decide } }

set_option maxRecDepth 4096 in
theorem witness_DotsPerCycle :
    (Inv rig ∧ ∃ t, step rig = .next t ∧ (!t.ppu.rendering) = true) ∧
    (Inv oddFrameEnd ∧ oddFrameEnd.ppu.frame % 2 = 1 ∧
      ∃ t, step oddFrameEnd = .next t ∧ (t.ppu.rendering && t.ppu.frame == 2) = true) :=
  ⟨⟨rig_inv, goesOn_next (q := fun t => !t.ppu.rendering) (by decide)⟩,
    oddFrameEnd_inv, by decide, goesOn_next (q := fun t => t.ppu.rendering && t.ppu.frame == 2) (by decide)⟩

theorem witness_StepFrameEndsInNextFrame : Inv rig := rig_inv

theorem witness_StepKeepsInvariant : Inv rig ∧ ∃ t, step rig = .next t ∧ true = true :=
  ⟨rig_inv, goesOn_next (q := fun _ => true) (by decide)⟩

theorem witness_MapperVariantA : rig.mapper = .variantA { bank := 0 } ∧ 0x8000 ≤ (0x8000 : Word).toNat := by decide

theorem witness_SerialPort :
    { rig with mapper := .variantB mapB }.mapper = .variantB mapB ∧ mapB.count = 0 ∧ 0x8000 ≤ (0x8000 : Word).toNat ∧
    (0x9FFF : Word).toNat < 0xA000 ∧ (0xBFFF : Word).toNat < 0xC000 ∧ (0xDFFF : Word).toNat < 0xE000 ∧
    128 ≤ (0x80 : Byte).toNat ∧ (0x7F : Byte).toNat < 128 := by decide

theorem witness_BankWindows :
    (1 ≤ 1 ∧ 2 ≤ 2) ∧ mapB.control.toNat / 4 % 4 = 3 ∧ { mapB with control := 0x0B }.control.toNat / 4 % 4 = 2 ∧
    { mapB with control := 0x07 }.control.toNat / 4 % 4 < 2 ∧ { mapB with control := 0x0F }.control.toNat < 16 ∧
    16 ≤ { mapB with control := 0x10 }.control.toNat ∧
    { rig with mapper := .variantB (recompute 1 2 mapB) }.mapper = .variantB (recompute 1 2 mapB) := by decide

theorem witness_PictureRegisterWrites : rig.ppu.w = false ∧ { rig.ppu with w := true }.w = true := by decide

theorem witness_PictureRegisterReads :
    (0x3EFF : PicAddr).toNat = { rig.ppu with v := 0x7EFF }.v.toNat % 16384 ∧ (0x3EFF : PicAddr).toNat < 0x3F00 ∧
    (0x3F00 : PicAddr).toNat = { rig.ppu with v := 0x3F00 }.v.toNat % 16384 ∧ 0x3F00 ≤ (0x3F00 : PicAddr).toNat := by
  decide

theorem witness_VerticalBlank :
    ((beam 241 0 0).ppu.scanline = 241 ∧ (beam 241 0 0).ppu.dot = 0) ∧
    ((beam 261 0 0).ppu.scanline = 261 ∧ (beam 261 0 0).ppu.dot = 0) ∧
    ¬((ppuStep (beam 241 1 0)).ppu.dot = 1 ∧
      ((ppuStep (beam 241 1 0)).ppu.scanline = 241 ∨ (ppuStep (beam 241 1 0)).ppu.scanline = 261)) := by decide

theorem witness_NmiDelay :
    let s := { beam 241 0 0 with ppu := { (beam 241 0 0).ppu with ctrl := 0x80 } }
    s.ppu.scanline = 241 ∧ s.ppu.dot = 0 ∧ s.ppu.ctrl.getLsbD 7 = true ∧ s.ppu.nmiPrevious = false ∧
    s.ppu.nmiDelay = 0 := by decide

theorem witness_FrameLength :
    ((beam 261 340 0).ppu.dot ≤ 340 ∧ (beam 261 340 0).ppu.scanline ≤ 261) ∧
    ((beam 260 340 0).ppu.dot = 340 ∧ (beam 260 340 0).ppu.scanline < 261) ∧
    ((beam 261 339 8).ppu.rendering = true ∧ { (beam 261 339 8).ppu with frame := 1 }.frame % 2 = 1) ∧
    ((beam 0 0 8).ppu.dot = 0 ∧ (beam 0 0 8).ppu.scanline = 0) := by decide

theorem witness_ScrollMovement :
    (beam 0 0 0).ppu.rendering = false ∧ (beam 0 0 8).ppu.rendering = true ∧
    ((ppuStep (beam 239 255 8)).ppu.dot = 256 ∧ (ppuStep (beam 239 255 8)).ppu.scanline < 240) ∧
    (ppuStep (beam 0 256 8)).ppu.dot = 257 ∧ (ppuStep (beam 261 303 8)).ppu.dot = 304 ∧
    (ppuStep (beam 261 335 8)).ppu.dot = 336 ∧ (ppuStep (beam 240 7 8)).ppu.scanline = 240 := by decide

theorem witness_BackgroundFetch :
    rig.ppu.atBits &&& 3 = 0 ∧ (beam 261 320 8).ppu.rendering = true ∧
    ((ppuStep (beam 261 320 8)).ppu.dot = 321 ∧ (ppuStep (beam 261 320 8)).ppu.dot % 8 = 1) ∧
    (ppuStep (beam 0 2 8)).ppu.dot % 8 = 3 ∧ (ppuStep (beam 0 4 8)).ppu.dot % 8 = 5 ∧
    (ppuStep (beam 0 6 8)).ppu.dot % 8 = 7 ∧ (ppuStep (beam 0 255 8)).ppu.dot % 8 = 0 ∧
    (ppuStep (beam 0 340 8)).ppu.dot = 0 := by decide

theorem witness_SpriteEvaluation :
    let s := { beam 10 256 0x10 with ppu := { (beam 10 256 0x10).ppu with oam := [(0, 3), (4, 10)] } }
    let byte : Nat → Byte := Memory.read s.ppu.oam
    s.ppu.sprites.length = 8 ∧ s.ppu.rendering = true ∧ (ppuStep s).ppu.dot = 257 ∧ (ppuStep s).ppu.scanline < 240 ∧
    ((List.range 64).filter fun i => decide ((byte (4 * i)).toNat ≤ 10 ∧ 10 - (byte (4 * i)).toNat < 8))[1]? = some 1 ∧
    240 ≤ (ppuStep (beam 240 256 0x10)).ppu.scanline ∧ (beam 10 256 0).ppu.rendering = false := by decide

theorem witness_PixelComposition :
    ((beam 239 255 0x18).ppu.rendering = true ∧ 1 ≤ (ppuStep (beam 239 255 0x18)).ppu.dot ∧
      (ppuStep (beam 239 255 0x18)).ppu.dot ≤ 256 ∧ (ppuStep (beam 239 255 0x18)).ppu.scanline < 240) ∧
    ((beam 240 0 0x18).ppu.rendering = true ∧ ¬(ppuStep (beam 240 0 0x18)).ppu.scanline < 240) ∧
    ((beam 0 256 0x18).ppu.rendering = true ∧ ¬(ppuStep (beam 0 256 0x18)).ppu.dot ≤ 256) ∧
    ((ppuStep (beam 241 0 0x18)).ppu.dot = 1 ∧ (ppuStep (beam 241 0 0x18)).ppu.scanline = 241) ∧
    (beam 0 0 0).ppu.rendering = false ∧
    ¬((ppuStep (beam 261 1 0)).ppu.dot = 1 ∧ (ppuStep (beam 261 1 0)).ppu.scanline = 261) := by decide

end Sys2Proof.Tests
end

section
/-!
PROOFS, the family of 10_state.md (O12, O35, O36, O40, O42, O59). First what an instruction may change in the CPU and what it
never changes outside it, then the stack and the interrupt entry, then the invariant along a step, then power-on.
-/

namespace Sys2Proof.Machine

/-! ## Status bytes that differ in given flags only -/

/-- Every flag outside `L` is the same in `p'` as in `p`. -/
def ChangesOnly (L : List Flag) (p p' : Byte) : Prop := ∀ f, f ∉ L → getFlag f p' = getFlag f p

theorem putFlag_changesOnly (f : Flag) (b : Bool) (p : Byte) : ChangesOnly [f] p (putFlag f b p) := fun _ hg =>
  getFlag_putFlag_other b p (List.mem_singleton.not.mp hg)

theorem putZN_changesOnly (v p : Byte) : ChangesOnly [.z, .n] p (putZN v p) := fun f hf => by
  simp_all [getFlag_putZN]

theorem addFlags_changesOnly (a m : Byte) (c : Bool) (p : Byte) :
    ChangesOnly [.c, .z, .v, .n] p (addFlags a m c p) := fun f hf => by
  simp_all [addFlags, getFlag_putZN, getFlag_putFlag]

theorem compareFlags_changesOnly (r m p : Byte) : ChangesOnly [.c, .z, .n] p (compareFlags r m p) := fun f hf => by
  simp_all [compareFlags, getFlag_putZN, getFlag_putFlag]

theorem shiftFlags_changesOnly (r : Shifted) (p : Byte) : ChangesOnly [.c, .z, .n] p (shiftFlags r p) := fun f hf => by
  simp_all [shiftFlags, getFlag_putZN, getFlag_putFlag]

theorem bitFlags_changesOnly (a m p : Byte) : ChangesOnly [.z, .v, .n] p (bitFlags a m p) := fun f hf => by
  simp_all [bitFlags, getFlag_putFlag]

/-- The eight flags are all there are, so a pulled status byte may change any of them (R140, R157). -/
theorem changesOnly_allFlags (p p' : Byte) : ChangesOnly [.c, .z, .i, .d, .b, .u, .v, .n] p p' := fun f hf => by
  cases f <;> simp at hf

/-! ## What an instruction changes in the CPU -/

/-- From `c` to `c'` only the registers of `regs` and the flags of `flags` may change, and the stall counter only if
`dma` holds. PC and the cycle counter are free, the interrupt slot stays (R10 to R17). -/
structure CpuFrame (regs : List Reg) (flags : List Flag) (dma : Prop) (c c' : Cpu) : Prop where
  a : .a ∉ regs → c'.a = c.a
  x : .x ∉ regs → c'.x = c.x
  y : .y ∉ regs → c'.y = c.y
  sp : .sp ∉ regs → c'.sp = c.sp
  flag : ChangesOnly flags c.p c'.p
  slot : c'.irqSlot = c.irqSlot
  stall : ¬dma → c'.stall = c.stall

namespace CpuFrame

variable {R : List Reg} {F : List Flag} {D : Prop} {c : Cpu} {t : State}

theorem refl (c : Cpu) : CpuFrame R F D c c :=
  ⟨fun _ => rfl, fun _ => rfl, fun _ => rfl, fun _ => rfl, fun _ _ => rfl, rfl, fun _ => rfl⟩

/-- The frame, register by register. -/
theorem reg {c' : Cpu} (h : CpuFrame R F D c c') {r : Reg} (hr : r ∉ R) : r.read c' = r.read c := by
  cases r with
  | a => exact h.a hr
  | x => exact h.x hr
  | y => exact h.y hr
  | sp => exact h.sp hr

theorem setA (h : CpuFrame R F D c t.cpu) (v : Byte) (hr : .a ∈ R := by simp [Instr.writesRegs]) :
    CpuFrame R F D c (t.setA v).cpu := { h with a := absurd hr }

theorem setX (h : CpuFrame R F D c t.cpu) (v : Byte) (hr : .x ∈ R := by simp [Instr.writesRegs]) :
    CpuFrame R F D c (t.setX v).cpu := { h with x := absurd hr }

theorem setY (h : CpuFrame R F D c t.cpu) (v : Byte) (hr : .y ∈ R := by simp [Instr.writesRegs]) :
    CpuFrame R F D c (t.setY v).cpu := { h with y := absurd hr }

theorem setSp (h : CpuFrame R F D c t.cpu) (v : Byte) (hr : .sp ∈ R := by simp [Instr.writesRegs]) :
    CpuFrame R F D c (t.setSp v).cpu := { h with sp := absurd hr }

/-- A status byte that differs in flags of `F` only may be put. -/
theorem setP (h : CpuFrame R F D c t.cpu) {L : List Flag} {p : Byte} (hp : ChangesOnly L t.cpu.p p)
    (hF : L ⊆ F := by simp [Instr.writesFlags]) : CpuFrame R F D c (t.setP p).cpu :=
  { h with flag := fun f hf => (hp f fun hL => hf (hF hL)).trans (h.flag f hf) }

theorem setFlag (h : CpuFrame R F D c t.cpu) (f : Flag) (b : Bool) (hF : [f] ⊆ F := by simp [Instr.writesFlags]) :
    CpuFrame R F D c (t.setFlag f b).cpu := h.setP (putFlag_changesOnly f b _) hF

theorem setZN (h : CpuFrame R F D c t.cpu) (v : Byte) (hF : [.z, .n] ⊆ F := by simp [Instr.writesFlags]) :
    CpuFrame R F D c (t.setZN v).cpu := h.setP (putZN_changesOnly v _) hF

theorem setPc (h : CpuFrame R F D c t.cpu) (v : Word) : CpuFrame R F D c (t.setPc v).cpu := { h with }

theorem charge (h : CpuFrame R F D c t.cpu) (n : Nat) : CpuFrame R F D c (t.charge n).cpu := { h with }

theorem advance (h : CpuFrame R F D c t.cpu) (n k : Nat) : CpuFrame R F D c (Machine.advance t n k).cpu :=
  (h.setPc _).charge k

theorem read (h : CpuFrame R F D c t.cpu) (a : Word) : CpuFrame R F D c (memRead t a).2.cpu := by
  rwa [memRead_cpu]

/-- A bus write touches the CPU only at 0x4014, where it adds to the stall counter (R245). -/
theorem write (h : CpuFrame R F D c t.cpu) (a : Word) (v : Byte) (hD : a = 0x4014 → D) :
    CpuFrame R F D c (memWrite t a v).cpu := by
  rw [memWrite_cpu]
  refine { h with stall := fun hn => ?_ }
  have ha : a ≠ 0x4014 := fun ha => hn (hD ha)
  simp only [stallOf, if_neg ha, Nat.add_zero, h.stall hn]

theorem push (h : CpuFrame R F D c t.cpu) (v : Byte) (hr : .sp ∈ R := by simp [Instr.writesRegs]) :
    CpuFrame R F D c (Machine.push t v).cpu := by
  rw [push_eq]; exact setSp (t := t.setBus _) h _ hr

theorem push16 (h : CpuFrame R F D c t.cpu) (w : Word) (hr : .sp ∈ R := by simp [Instr.writesRegs]) :
    CpuFrame R F D c (Machine.push16 t w).cpu := (h.push _ hr).push _ hr

theorem pull (h : CpuFrame R F D c t.cpu) (hr : .sp ∈ R := by simp [Instr.writesRegs]) :
    CpuFrame R F D c (Machine.pull t).2.cpu := (h.setSp _ hr).read _

theorem pull16 (h : CpuFrame R F D c t.cpu) (hr : .sp ∈ R := by simp [Instr.writesRegs]) :
    CpuFrame R F D c (Machine.pull16 t).2.cpu := (h.pull hr).pull hr

theorem loadOperand (h : CpuFrame R F D c t.cpu) (o : Operand) : CpuFrame R F D c (Machine.loadOperand t o).2.cpu := by
  cases o with
  | imm v => exact h.advance 2 2
  | mem m => rw [loadOperand_mem]; exact (h.read _).advance _ _

theorem storeTarget (h : CpuFrame R F D c t.cpu) (m : MemOperand) :
    CpuFrame R F D c (Machine.storeTarget t m).2.cpu := by
  rw [storeTarget_eq]; exact h.advance _ _

theorem rmwLoad (h : CpuFrame R F D c t.cpu) (o : RmwOperand) : CpuFrame R F D c (Machine.rmwLoad t o).state.cpu := by
  rw [rmwLoad_eq]; exact (h.read _).advance _ _

theorem branchIf (h : CpuFrame R F D c t.cpu) (b : Bool) (d : Byte) :
    CpuFrame R F D c (Machine.branchIf b d t).cpu := by
  cases b with
  | true => exact ((h.advance 2 2).setPc _).charge _
  | false => exact h.advance 2 2

theorem enterHandler (h : CpuFrame R F D c t.cpu) (vec : Word) (b : Bool)
    (hr : .sp ∈ R := by simp [Instr.writesRegs]) (hF : [.i] ⊆ F := by simp [Instr.writesFlags]) :
    CpuFrame R F D c (Machine.enterHandler t vec b).cpu :=
  (((((h.push16 _ hr).push _ hr).setFlag .i true hF).read _).read _).setPc _

theorem of_next {u : State} (h : (Host.Outcome.next u : Result) = .next t) (hu : CpuFrame R F D c u.cpu) :
    CpuFrame R F D c t.cpu := by
  injection h with h
  exact h ▸ hu

end CpuFrame

/-- The instruction stores at address `a` through its operand: a plain store or a read-modify-write. -/
def StoresAt (i : Instr) (s : State) (a : Word) : Prop :=
  (∃ m, i.storeOperand = some m ∧ (resolve s m).addr = a) ∨ (∃ o, i.rmwOperand = some o ∧ (resolve s o.mem).addr = a)

/-- An instruction that completes changes only the registers and flags its rule names, never the interrupt slot, and the
stall counter only by a store at 0x4014. -/
theorem exec_cpuFrame {i : Instr} {s t : State} (h : exec i s = .next t) :
    CpuFrame i.writesRegs i.writesFlags (StoresAt i s 0x4014) s.cpu t.cpu := by
  have m : CpuFrame i.writesRegs i.writesFlags (StoresAt i s 0x4014) s.cpu s.cpu := .refl _
  cases i
  case adc o | sbc o => exact .of_next h (((m.loadOperand _).setP (addFlags_changesOnly _ _ _ _)).setA _)
  case and o | ora o | eor o | lda o => exact .of_next h (((m.loadOperand _).setA _).setZN _)
  case ldx o => exact .of_next h (((m.loadOperand _).setX _).setZN _)
  case ldy o => exact .of_next h (((m.loadOperand _).setY _).setZN _)
  case bit o => exact .of_next h ((m.loadOperand _).setP (bitFlags_changesOnly _ _ _))
  case cmp o | cpx o | cpy o => exact .of_next h ((m.loadOperand _).setP (compareFlags_changesOnly _ _ _))
  case inc o | dec o => exact .of_next h (((m.rmwLoad o).write _ _ fun ha => .inr ⟨o, rfl, ha⟩).setZN _)
  case asl o | lsr o | rol o | ror o =>
    cases o with
    | acc => exact .of_next h (((m.advance 1 2).setA _).setP (shiftFlags_changesOnly _ _))
    | mem o =>
      exact .of_next h (((m.rmwLoad o).write _ _ fun ha => .inr ⟨o, rfl, ha⟩).setP (shiftFlags_changesOnly _ _))
  case sta o | stx o | sty o => exact .of_next h ((m.storeTarget _).write _ _ fun ha => .inl ⟨_, rfl, ha⟩)
  case inx | dex | tax | tsx => exact .of_next h (((m.advance 1 2).setX _).setZN _)
  case iny | dey | tay => exact .of_next h (((m.advance 1 2).setY _).setZN _)
  case txa | tya => exact .of_next h (((m.advance 1 2).setA _).setZN _)
  case txs => exact .of_next h ((m.advance 1 2).setSp _)
  case pha | php => exact .of_next h ((m.advance 1 3).push _)
  case pla => exact .of_next h (((m.advance 1 4).pull.setA _).setZN _)
  case plp => exact .of_next h ((m.advance 1 4).pull.setP (changesOnly_allFlags _ _))
  case bcc d | bcs d | beq d | bne d | bmi d | bpl d | bvc d | bvs d => exact .of_next h (m.branchIf _ d)
  case jmp o =>
    cases o with
    | abs a => exact .of_next h ((m.advance 3 3).setPc a)
    | ind a => exact .of_next h ((((m.read _).read _).advance 3 5).setPc _)
  case jsr a => exact .of_next h (((m.advance 3 6).push16 _).setPc a)
  case rts => exact .of_next h ((m.advance 1 6).pull16.setPc _)
  case rti => exact .of_next h ((((m.advance 1 6).pull.setP (changesOnly_allFlags _ _)).pull16).setPc _)
  case brk => exact .of_next h ((m.advance 2 7).enterHandler _ _)
  case clc | sec | cli | sei | cld | sed | clv => exact .of_next h ((m.advance 1 2).setFlag _ _)
  case nop => exact .of_next h (m.advance 1 2)
  case illegal op => cases h

/-- Settles O35: the frame of every instruction, read off register by register and flag by flag. -/
theorem registerAndFlagFrame : Obligations.RegisterAndFlagFrame := by
  unfold Obligations.RegisterAndFlagFrame
  intro i s t h
  have hf := exec_cpuFrame h
  exact ⟨fun _ hr => hf.reg hr, hf.flag⟩

/-! ## What no instruction changes outside the CPU -/

/-- The mapper is of variant B (R202). -/
def Mapper.isVariantB : Mapper → Bool
  | .variantA _ => false
  | .variantB _ => true

theorem Mapper.isVariantB_eq_false {m : Mapper} : m.isVariantB = false ↔ ∃ a, m = .variantA a := by
  cases m <;> simp [Mapper.isVariantB]

theorem Mapper.isVariantB_eq_true {m : Mapper} : m.isVariantB = true ↔ ∃ b, m = .variantB b := by
  cases m <;> simp [Mapper.isVariantB]

/-- The state a read leaves is as it was, or that of a picture register read, of a counted access, or of an external
read (R44). -/
theorem memRead_cases {P : State → Prop} (s : State) (a : Word) (same : P s) (picture : ∀ r, P (ppuRegRead s r).2)
    (unmapped : P (noteUnmapped s)) (audio : P (audioRead s).2) (pad : ∀ port, P (padRead s port).2) :
    P (memRead s a).2 := by
  unfold memRead; dsimp only
  split_ifs
  case pos => exact same
  case pos => exact picture _
  case pos => exact unmapped
  case pos => exact same
  case pos => exact audio
  case pos => exact pad .one
  case pos => exact pad .two
  case pos => exact unmapped
  case neg => exact same

/-- The state a write leaves is that of the one target its address decodes to (R45). -/
theorem memWrite_cases {P : State → Prop} (s : State) (a : Word) (v : Byte)
    (ram : ∀ k, P (s.setBus { s.bus with ram := Memory.write s.bus.ram k v })) (picture : ∀ r, P (ppuRegWrite s r v))
    (audio : P (audioWrite s a v)) (dma : P (oamDma s v)) (pad : P (padWrite s v)) (unmapped : P (noteUnmapped s))
    (mapper : P (mapperCpuWrite s a v)) : P (memWrite s a v) := by
  unfold memWrite; dsimp only
  split_ifs
  case pos => exact ram _
  case pos => exact picture _
  case pos => exact audio
  case pos => exact dma
  case pos => exact audio
  case pos => exact pad
  case pos => exact audio
  case pos => exact unmapped
  case neg => exact mapper

theorem mapperRegisterWrite_isVariantB (s : State) (a : Word) (v : Byte) :
    (mapperRegisterWrite s a v).mapper.isVariantB = s.mapper.isVariantB := by
  unfold mapperRegisterWrite
  split <;> simp [Mapper.isVariantB, *]

theorem mapperCpuWrite_isVariantB (s : State) (a : Word) (v : Byte) :
    (mapperCpuWrite s a v).mapper.isVariantB = s.mapper.isVariantB := by
  unfold mapperCpuWrite
  split
  · rfl
  · exact mapperRegisterWrite_isVariantB s a v

/-- No write changes the mapper's variant. -/
theorem memWrite_isVariantB (s : State) (a : Word) (v : Byte) :
    (memWrite s a v).mapper.isVariantB = s.mapper.isVariantB := by
  apply memWrite_cases (P := fun t => t.mapper.isVariantB = s.mapper.isVariantB)
  case picture => exact fun r => by rw [(ppuRegWrite_else s r v).2.1]
  case dma => rw [(oamDma_else s v).2.1]
  case mapper => exact mapperCpuWrite_isVariantB s a v
  all_goals intros; rfl

/-- No read changes the outside's schedule. -/
theorem memRead_irqCalls (s : State) (a : Word) : (memRead s a).2.ext.irqCalls = s.ext.irqCalls := by
  apply memRead_cases (P := fun t => t.ext.irqCalls = s.ext.irqCalls)
  case picture => exact fun r => by rw [(ppuRegRead_else s r).2.2.2.2]
  case pad => exact fun port => by cases port <;> rfl
  all_goals rfl

theorem oamDma_irqCalls (s : State) (v : Byte) : (oamDma s v).ext.irqCalls = s.ext.irqCalls :=
  dmaCopy_keeps (R := fun t => t.ext.irqCalls = s.ext.irqCalls) v
    (fun t k ht => (memRead_irqCalls t (pageAddr v k)).trans ht) (s.latch v) rfl

theorem mapperCpuWrite_irqCalls (s : State) (a : Word) (v : Byte) :
    (mapperCpuWrite s a v).ext.irqCalls = s.ext.irqCalls := by
  unfold mapperCpuWrite mapperRegisterWrite
  split
  · rfl
  · split <;> rfl

/-- No write changes the outside's schedule. -/
theorem memWrite_irqCalls (s : State) (a : Word) (v : Byte) : (memWrite s a v).ext.irqCalls = s.ext.irqCalls := by
  apply memWrite_cases (P := fun t => t.ext.irqCalls = s.ext.irqCalls)
  case picture => exact fun r => by rw [(ppuRegWrite_else s r v).2.2.1]
  case dma => exact oamDma_irqCalls s v
  case mapper => exact mapperCpuWrite_irqCalls s a v
  all_goals intros; rfl

/-- What the loader fixed, the mapper's variant and the outside's schedule are as they were (R22, R202, R303). -/
structure SameFixed (s t : State) : Prop where
  prg : t.cart.prg = s.cart.prg
  n16 : t.cart.n16 = s.cart.n16
  n4 : t.cart.n4 = s.cart.n4
  mirror0 : t.cart.mirror0 = s.cart.mirror0
  variant : t.mapper.isVariantB = s.mapper.isVariantB
  irqCalls : t.ext.irqCalls = s.ext.irqCalls

namespace SameFixed

variable {s t : State}

theorem refl (s : State) : SameFixed s s := ⟨rfl, rfl, rfl, rfl, rfl, rfl⟩

theorem memRead (h : SameFixed s t) (a : Word) : SameFixed s (Machine.memRead t a).2 := by
  have hcart := memRead_cart t a
  exact ⟨by rw [hcart, h.prg], by rw [hcart, h.n16], by rw [hcart, h.n4], by rw [hcart, h.mirror0],
    by rw [memRead_mapper, h.variant], (memRead_irqCalls t a).trans h.irqCalls⟩

theorem memWrite (h : SameFixed s t) (a : Word) (v : Byte) : SameFixed s (Machine.memWrite t a v) := by
  obtain ⟨hprg, hn16, hn4, hmirror⟩ := memWrite_fixed t a v
  exact ⟨hprg.trans h.prg, hn16.trans h.n16, hn4.trans h.n4, hmirror.trans h.mirror0,
    (memWrite_isVariantB t a v).trans h.variant, (memWrite_irqCalls t a v).trans h.irqCalls⟩

/-- The mapper is of variant A, or of variant B, as before. -/
theorem mapper (h : SameFixed s t) :
    ((∃ m, s.mapper = .variantA m) → ∃ m, t.mapper = .variantA m) ∧
    ((∃ m, s.mapper = .variantB m) → ∃ m, t.mapper = .variantB m) := by
  simp only [← Mapper.isVariantB_eq_false, ← Mapper.isVariantB_eq_true, h.variant]
  exact ⟨id, id⟩

end SameFixed

theorem exec_sameFixed {i : Instr} {s t : State} (h : exec i s = .next t) : SameFixed s t :=
  exec_keeps (R := SameFixed s) (fun _ _ hu => ⟨hu.prg, hu.n16, hu.n4, hu.mirror0, hu.variant, hu.irqCalls⟩)
    (fun _ a hu => hu.memRead a) (fun _ a v hu => hu.memWrite a v) h (.refl s)

/-- Settles O36: the CPU's frame for the slot and the stall, and what bus accesses keep for the rest. -/
theorem hiddenStateFrame : Obligations.HiddenStateFrame := by
  unfold Obligations.HiddenStateFrame
  intro i s t h
  have hcpu := exec_cpuFrame h
  have hfix := exec_sameFixed h
  have hpos := exec_position h
  have hstall : (∀ m, i.storeOperand = some m → (resolve s m).addr ≠ 0x4014) →
      (∀ o, i.rmwOperand = some o → (resolve s o.mem).addr ≠ 0x4014) → t.cpu.stall = s.cpu.stall := by
    intro hstore hrmw
    apply hcpu.stall
    rintro (⟨m, hm, ha⟩ | ⟨o, ho, ha⟩)
    · exact hstore m hm ha
    · exact hrmw o ho ha
  exact ⟨hcpu.slot, hstall, ⟨hfix.prg, hfix.n16, hfix.n4, hfix.mirror0⟩, hfix.mapper.1, hfix.mapper.2,
    ⟨hpos.dot, hpos.scanline, hpos.frame⟩,
    ⟨hpos.front, hpos.back, hpos.sprites, hpos.sprCount, hpos.tileData, hpos.ntByte, hpos.atBits, hpos.loTile,
      hpos.hiTile, hpos.spr0Hit, hpos.sprOverflow⟩, hfix.irqCalls⟩

/-! ## The stack and the interrupt entry -/

/-- Settles O12: the equations of push and pull, and that the two stack locations of a 16-bit value differ. -/
theorem stackPushPull : Obligations.StackPushPull := by
  unfold Obligations.StackPushPull
  intro s v w
  have hup : s.cpu.sp - 1 - 1 + 1 = s.cpu.sp - 1 := by bv_omega
  have hup2 : s.cpu.sp - 1 + 1 = s.cpu.sp := by bv_omega
  have hne : stackIndex s.cpu.sp ≠ stackIndex (s.cpu.sp - 1) := fun h => by
    have := stackIndex_inj h
    bv_omega
  have hpull : pull16 (push16 s w) = (w, (push16 s w).setSp s.cpu.sp) := by
    simp only [pull16_eq, push16_eq, setSp_sp, setSp_bus, setBus_bus, hup, hup2, Memory.read_write_same,
      Memory.read_write_other _ _ hne, joinBytes_high_low]
  refine ⟨push_eq s v, ?_, ⟨s.cpu.sp + 1, BitVec.toNat_add .., pull_eq s⟩,
    ⟨highByte w, lowByte w, highByte_toNat w, lowByte_toNat w, rfl⟩, ?_, ?_⟩
  · rw [push_eq, setSp_sp, BitVec.toNat_sub, Nat.add_comm]; rfl
  · rw [hpull]
  · rw [hpull, push16_eq]; rfl

/-- The vector of the request in the slot (R317). -/
def requestVector (s : State) : Word := if s.cpu.irqSlot = .nmi then nmiVector else irqVector

/-- A request's vector and the byte after it are PRG. -/
theorem requestVector_bounds (s : State) : 0x6000 ≤ (requestVector s).toNat ∧ (requestVector s).toNat < 0xFFFF := by
  unfold requestVector
  split <;> decide

/-- Taking an interrupt in one equation (R317). -/
theorem serviceInterrupt_eq (s : State) :
    serviceInterrupt s = { s with
      bus := { s.bus with
        ram := Memory.write
          (Memory.write (Memory.write s.bus.ram (stackIndex s.cpu.sp) (highByte s.cpu.pc))
            (stackIndex (s.cpu.sp - 1)) (lowByte s.cpu.pc)) (stackIndex (s.cpu.sp - 2)) (packP false s.cpu.p) }
      cpu := { s.cpu with
        pc := joinBytes (peek s (requestVector s + 1)) (peek s (requestVector s)), sp := s.cpu.sp - 3
        p := putFlag .i true s.cpu.p, irqSlot := .none, cycles := s.cpu.cycles + 7 } } := by
  obtain ⟨hlo, hhi⟩ := requestVector_bounds s
  have h2 : s.cpu.sp - 1 - 1 = s.cpu.sp - 2 := by bv_omega
  have h3 : s.cpu.sp - 2 - 1 = s.cpu.sp - 3 := by bv_omega
  show ((enterHandler s (requestVector s) false).setSlot .none).charge 7 = _
  rw [enterHandler_eq s _ _ hlo hhi, h2, h3]
  rfl

/-- With no stall outstanding, a request that may be taken is taken (R82, R317). -/
theorem cpuStep_of_request {s : State} (hstall : s.cpu.stall = 0)
    (h : s.cpu.irqSlot = .nmi ∨ (s.cpu.irqSlot = .irq ∧ s.flag .i = false)) :
    cpuStep s = .next (serviceInterrupt s) := by
  unfold cpuStep
  rcases h with h | ⟨h, hi⟩
  · simp [hstall, h]
  · simp [hstall, h, hi]

/-- Settles O42: the step is `serviceInterrupt`, whose equation names the bytes pushed and the new status. -/
theorem interruptEntry : Obligations.InterruptEntry := by
  unfold Obligations.InterruptEntry
  intro s hstall hreq
  obtain ⟨-, hhi⟩ := requestVector_bounds s
  refine ⟨highByte s.cpu.pc, lowByte s.cpu.pc, packP false s.cpu.p, putFlag .i true s.cpu.p, requestVector s,
    requestVector s + 1, joinBytes (peek s (requestVector s + 1)) (peek s (requestVector s)), ?_, rfl, ?_,
    joinBytes_toNat _ _, ⟨?_, ?_, ?_⟩, ⟨getFlag_putFlag_same .i true _, ?_⟩, ?_⟩
  · rw [← joinBytes_toNat, joinBytes_high_low]
  · bv_omega
  · simp [getFlag_packP]
  · simp [getFlag_packP]
  · intro f hb hu
    simp [getFlag_packP, hb, hu]
  · exact fun f hf => getFlag_putFlag_other true _ hf
  · rw [cpuStep_of_request hstall hreq, serviceInterrupt_eq]
    rfl

/-! ## Every step keeps the invariant -/

theorem dmaByte_withCpu (v : Byte) (s : State) (c : Cpu) (k : Nat) :
    dmaByte v { s with cpu := c } k = { dmaByte v s k with cpu := c } := by
  unfold dmaByte; rw [memRead_withCpu]; rfl

theorem foldl_dmaByte_withCpu (v : Byte) (c : Cpu) (l : List Nat) (s : State) :
    l.foldl (dmaByte v) { s with cpu := c } = { l.foldl (dmaByte v) s with cpu := c } := by
  induction l generalizing s with
  | nil => rfl
  | cons k l ih => rw [List.foldl_cons, dmaByte_withCpu, ih, List.foldl_cons]

theorem oamDma_withCpu (s : State) (c : Cpu) (v : Byte) :
    ∃ d, oamDma { s with cpu := c } v = { oamDma s v with cpu := d } := by
  have hcopy : dmaCopy v (State.latch { s with cpu := c } v) = { dmaCopy v (s.latch v) with cpu := c } :=
    foldl_dmaByte_withCpu v c _ (s.latch v)
  unfold oamDma
  rw [hcopy]
  exact ⟨_, rfl⟩

theorem ppuWrite_withCpu (s : State) (c : Cpu) (a : PicAddr) (v : Byte) :
    ppuWrite { s with cpu := c } a v = { ppuWrite s a v with cpu := c } := by
  unfold ppuWrite
  split_ifs <;> rfl

theorem ppuRegWrite_withCpu (s : State) (c : Cpu) (r : PicReg) (v : Byte) :
    ppuRegWrite { s with cpu := c } r v = { ppuRegWrite s r v with cpu := c } := by
  cases r
  case data =>
    exact congrArg (fun u : State => u.setPpu { u.ppu with v := u.ppu.advanceV }) (ppuWrite_withCpu (s.latch v) c _ v)
  all_goals rfl

theorem mapperCpuWrite_withCpu (s : State) (c : Cpu) (a : Word) (v : Byte) :
    mapperCpuWrite { s with cpu := c } a v = { mapperCpuWrite s a v with cpu := c } := by
  unfold mapperCpuWrite mapperRegisterWrite
  split_ifs
  · rfl
  · cases s.mapper <;> rfl

/-- The CPU registers do not matter for what a write does outside the CPU. -/
theorem memWrite_withCpu (s : State) (c : Cpu) (a : Word) (v : Byte) :
    ∃ d, memWrite { s with cpu := c } a v = { memWrite s a v with cpu := d } := by
  unfold memWrite; dsimp only
  split_ifs
  case pos => exact ⟨c, rfl⟩
  case pos => exact ⟨c, ppuRegWrite_withCpu s c _ v⟩
  case pos => exact ⟨c, rfl⟩
  case pos => exact oamDma_withCpu s c v
  case pos => exact ⟨c, rfl⟩
  case pos => exact ⟨c, rfl⟩
  case pos => exact ⟨c, rfl⟩
  case pos => exact ⟨c, rfl⟩
  case neg => exact ⟨c, mapperCpuWrite_withCpu s c a v⟩

/-- The invariant's parts outside the CPU. Between two changes of P an instruction keeps these, whatever the CPU holds. -/
structure OutsideOk (s : State) : Prop where
  bus : s.bus.Ok
  cart : s.cart.Ok
  mapper : s.mapper.Ok s.cart
  ppu : s.ppu.Ok
  ext : Ext.Ok s.ext

theorem Inv.outside {s : State} (h : Inv s) : OutsideOk s := ⟨h.bus, h.cart, h.mapper, h.ppu, h.ext⟩

theorem OutsideOk.inv {s : State} (h : OutsideOk s) {c : Cpu} (hc : c.Ok) : Inv { s with cpu := c } :=
  ⟨hc, h.bus, h.cart, h.mapper, h.ppu, h.ext⟩

theorem OutsideOk.withCpu {s : State} (h : OutsideOk s) (c : Cpu) : OutsideOk { s with cpu := c } := { h with }

/-- The status byte `reset()` sets has bits 5 and 4 right (R340). -/
theorem Cpu.ok_of_resetP {c : Cpu} (h : c.p = 0x24) : c.Ok := by
  constructor <;> rw [h] <;> decide

/-- Some CPU state meets the invariant: the one after reset. -/
theorem resetCpu_ok : State.reset.cpu.Ok := Cpu.ok_of_resetP rfl

theorem OutsideOk.memRead {s : State} (h : OutsideOk s) (a : Word) : OutsideOk (Machine.memRead s a).2 := by
  have hr := memRead_inv (h.inv resetCpu_ok) a
  rw [memRead_withCpu] at hr
  exact hr.outside.withCpu _

theorem OutsideOk.memWrite {s : State} (h : OutsideOk s) (a : Word) (v : Byte) : OutsideOk (Machine.memWrite s a v) := by
  have hw := memWrite_inv (h.inv resetCpu_ok) a v
  obtain ⟨d, hd⟩ := memWrite_withCpu s State.reset.cpu a v
  rw [hd] at hw
  exact hw.outside.withCpu _

/-- CPU changes and bus accesses keep the parts outside the CPU. -/
theorem Moves.outsideOk {s t : State} (h : Moves s t) (hs : OutsideOk s) : OutsideOk t := by
  induction h with
  | start => exact hs
  | regs c _ ih => exact ih.withCpu c
  | read a _ ih => exact ih.memRead a
  | write a v _ ih => exact ih.memWrite a v

/-! ### Bits 5 and 4 of P -/

theorem unpackP_ok {c : Cpu} {m : Byte} (h : c.p = unpackP m) : c.Ok := by
  constructor <;> simp [h, getFlag_unpackP]

/-- No rule but those of PLP and RTI names bits 5 and 4 of P as written (R14). -/
theorem fixedBits_notMem_writesFlags {i : Instr} (hplp : i ≠ .plp) (hrti : i ≠ .rti) :
    .u ∉ i.writesFlags ∧ .b ∉ i.writesFlags := by
  cases i <;> simp_all [Instr.writesFlags]

/-- Every instruction keeps bits 5 and 4 of P: PLP and RTI put them right, no other touches them (R14, R140, R157). -/
theorem exec_cpuOk {i : Instr} {s t : State} (h : exec i s = .next t) (hs : s.cpu.Ok) : t.cpu.Ok := by
  by_cases hplp : i = .plp
  · subst hplp
    injection h with h
    exact unpackP_ok (congrArg (·.cpu.p) h.symm)
  by_cases hrti : i = .rti
  · subst hrti
    injection h with h
    rw [returnFromHandler_eq] at h
    exact unpackP_ok (congrArg (·.cpu.p) h.symm)
  obtain ⟨hu, hb⟩ := fixedBits_notMem_writesFlags hplp hrti
  have hf := (exec_cpuFrame h).flag
  exact ⟨(hf .u hu).trans hs.unusedSet, (hf .b hb).trans hs.breakClear⟩

/-! ### The parts of a step -/

theorem exec_inv {i : Instr} {s t : State} (h : exec i s = .next t) (hs : OutsideOk s) (hc : s.cpu.Ok) : Inv t :=
  ((exec_moves h).outsideOk hs).inv (exec_cpuOk h hc)

theorem runInstr_inv {s t : State} (h : runInstr s = .next t) (hs : Inv s) : Inv t :=
  exec_inv h ((fetchInstr_moves s).outsideOk hs.outside) (by rw [fetchInstr_cpu]; exact hs.cpu)

/-- Taking an interrupt writes the flag I only (R317). -/
theorem serviceInterrupt_inv {s : State} (hs : Inv s) : Inv (serviceInterrupt s) := by
  have hout : OutsideOk (serviceInterrupt s) :=
    (((Moves.start.enterHandler (requestVector s) false).setSlot .none).charge 7).outsideOk hs.outside
  have hp : (serviceInterrupt s).cpu.p = putFlag .i true s.cpu.p := by rw [serviceInterrupt_eq]
  have hc : (serviceInterrupt s).cpu.Ok := by
    constructor
    · rw [hp, getFlag_putFlag_other _ _ (by decide), hs.cpu.unusedSet]
    · rw [hp, getFlag_putFlag_other _ _ (by decide), hs.cpu.breakClear]
  exact hout.inv hc

/-- A CPU step that goes on is a stall step, an interrupt taken, or an instruction run with the slot empty, a masked IRQ
having been dropped (R82, R316, R317, R318). -/
theorem cpuStep_cases {s t : State} (h : cpuStep s = .next t) :
    (0 < s.cpu.stall ∧ t = stallStep s) ∨
    (s.cpu.stall = 0 ∧ (s.cpu.irqSlot = .nmi ∨ (s.cpu.irqSlot = .irq ∧ s.flag .i = false)) ∧
      t = serviceInterrupt s) ∨
    (s.cpu.stall = 0 ∧ (s.cpu.irqSlot = .none ∨ (s.cpu.irqSlot = .irq ∧ s.flag .i = true)) ∧
      runInstr (s.setSlot .none) = .next t) := by
  by_cases hstall : 0 < s.cpu.stall
  · simp only [cpuStep, if_pos hstall] at h
    injection h with h
    exact .inl ⟨hstall, h.symm⟩
  have hzero : s.cpu.stall = 0 := by omega
  simp only [cpuStep, if_neg hstall] at h
  cases hslot : s.cpu.irqSlot with
  | nmi =>
    rw [hslot] at h
    injection h with h
    exact .inr (.inl ⟨hzero, .inl rfl, h.symm⟩)
  | irq =>
    simp only [hslot] at h
    cases hi : s.flag .i with
    | true => exact .inr (.inr ⟨hzero, .inr ⟨rfl, rfl⟩, by simpa [hi] using h⟩)
    | false => exact .inr (.inl ⟨hzero, .inr ⟨rfl, rfl⟩, by simpa [hi, eq_comm] using h⟩)
  | none =>
    have hsame : s.setSlot .none = s := by rw [← hslot]; rfl
    rw [hslot] at h
    exact .inr (.inr ⟨hzero, .inl rfl, hsame.symm ▸ h⟩)

/-- A change of the CPU that leaves P alone keeps the invariant. -/
theorem Inv.withCpu {s : State} (h : Inv s) {c : Cpu} (hp : c.p = s.cpu.p) : Inv { s with cpu := c } :=
  h.outside.inv ⟨hp ▸ h.cpu.unusedSet, hp ▸ h.cpu.breakClear⟩

theorem cpuStep_inv {s t : State} (h : cpuStep s = .next t) (hs : Inv s) : Inv t := by
  obtain ⟨-, rfl⟩ | ⟨-, -, rfl⟩ | ⟨-, -, hrun⟩ := cpuStep_cases h
  · exact hs.withCpu rfl
  · exact serviceInterrupt_inv hs
  · exact runInstr_inv hrun (hs.withCpu rfl)

/-- The outside's call moves the slot and its schedule only, neither of which the invariant speaks of (R315). -/
theorem takeIrqCall_inv {s : State} (hs : Inv s) : Inv (takeIrqCall s) := by
  obtain ⟨slot, calls, h⟩ := takeIrqCall_eq s
  rw [h]
  exact ⟨⟨hs.cpu.unusedSet, hs.cpu.breakClear⟩, hs.bus, hs.cart, hs.mapper, hs.ppu, ⟨hs.ext.pad1, hs.ext.pad2⟩⟩

/-- A step that goes on is a CPU step after the outside's call, then three dots for each cycle (R300). -/
theorem step_next {s t : State} (h : step s = .next t) :
    ∃ u, cpuStep (takeIrqCall s) = .next u ∧ t = runDots (3 * (u.cpu.cycles - (takeIrqCall s).cpu.cycles)) u := by
  unfold step machineStep orchestrate at h
  split at h
  · rename_i u hu
    injection h with h
    exact ⟨u, hu, by rw [← h, afterCpu_eq]⟩
  · cases h
  · cases h

/-- Settles O59: the outside's call, the CPU step and the dots each keep the invariant. -/
theorem stepKeepsInvariant : Obligations.StepKeepsInvariant := by
  unfold Obligations.StepKeepsInvariant
  intro s t hs h
  obtain ⟨u, hu, rfl⟩ := step_next h
  exact runDots_inv (cpuStep_inv hu (takeIrqCall_inv hs)) _

/-! ## Construction and power-on -/

/-- The loader's guarantees, one by one (R201, R202, U21). -/
structure RomImage.Valid (img : RomImage) : Prop where
  prgBanks : 1 ≤ img.prgBanks
  chrBanks : img.chrBanks ≠ 1
  prg : Memory.Ok (img.prgBanks * Config.prgBank) img.prg
  chr : Memory.Ok (img.chrBanks * Config.chrBank) img.chr
  sram : Memory.Ok Config.sramSize img.sram

theorem RomImage.valid_guarantees {img : RomImage} (h : img.valid = true) : img.Valid := by
  simp only [RomImage.valid, Bool.and_eq_true, decide_eq_true_eq] at h
  obtain ⟨⟨⟨⟨⟨⟨⟨⟨-, hprg⟩, hchr⟩, hpwf⟩, hpin⟩, hcwf⟩, hcin⟩, hswf⟩, hsin⟩ := h
  exact ⟨hprg, hchr, ⟨hpwf, hpin⟩, ⟨hcwf, hcin⟩, ⟨hswf, hsin⟩⟩

/-- Variant B at power-on (R36). -/
def MapperB.powerOn (img : RomImage) : MapperB :=
  { shift := 0, count := 0, control := 0x0C, chr0 := 0, chr1 := 0, prg := 0, prgOff0 := 0,
    prgOff1 := (img.prgBanks - 1) * Config.prgBank, chrOff0 := 0, chrOff1 := Config.chrBank, mirror := img.mirror }

theorem powerOn_variantA {img : RomImage} (h : img.mapperId ≠ 1) :
    (State.powerOn img).mapper = .variantA { bank := 0 } := if_neg h

theorem powerOn_variantB {img : RomImage} (h : img.mapperId = 1) :
    (State.powerOn img).mapper = .variantB (MapperB.powerOn img) := if_pos h

theorem cart_powerOn_ok {img : RomImage} (h : img.Valid) : (State.powerOn img).cart.Ok where
  n16 := h.prgBanks
  n4 := by
    have := h.chrBanks
    show 2 ≤ img.n4
    unfold RomImage.n4
    split <;> omega
  prg := h.prg
  sram := h.sram
  chr := by
    show Memory.Ok (img.n4 * Config.chrBank) (if img.chrBanks = 0 then [] else img.chr)
    unfold RomImage.n4
    split
    · exact Memory.ok_nil _
    · exact h.chr

theorem mapper_powerOn_ok {img : RomImage} (h : img.Valid) :
    (State.powerOn img).mapper.Ok (State.powerOn img).cart := by
  have hprg : 1 * Config.prgBank ≤ img.prgBanks * Config.prgBank := Nat.mul_le_mul_right _ h.prgBanks
  have hchr : 2 * Config.chrBank ≤ img.n4 * Config.chrBank := Nat.mul_le_mul_right _ (cart_powerOn_ok h).n4
  have hlast : (img.prgBanks - 1) * Config.prgBank + Config.prgBank ≤ img.prgBanks * Config.prgBank := by
    simp only [Config.prgBank] at hprg ⊢
    omega
  by_cases hid : img.mapperId = 1
  · rw [powerOn_variantB hid]
    refine ⟨Nat.zero_le _, ?_, hlast, ?_, ?_⟩
    · show 0 + Config.prgBank ≤ img.prgBanks * Config.prgBank
      omega
    · show 0 + Config.chrBank ≤ img.n4 * Config.chrBank
      omega
    · show Config.chrBank + Config.chrBank ≤ img.n4 * Config.chrBank
      omega
  · rw [powerOn_variantA hid]
    exact h.prgBanks

theorem ppu_powerOn_ok : Ppu.powerOn.Ok :=
  ⟨by decide, by decide, by decide, rfl, by decide, rfl, rfl, Memory.ok_nil _, Memory.ok_nil _, Memory.ok_nil _⟩

/-- Everything outside the CPU meets the invariant before the first `reset()`. -/
theorem powerOn_outsideOk {img : RomImage} (h : img.Valid) : OutsideOk (State.powerOn img) :=
  ⟨⟨Memory.ok_nil _, Memory.ok_nil _, Memory.ok_nil _⟩, cart_powerOn_ok h, mapper_powerOn_ok h, ppu_powerOn_ok,
    ⟨Nat.zero_le _, Nat.zero_le _⟩⟩

/-- At power-on the upper PRG window shows the last bank, in both variants (R36, R204). -/
theorem peek_powerOn_lastBank (img : RomImage) {a : Word} (h : 0xC000 ≤ a.toNat) :
    peek (State.powerOn img) a = Memory.read img.prg ((img.prgBanks - 1) * 16384 + (a.toNat - 0xC000)) := by
  have hidx : prgIndex (State.powerOn img) a = (img.prgBanks - 1) * 16384 + (a.toNat - 0xC000) := by
    have hlow : ¬a.toNat < 0xC000 := by omega
    by_cases hid : img.mapperId = 1
    · simp only [prgIndex, powerOn_variantB hid, if_neg hlow]; rfl
    · simp only [prgIndex, powerOn_variantA hid, if_neg hlow]; rfl
  unfold peek
  rw [memRead_of_mapper (by omega)]
  simp only [mapperCpuRead, if_neg (show ¬a.toNat < 0x8000 by omega), hidx]
  rfl

theorem mirror_powerOn (img : RomImage) : (State.powerOn img).mirror = img.mirror := by
  by_cases hid : img.mapperId = 1
  · simp only [State.mirror, powerOn_variantB hid]; rfl
  · simp only [State.mirror, powerOn_variantA hid]; rfl

theorem construct_of_valid {img : RomImage} (h : img.valid = true) :
    construct img = .next (resetCall (State.powerOn img)) := if_pos h

theorem construct_of_invalid {img : RomImage} (h : img.valid = false) : construct img = .refused .loadError := by
  simp [construct, h]

theorem construct_inv {img : RomImage} (h : img.Valid) : Inv (resetCall (State.powerOn img)) := by
  rw [resetCall_eq]
  exact (powerOn_outsideOk h).inv (Cpu.ok_of_resetP rfl)

theorem position_powerOn : Ppu.powerOn.position = 0 := by simp [Ppu.position, Ppu.powerOn]

/-- Settles O40: the values are those of the machine before `reset()`, the invariant holds of its parts one by one, and the
reset vector lies in the window of the last PRG bank. -/
theorem powerOn : Obligations.PowerOn := by
  unfold Obligations.PowerOn
  intro img
  refine ⟨construct_of_invalid, fun hv => ?_⟩
  have hval := RomImage.valid_guarantees hv
  refine ⟨_, construct_of_valid hv, construct_inv hval, ?_⟩
  rw [resetCall_eq]
  have := hval.prgBanks
  have hhi : (img.prgBanks - 1) * 16384 + ((0xFFFD : Word).toNat - 0xC000) = img.prgBanks * 16384 - 3 := by
    show (img.prgBanks - 1) * 16384 + 16381 = _
    omega
  have hlo : (img.prgBanks - 1) * 16384 + ((0xFFFC : Word).toNat - 0xC000) = img.prgBanks * 16384 - 4 := by
    show (img.prgBanks - 1) * 16384 + 16380 = _
    omega
  refine ⟨?_, rfl, rfl, rfl, rfl, rfl, rfl, rfl, rfl, rfl, ?_, ?_, ?_, ?_, ?_⟩
  · rw [← hhi, ← hlo, ← peek_powerOn_lastBank img (by decide), ← peek_powerOn_lastBank img (by decide)]
    exact joinBytes_toNat _ _
  · intro hchr
    exact ⟨if_neg hchr, if_neg hchr⟩
  · exact mirror_powerOn img
  · exact powerOn_variantA
  · intro hid
    exact ⟨_, powerOn_variantB hid, rfl, rfl, rfl, rfl, rfl, rfl, rfl, rfl, rfl, rfl⟩
  · exact ⟨position_powerOn, rfl, rfl, rfl, rfl, rfl, rfl, rfl, rfl, rfl, rfl, rfl, rfl, rfl, rfl, rfl, rfl, rfl, rfl,
      rfl, rfl⟩

end Sys2Proof.Machine
end

section
/-!
PROOFS, the family of 20_memory.md (O6 to O11, O13 to O16, O22, O34, O37, O38). First what an address decodes to and the
ports, then picture space, then the frame of a write and of a read, operands, the stack's round trips, OAM DMA, and last
the frames of whole instructions.
-/

namespace Sys2Proof.Machine

/-! ## What an address decodes to -/

theorem quiet_iff {a : Word} : quiet a = true ↔
    a.toNat < 0x2000 ∨ (0x2000 ≤ a.toNat ∧ a.toNat < 0x4000 ∧ a.toNat % 8 ≠ 2 ∧ a.toNat % 8 ≠ 7) ∨
      a.toNat = 0x4014 ∨ 0x6000 ≤ a.toNat := by
  have hport : a = 0x4014 ↔ a.toNat = 0x4014 := BitVec.toNat_inj.symm
  simp only [quiet, Bool.or_eq_true, Bool.and_eq_true, decide_eq_true_eq, bne_iff_ne, beq_iff_eq, hport, or_assoc,
    and_assoc]

theorem holdsBytes_iff {a : Word} : holdsBytes a = true ↔ a.toNat < 0x2000 ∨ 0x6000 ≤ a.toNat := by
  simp [holdsBytes]

theorem memRead_of_picture {s : State} {a : Word} (hlo : 0x2000 ≤ a.toNat) (hhi : a.toNat < 0x4000) :
    memRead s a = ppuRegRead s (picReg a) := by
  unfold memRead; dsimp only
  rw [if_neg (by omega), if_pos hhi]

theorem memWrite_of_picture {s : State} {a : Word} (v : Byte) (hlo : 0x2000 ≤ a.toNat) (hhi : a.toNat < 0x4000) :
    memWrite s a v = ppuRegWrite s (picReg a) v := by
  unfold memWrite; dsimp only
  rw [if_neg (by omega), if_pos hhi]

/-- Which picture register an address names depends on its lowest three bits only (R47). -/
theorem picReg_congr {a b : Word} (h : a.toNat % 8 = b.toNat % 8) : picReg a = picReg b := by
  have hbits : a.setWidth 3 = b.setWidth 3 := BitVec.eq_of_toNat_eq (by simpa using h)
  unfold picReg
  rw [hbits]

/-- Which addresses name the OAM port and the data port (R230). -/
theorem picReg_eq_port_iff (a : Word) :
    (picReg a = .oamData ↔ a.toNat % 8 = 4) ∧ (picReg a = .data ↔ a.toNat % 8 = 7) := by
  have hlt : a.toNat % 8 < 8 := Nat.mod_lt _ (by decide)
  unfold picReg
  rw [BitVec.toNat_setWidth, show 2 ^ 3 = 8 from rfl]
  generalize a.toNat % 8 = n at hlt
  interval_cases n <;> decide

/-- Settles O7: an address and its mirror have the same lowest three bits. -/
theorem pictureRegisterMirrors : Obligations.PictureRegisterMirrors := by
  unfold Obligations.PictureRegisterMirrors
  intro s n k v hn hk
  have haddr : (BitVec.ofNat 16 (0x2000 + n + 8 * k)).toNat = 0x2000 + n + 8 * k := by
    rw [BitVec.toNat_ofNat]; omega
  have hbase : (BitVec.ofNat 16 (0x2000 + n)).toNat = 0x2000 + n := by
    rw [BitVec.toNat_ofNat]; omega
  have hreg : picReg (BitVec.ofNat 16 (0x2000 + n + 8 * k)) = picReg (BitVec.ofNat 16 (0x2000 + n)) :=
    picReg_congr (by omega)
  rw [memRead_of_picture, memRead_of_picture, memWrite_of_picture, memWrite_of_picture, hreg]
  · exact ⟨rfl, rfl⟩
  all_goals omega

theorem memRead_of_unmapped {s : State} {a : Word}
    (h : (0x4000 ≤ a.toNat ∧ a.toNat < 0x4014) ∨ (0x4018 ≤ a.toNat ∧ a.toNat < 0x6000)) :
    memRead s a = (0, noteUnmapped s) := by
  unfold memRead; dsimp only
  rcases h with ⟨hlo, hhi⟩ | ⟨hlo, hhi⟩
  · rw [if_neg (by omega), if_neg (by omega), if_pos hhi]
  · repeat rw [if_neg (by omega)]
    rw [if_pos hhi]

theorem memWrite_of_unmapped {s : State} {a : Word} (v : Byte) (hlo : 0x4018 ≤ a.toNat) (hhi : a.toNat < 0x6000) :
    memWrite s a v = noteUnmapped s := by
  unfold memWrite; dsimp only
  repeat rw [if_neg (by omega)]
  rw [if_pos hhi]

/-- A read of a decoded address is not counted (R51). -/
theorem memRead_unmapped_of_decoded {s : State} {a : Word}
    (h : a.toNat < 0x4000 ∨ (0x4014 ≤ a.toNat ∧ a.toNat < 0x4018) ∨ 0x6000 ≤ a.toNat) :
    (memRead s a).2.bus.unmapped = s.bus.unmapped := by
  unfold memRead; dsimp only
  split_ifs
  case pos => rfl
  case pos => rw [(ppuRegRead_else s _).2.1]
  case pos => omega
  case pos => rfl
  case pos => rfl
  case pos => rfl
  case pos => rfl
  case pos => omega
  case neg => rfl

/-- Settles O8: the decode of the undecoded ranges, and the reads of decoded ones. -/
theorem unmappedAccessCounted : Obligations.UnmappedAccessCounted := by
  unfold Obligations.UnmappedAccessCounted
  intro s a v
  exact ⟨memRead_of_unmapped, fun ⟨hlo, hhi⟩ => memWrite_of_unmapped v hlo hhi, memRead_unmapped_of_decoded, rfl⟩

/-- Settles O11: both reads are quiet, so each 16-bit read is the pair of the two bytes. -/
theorem wordReads : Obligations.WordReads := by
  unfold Obligations.WordReads
  intro s a b c hb hc ha
  have hnext : a + 1 = b := BitVec.eq_of_toNat_eq (by rw [BitVec.toNat_add, hb]; rfl)
  have hpage : nextInPage a = c := by
    apply BitVec.eq_of_toNat_eq
    rw [nextInPage, joinBytes_toNat, highByte_toNat, BitVec.toNat_add, lowByte_toNat, hc]
    simp
  constructor
  · intro hq
    rw [read16, hnext, readPair_quiet ha hq]
    exact ⟨rfl, joinBytes_toNat _ _⟩
  · intro hq
    rw [read16Bug, hpage, readPair_quiet ha hq]
    exact ⟨rfl, joinBytes_toNat _ _⟩

/-! ## The external ports -/

theorem memRead_controller (s : State) (port : Port) :
    memRead s (if port = .one then 0x4016 else 0x4017) = padRead s port := by cases port <;> rfl

theorem bitByte_zero_lt (b : Bool) : (bitByte b 0).toNat < 2 := by cases b <;> decide

/-- Past index 7 the controller answers "no button" (R52, log 7). -/
theorem padBit_past {e : Ext} {port : Port} (h : 8 ≤ (e.pad port).index) : padBit e port = false :=
  if_neg (by omega)

theorem padRead_pad (s : State) (port : Port) : (padRead s port).2.ext.pad port = (s.ext.pad port).advance := by
  cases port <;> rfl

theorem strobeWrite_eq (p : Pad) (v : Byte) :
    p.strobeWrite v = { strobe := decide (v.toNat % 2 = 1), index := if v.toNat % 2 = 1 then 0 else p.index } := by
  have hbit : v.getLsbD 0 = decide (v.toNat % 2 = 1) := Nat.testBit_zero _
  simp only [Pad.strobeWrite, hbit, decide_eq_true_eq]

theorem memWrite_of_audio {s : State} {a : Word} (v : Byte)
    (h : (0x4000 ≤ a.toNat ∧ a.toNat < 0x4014) ∨ a.toNat = 0x4015 ∨ a.toNat = 0x4017) :
    memWrite s a v = audioWrite s a v := by
  unfold memWrite; dsimp only
  split_ifs
  case pos => omega
  case pos => omega
  case pos => rfl
  case pos => omega
  case pos => rfl
  case pos => omega
  case pos => rfl
  case pos => omega
  case neg => omega

/-- Settles O13: the controllers' contract from `padRead` and `padWrite`, and the audio port from its definition. -/
theorem externalPorts : Obligations.ExternalPorts := by
  unfold Obligations.ExternalPorts
  intro s v
  refine ⟨fun port => ?_, fun port => ?_, fun a ha => ?_, rfl, rfl, rfl, rfl, rfl⟩
  · simp only [peek, afterRead, memRead_controller, padRead_pad]
    refine ⟨bitByte_zero_lt _, fun h => ?_, rfl, rfl⟩
    simp [padRead, padBit_past h, bitByte]
  · have hpad : (memWrite s 0x4016 v).ext.pad port = (s.ext.pad port).strobeWrite v := by cases port <;> rfl
    rw [hpad, strobeWrite_eq]
  · rw [memWrite_of_audio v ha]
    exact ⟨rfl, rfl, rfl, rfl, rfl, rfl, rfl⟩

/-! ## Storages and the bytes they hold -/

/-- What the mapper answers depends on save-RAM, PRG, the bank count and the mapper state only. -/
theorem mapperCpuRead_congr_storages {s t : State} (a : Word) (hsram : t.cart.sram = s.cart.sram)
    (hprg : t.cart.prg = s.cart.prg) (hn16 : t.cart.n16 = s.cart.n16) (hmapper : t.mapper = s.mapper) :
    mapperCpuRead t a = mapperCpuRead s a := by
  unfold mapperCpuRead prgIndex
  rw [hsram, hprg, hn16, hmapper]

theorem peek_of_ram {s : State} {a : Word} (h : a.toNat < 0x2000) :
    peek s a = Memory.read s.bus.ram (a.toNat % Config.ramSize) := by rw [peek, memRead_of_ram h]

theorem peek_of_mapper {s : State} {a : Word} (h : 0x6000 ≤ a.toNat) : peek s a = mapperCpuRead s a := by
  rw [peek, memRead_of_mapper h]

theorem mapperCpuRead_of_sram {s : State} {a : Word} (h : a.toNat < 0x8000) :
    mapperCpuRead s a = Memory.read s.cart.sram (a.toNat - 0x6000) := if_pos h

theorem mapperCpuRead_of_prg {s : State} {a : Word} (h : 0x8000 ≤ a.toNat) :
    mapperCpuRead s a = Memory.read s.cart.prg (prgIndex s a) := if_neg (by omega)

theorem memWrite_of_sram {s : State} {a : Word} (v : Byte) (hlo : 0x6000 ≤ a.toNat) (hhi : a.toNat < 0x8000) :
    memWrite s a v = s.setCart { s.cart with sram := Memory.write s.cart.sram (a.toNat - 0x6000) v } := by
  rw [memWrite_of_mapper v hlo]
  exact if_pos hhi

theorem memWrite_of_mapperRegister {s : State} {a : Word} (v : Byte) (h : 0x8000 ≤ a.toNat) :
    ∃ m, memWrite s a v = s.setMapper m := by
  rw [memWrite_of_mapper v (by omega)]
  unfold mapperCpuWrite mapperRegisterWrite
  rw [if_neg (by omega)]
  split <;> exact ⟨_, rfl⟩

/-- The CPU registers do not matter for the byte a read returns. -/
@[simp] theorem peek_withCpu (s : State) (c : Cpu) (a : Word) : peek { s with cpu := c } a = peek s a := by
  rw [peek, memRead_withCpu, peek]

/-- An address of work RAM shares its cell with its mirrors (R46). -/
theorem sameCell_of_ram {a b : Word} (ha : a.toNat < 0x2000) :
    sameCell a b = true ↔ b.toNat < 0x2000 ∧ b.toNat % Config.ramSize = a.toNat % Config.ramSize := by
  unfold sameCell
  by_cases hb : b.toNat < 0x2000
  · rw [if_pos ⟨ha, hb⟩, beq_iff_eq]
    exact ⟨fun h => ⟨hb, h.symm⟩, fun h => h.2.symm⟩
  · have hne : a ≠ b := by rintro rfl; exact hb ha
    simp [hb, hne]

/-- Any other address shares its cell with no other address. -/
theorem sameCell_of_ge {a b : Word} (ha : 0x2000 ≤ a.toNat) : sameCell a b = true ↔ a = b := by
  unfold sameCell
  rw [if_neg (by omega)]
  exact beq_iff_eq

/-! ## Picture space -/

/-- Which of the two 1 KB halves a logical nametable lies in, and so which byte an address names (R55). -/
theorem ntIndex_eq (mode : Mirroring) (q : PicAddr) :
    let rel := (q.toNat - 0x2000) % 0x1000
    ntIndex mode q =
      match mode with
      | .horizontal => rel / 0x800 * 0x400 + rel % 0x400
      | .vertical => rel % 0x800
      | .single0 => rel % 0x400
      | .single1 => 0x400 + rel % 0x400
      | .four => rel % 0x800 := by
  dsimp only [ntIndex, Config.ntSize]
  have hrel : (q.toNat - 0x2000) % 0x1000 < 0x1000 := Nat.mod_lt _ (by decide)
  generalize (q.toNat - 0x2000) % 0x1000 = rel at hrel
  obtain ⟨table, htable⟩ : ∃ table, rel / 0x400 = table := ⟨_, rfl⟩
  rw [htable]
  have hlt : table < 4 := by omega
  cases mode <;> interval_cases table <;> simp only [mirrorTable] <;> omega

/-- The palette's aliases: 16, 20, 24 and 28 name the bytes 0, 4, 8 and 12 (R56). -/
theorem palIndex_eq (q : PicAddr) :
    palIndex q =
      let k := q.toNat % 32
      if k = 16 ∨ k = 20 ∨ k = 24 ∨ k = 28 then k - 16 else k := by
  have hiff : (16 ≤ q.toNat % 32 ∧ q.toNat % 32 % 4 = 0) ↔
      (q.toNat % 32 = 16 ∨ q.toNat % 32 = 20 ∨ q.toNat % 32 = 24 ∨ q.toNat % 32 = 28) := by omega
  unfold palIndex
  simp only [hiff]

theorem ppuRead_of_nametable {s : State} {q : PicAddr} (hlo : 0x2000 ≤ q.toNat) (hhi : q.toNat < 0x3F00) :
    ppuRead s q = Memory.read s.bus.nt (ntIndex s.mirror q) := by
  rw [ppuRead, if_neg (by omega), if_pos hhi]

theorem ppuRead_of_palette {s : State} {q : PicAddr} (h : 0x3F00 ≤ q.toNat) :
    ppuRead s q = Memory.read s.bus.pal (palIndex q) := by
  rw [ppuRead, if_neg (by omega), if_neg (by omega)]

/-- The byte in a cell of picture space, cells as `pictureCell` names them (R53). -/
def readCell (s : State) (c : Nat × Nat) : Byte :=
  match c.1 with
  | 0 => Memory.read s.cart.chr c.2
  | 1 => Memory.read s.bus.nt c.2
  | _ => Memory.read s.bus.pal c.2

theorem ppuRead_eq_readCell (s : State) (q : PicAddr) : ppuRead s q = readCell s (pictureCell s q) := by
  unfold ppuRead pictureCell
  split_ifs <;> rfl

theorem pictureCell_ppuWrite (s : State) (q r : PicAddr) (v : Byte) :
    pictureCell (ppuWrite s q v) r = pictureCell s r := by
  unfold ppuWrite
  split_ifs <;> rfl

/-- A write of picture space changes the one cell its address names (R54). -/
theorem readCell_ppuWrite (s : State) (q r : PicAddr) (v : Byte) :
    readCell (ppuWrite s q v) (pictureCell s r) =
      if pictureCell s r = pictureCell s q then v else readCell s (pictureCell s r) := by
  unfold ppuWrite pictureCell
  split_ifs <;> simp_all [readCell, mapperChrWrite, Memory.read_write]

/-- Settles O10: the index functions in the statement's form, and picture space as cells for the write. -/
theorem pictureSpaceDecode : Obligations.PictureSpaceDecode := by
  unfold Obligations.PictureSpaceDecode
  refine ⟨fun s q hlo hhi => ?_, fun s q hlo => ?_, fun s q r v => ⟨?_, fun hne => ?_⟩⟩
  · rw [ppuRead_of_nametable hlo hhi]
    exact congrArg (Memory.read s.bus.nt) (ntIndex_eq s.mirror q)
  · rw [ppuRead_of_palette hlo, palIndex_eq]
  · rw [ppuRead_eq_readCell, pictureCell_ppuWrite, readCell_ppuWrite, if_pos rfl]
  · rw [ppuRead_eq_readCell, pictureCell_ppuWrite, readCell_ppuWrite, if_neg hne, ppuRead_eq_readCell]

/-! ## What a write leaves unchanged -/

/-- A byte of work RAM, save-RAM or PRG depends on those storages, the bank count and the mapper only. -/
theorem peek_congr_storages {s t : State} {a : Word} (h : holdsBytes a = true) (hram : t.bus.ram = s.bus.ram)
    (hsram : t.cart.sram = s.cart.sram) (hprg : t.cart.prg = s.cart.prg) (hn16 : t.cart.n16 = s.cart.n16)
    (hmapper : t.mapper = s.mapper) : peek t a = peek s a := by
  rcases holdsBytes_iff.mp h with h | h
  · rw [peek_of_ram h, peek_of_ram h, hram]
  · rw [peek_of_mapper h, peek_of_mapper h, mapperCpuRead_congr_storages a hsram hprg hn16 hmapper]

/-- A store that leaves the Bus memories, the cartridge and the mapper as they were. -/
theorem StoreFrame.of_storages {s t : State} {a : Word} (ha : 0x4000 ≤ a.toNat) (hram : t.bus.ram = s.bus.ram)
    (hnt : t.bus.nt = s.bus.nt) (hpal : t.bus.pal = s.bus.pal) (hcart : t.cart = s.cart)
    (hmapper : t.mapper = s.mapper) (hoam : a ≠ 0x4014 → t.ppu.oam = s.ppu.oam) : StoreFrame s t a where
  bytes _ hb _ _ := peek_congr hb hram hcart hmapper
  prg := by rw [hcart]
  ram _ := hram
  sram _ := by rw [hcart]
  mapper _ := hmapper
  picture _ := ⟨hnt, hpal, by rw [hcart]⟩
  pictureByte _ hhi := absurd ha (by omega)
  oam _ := hoam
  oamByte _ hhi := absurd ha (by omega)

theorem storeFrame_of_ram {s : State} {a : Word} (v : Byte) (ha : a.toNat < 0x2000) :
    StoreFrame s (memWrite s a v) a := by
  rw [memWrite_of_ram v ha]
  have hbytes : ∀ b, holdsBytes b = true → sameCell a b = false →
      peek (s.setBus { s.bus with ram := Memory.write s.bus.ram (a.toNat % Config.ramSize) v }) b = peek s b := by
    intro b hb hcell
    rcases holdsBytes_iff.mp hb with hb | hb
    · rw [peek_of_ram hb, peek_of_ram hb]
      refine Memory.read_write_other _ _ fun hidx => ?_
      rw [(sameCell_of_ram ha).mpr ⟨hb, hidx⟩] at hcell
      cases hcell
    · rw [peek_of_mapper hb, peek_of_mapper hb, mapperCpuRead_congr b rfl rfl]; rfl
  exact
    { bytes := fun b hb hcell _ => hbytes b hb hcell
      prg := rfl
      ram := fun hlo => absurd ha (by omega)
      sram := fun _ => rfl
      mapper := fun _ => rfl
      picture := fun _ => ⟨rfl, rfl, rfl⟩
      pictureByte := fun hlo => absurd ha (by omega)
      oam := fun _ _ => rfl
      oamByte := fun hlo => absurd ha (by omega) }

/-- Only the data port writes picture space (R243). -/
theorem ppuRegWrite_storages {s : State} {r : PicReg} (v : Byte) (h : r ≠ .data) :
    (ppuRegWrite s r v).bus = s.bus ∧ (ppuRegWrite s r v).cart = s.cart := by
  cases r
  case data => exact absurd rfl h
  all_goals exact ⟨rfl, rfl⟩

/-- A register write changes at most the picture cell the data port names (R243). -/
theorem ppuRead_ppuRegWrite (s : State) (r : PicReg) (v : Byte) {q : PicAddr}
    (h : pictureCell s q ≠ pictureCell s s.ppu.dataAddr) : ppuRead (ppuRegWrite s r v) q = ppuRead s q := by
  cases r
  case data => exact (pictureSpaceDecode.2.2 (s.latch v) _ q v).2 h
  all_goals rfl

theorem writeScroll_oam (p : Ppu) (v : Byte) : (p.writeScroll v).oam = p.oam := by
  unfold Ppu.writeScroll; split <;> rfl

theorem writeAddress_oam (p : Ppu) (v : Byte) : (p.writeAddress v).oam = p.oam := by
  unfold Ppu.writeAddress; split <;> rfl

/-- Of the register writes only the OAM port's changes OAM (R239). -/
theorem ppuRegWrite_oam (s : State) {r : PicReg} (v : Byte) (h : r ≠ .oamData) :
    (ppuRegWrite s r v).ppu.oam = s.ppu.oam := by
  cases r
  case oamData => exact absurd rfl h
  case scroll => exact writeScroll_oam _ v
  case address => exact writeAddress_oam _ v
  case data =>
    have hppu := (ppuWrite_else (s.latch v) (s.latch v).ppu.dataAddr v).2.2.1
    exact (congrArg Ppu.oam hppu :)
  all_goals rfl

/-- A register write changes at most the OAM byte the OAM address names (R239). -/
theorem ppuRegWrite_oamByte (s : State) (r : PicReg) (v : Byte) {k : Nat} (h : k ≠ s.ppu.oamAddr.toNat) :
    Memory.read (ppuRegWrite s r v).ppu.oam k = Memory.read s.ppu.oam k := by
  by_cases hr : r = .oamData
  · subst hr
    exact Memory.read_write_other _ v h
  · rw [ppuRegWrite_oam s v hr]

theorem storeFrame_of_picture {s : State} {a : Word} (v : Byte) (hlo : 0x2000 ≤ a.toNat) (hhi : a.toNat < 0x4000) :
    StoreFrame s (memWrite s a v) a := by
  rw [memWrite_of_picture v hlo hhi]
  obtain ⟨-, hmapper, -, hram, -, hprg, hsram, hn16, -⟩ := ppuRegWrite_else s (picReg a) v
  obtain ⟨hoam, hdata⟩ := picReg_eq_port_iff a
  exact
    { bytes := fun b hb _ _ => peek_congr_storages hb hram hsram hprg hn16 hmapper
      prg := hprg
      ram := fun _ => hram
      sram := fun _ => hsram
      mapper := fun _ => hmapper
      picture := fun h => by
        obtain ⟨hbus, hcart⟩ := ppuRegWrite_storages (s := s) v (r := picReg a) (mt hdata.mp (by omega))
        rw [hbus, hcart]
        exact ⟨rfl, rfl, rfl⟩
      pictureByte := fun _ _ q hq => ppuRead_ppuRegWrite s _ v hq
      oam := fun h _ => ppuRegWrite_oam s v (mt hoam.mp (by omega))
      oamByte := fun _ _ k hk => ppuRegWrite_oamByte s _ v hk }

/-- The targets between the picture registers and the Mapper store nothing but OAM DMA (R48 to R50, R52, R245). -/
theorem storeFrame_of_port {s : State} {a : Word} (v : Byte) (hlo : 0x4000 ≤ a.toNat) (hhi : a.toNat < 0x6000) :
    StoreFrame s (memWrite s a v) a := by
  unfold memWrite; dsimp only
  split_ifs
  case pos => omega
  case pos => omega
  case pos => exact .of_storages hlo rfl rfl rfl rfl rfl fun _ => rfl
  case pos h =>
    obtain ⟨hcart, hmapper, hram, hnt, hpal, -⟩ := oamDma_else s v
    exact .of_storages hlo hram hnt hpal hcart hmapper fun hne => absurd (BitVec.eq_of_toNat_eq h) hne
  case pos => exact .of_storages hlo rfl rfl rfl rfl rfl fun _ => rfl
  case pos => exact .of_storages hlo rfl rfl rfl rfl rfl fun _ => rfl
  case pos => exact .of_storages hlo rfl rfl rfl rfl rfl fun _ => rfl
  case neg => exact .of_storages hlo rfl rfl rfl rfl rfl fun _ => rfl

theorem storeFrame_of_sram {s : State} {a : Word} (v : Byte) (hlo : 0x6000 ≤ a.toNat) (hhi : a.toNat < 0x8000) :
    StoreFrame s (memWrite s a v) a := by
  rw [memWrite_of_sram v hlo hhi]
  have hbytes : ∀ b, holdsBytes b = true → sameCell a b = false →
      peek (s.setCart { s.cart with sram := Memory.write s.cart.sram (a.toNat - 0x6000) v }) b = peek s b := by
    intro b hb hcell
    have hne : a.toNat ≠ b.toNat := fun heq => by
      rw [(sameCell_of_ge (by omega)).mpr (BitVec.eq_of_toNat_eq heq)] at hcell
      cases hcell
    rcases holdsBytes_iff.mp hb with hb | hb
    · rw [peek_of_ram hb, peek_of_ram hb]; rfl
    rw [peek_of_mapper hb, peek_of_mapper hb]
    by_cases hprg : b.toNat < 0x8000
    · rw [mapperCpuRead_of_sram hprg, mapperCpuRead_of_sram hprg]
      exact Memory.read_write_other _ v (by omega)
    · rw [mapperCpuRead_of_prg (by omega), mapperCpuRead_of_prg (by omega)]; rfl
  exact
    { bytes := fun b hb hcell _ => hbytes b hb hcell
      prg := rfl
      ram := fun _ => rfl
      sram := fun h => by omega
      mapper := fun _ => rfl
      picture := fun _ => ⟨rfl, rfl, rfl⟩
      pictureByte := fun _ h => by omega
      oam := fun _ _ => rfl
      oamByte := fun _ h => by omega }

/-- A mapper register write changes the windows only, so no byte below 0x8000 (R71, R205, R217). -/
theorem storeFrame_of_mapperRegister {s : State} {a : Word} (v : Byte) (ha : 0x8000 ≤ a.toNat) :
    StoreFrame s (memWrite s a v) a := by
  obtain ⟨m, hm⟩ := memWrite_of_mapperRegister (s := s) v ha
  rw [hm]
  have hbytes : ∀ b, holdsBytes b = true → b.toNat < 0x8000 → peek (s.setMapper m) b = peek s b := by
    intro b hb hlt
    rcases holdsBytes_iff.mp hb with hb | hb
    · rw [peek_of_ram hb, peek_of_ram hb]; rfl
    · rw [peek_of_mapper hb, peek_of_mapper hb, mapperCpuRead_of_sram hlt, mapperCpuRead_of_sram hlt]; rfl
  exact
    { bytes := fun b hb _ h => hbytes b hb (by omega)
      prg := rfl
      ram := fun _ => rfl
      sram := fun _ => rfl
      mapper := fun h => by omega
      picture := fun _ => ⟨rfl, rfl, rfl⟩
      pictureByte := fun _ h => by omega
      oam := fun _ _ => rfl
      oamByte := fun _ h => by omega }

/-- Whatever a write's address decodes to, every byte outside its cell is as it was (R45, R57). -/
theorem memWrite_storeFrame (s : State) (a : Word) (v : Byte) : StoreFrame s (memWrite s a v) a := by
  by_cases hram : a.toNat < 0x2000
  · exact storeFrame_of_ram v hram
  by_cases hpicture : a.toNat < 0x4000
  · exact storeFrame_of_picture v (by omega) hpicture
  by_cases hport : a.toNat < 0x6000
  · exact storeFrame_of_port v (by omega) hport
  by_cases hsram : a.toNat < 0x8000
  · exact storeFrame_of_sram v (by omega) hsram
  · exact storeFrame_of_mapperRegister v (by omega)

theorem memRead_memWrite_of_ram {s : State} {a b : Word} (v : Byte) (ha : a.toNat < 0x2000)
    (hcell : sameCell a b = true) : memRead (memWrite s a v) b = (v, memWrite s a v) := by
  obtain ⟨hb, hidx⟩ := (sameCell_of_ram ha).mp hcell
  rw [memWrite_of_ram v ha, memRead_of_ram hb, hidx]
  exact congrArg (·, _) (Memory.read_write_same ..)

theorem memRead_memWrite_of_sram {s : State} {a : Word} (v : Byte) (hlo : 0x6000 ≤ a.toNat) (hhi : a.toNat < 0x8000) :
    memRead (memWrite s a v) a = (v, memWrite s a v) := by
  rw [memWrite_of_sram v hlo hhi, memRead_of_mapper hlo, mapperCpuRead_of_sram hhi]
  exact congrArg (·, _) (Memory.read_write_same ..)

/-- Settles O6: the read back by storage, and the frame of every write for the other bytes. -/
theorem writesAreVisible : Obligations.WritesAreVisible := by
  unfold Obligations.WritesAreVisible
  intro s a v ha
  refine ⟨fun b hcell => ?_, fun b hb hcell => (memWrite_storeFrame s a v).bytes b hb hcell (by omega),
    fun hram k hk => ?_⟩
  · rcases ha with ha | ⟨hlo, hhi⟩
    · exact memRead_memWrite_of_ram v ha hcell
    · obtain rfl := (sameCell_of_ge (by omega)).mp hcell
      exact memRead_memWrite_of_sram v hlo hhi
  · have hmirror : (BitVec.ofNat 16 (a.toNat % 2048 + 2048 * k)).toNat = a.toNat % 2048 + 2048 * k := by
      rw [BitVec.toNat_ofNat]; omega
    rw [sameCell_of_ram hram, hmirror, Config.ramSize]
    omega

/-! ## What reads leave unchanged -/

/-- Equal storages are equal memory. -/
theorem SameMemory.of_storages {s t : State} (hram : t.bus.ram = s.bus.ram) (hnt : t.bus.nt = s.bus.nt)
    (hpal : t.bus.pal = s.bus.pal) (hcart : t.cart = s.cart) (hmapper : t.mapper = s.mapper)
    (hoam : t.ppu.oam = s.ppu.oam) : SameMemory s t :=
  ⟨hram, hnt, hpal, hcart, hmapper, hoam, fun _ ha => peek_congr ha hram hcart hmapper⟩

theorem SameMemory.trans {s t u : State} (h : SameMemory s t) (k : SameMemory t u) : SameMemory s u :=
  .of_storages (k.ram.trans h.ram) (k.nt.trans h.nt) (k.pal.trans h.pal) (k.cart.trans h.cart)
    (k.mapper.trans h.mapper) (k.oam.trans h.oam)

theorem SameMemory.withCpu {s t : State} (h : SameMemory s t) (c : Cpu) : SameMemory s { t with cpu := c } :=
  .of_storages h.ram h.nt h.pal h.cart h.mapper h.oam

/-- No read changes a byte of memory (R57, R63). -/
theorem afterRead_sameMemory (s : State) (a : Word) : SameMemory s (afterRead s a) :=
  .of_storages (afterRead_ram s a) (afterRead_nt s a) (afterRead_pal s a) (afterRead_cart s a) (afterRead_mapper s a)
    (afterRead_oam s a)

theorem SameOutside.sameMemory {s t : State} (h : SameOutside s t) : SameMemory s t :=
  .of_storages (by rw [h.bus]) (by rw [h.bus]) (by rw [h.bus]) h.cart h.mapper (by rw [h.ppu])

theorem SamePosition.position {p q : Ppu} (h : SamePosition p q) : q.position = p.position := by
  rw [Ppu.position, h.frame, h.scanline, h.dot, Ppu.position]

/-- Settles O9: the quiet addresses, and what every read keeps. -/
theorem readSideEffects : Obligations.ReadSideEffects := by
  unfold Obligations.ReadSideEffects
  intro s a
  exact ⟨fun h => afterRead_quiet (quiet_iff.mpr h), afterRead_sameMemory s a, afterRead_cpu s a,
    (memRead_position s a).position⟩

/-! ## Operands -/

/-- A page is crossed when the high bytes differ (R97). -/
theorem pageDiffers_eq (w u : Word) : pageDiffers w u = decide (w.toNat / 256 ≠ u.toNat / 256) := by
  have hiff : highByte w = highByte u ↔ w.toNat / 256 = u.toNat / 256 := by
    rw [← BitVec.toNat_inj, highByte_toNat, highByte_toNat]
  simp only [pageDiffers, bne, Bool.beq_eq_decide_eq, hiff, decide_not]

theorem byte_setWidth_toNat (d : Byte) : (d.setWidth 16).toNat = d.toNat :=
  BitVec.toNat_setWidth_of_le (by decide)

/-- An indexed address wraps at 0xFFFF (R89). -/
theorem indexed_toNat (a : Word) (d : Byte) : (a + d.setWidth 16).toNat = (a.toNat + d.toNat) % 65536 := by
  rw [BitVec.toNat_add, byte_setWidth_toNat]

/-- A byte of page 0, by its number modulo 256 (R43). -/
theorem peek_zeroPage (s : State) (d : Byte) {n : Nat} (h : d.toNat = n % 256) :
    peek s (d.setWidth 16) = Memory.read s.bus.ram (n % 256) := by
  rw [peek_of_ram (zeroPage_lt d), byte_setWidth_toNat, h, Config.ramSize, Nat.mod_eq_of_lt (by omega)]

/-- The address a pointer in page 0 holds, its second byte wrapping within the page (R43). -/
theorem pointer_toNat (s : State) (d : Byte) {n : Nat} (h : d.toNat = n % 256) :
    (read16Bug s (d.setWidth 16)).1.toNat =
      (Memory.read s.bus.ram ((n + 1) % 256)).toNat * 256 + (Memory.read s.bus.ram (n % 256)).toNat := by
  have hnext : (d + 1).toNat = (n + 1) % 256 := by
    rw [BitVec.toNat_add, h]; simp
  rw [read16Bug_zeroPage, joinBytes_toNat, peek_zeroPage s d h, peek_zeroPage s (d + 1) hnext]

/-- Settles O15: mode by mode; the pointers' bytes are work RAM. -/
theorem effectiveAddresses : Obligations.EffectiveAddresses := by
  unfold Obligations.EffectiveAddresses
  intro s d a
  have hizx := pointer_toNat s (d + s.cpu.x) (BitVec.toNat_add ..)
  have hizy := pointer_toNat s d (Nat.mod_eq_of_lt d.isLt).symm
  refine ⟨⟨byte_setWidth_toNat d, rfl⟩, ⟨?_, rfl⟩, ⟨?_, rfl⟩, ⟨rfl, rfl⟩, ⟨indexed_toNat _ _, ?_⟩,
    ⟨indexed_toNat _ _, ?_⟩, ⟨hizx, rfl⟩, ⟨?_, ?_⟩, resolve_state s⟩
  · exact (byte_setWidth_toNat _).trans (BitVec.toNat_add ..)
  · exact (byte_setWidth_toNat _).trans (BitVec.toNat_add ..)
  · exact (pageDiffers_eq _ _).trans (by rw [indexed_toNat])
  · exact (pageDiffers_eq _ _).trans (by rw [indexed_toNat])
  · exact (indexed_toNat _ _).trans (by rw [hizy])
  · exact (pageDiffers_eq _ _).trans (by rw [indexed_toNat, hizy])

/-- Settles O16: resolution changes nothing, so the read is made from the state past the instruction. -/
theorem operandReads : Obligations.OperandReads := by
  unfold Obligations.OperandReads
  intro s v m o
  refine ⟨rfl, ?_, storeTarget_eq s m, rfl, ?_⟩
  · unfold loadOperand; dsimp only
    rw [resolve_state]; rfl
  · unfold rmwLoad; dsimp only
    rw [resolve_state]; rfl

/-! ## Instructions -/

theorem getLsbD_seven (v : Byte) : v.getLsbD 7 = decide (128 ≤ v.toNat) := BitVec.msb_eq_decide v

theorem beq_zero_eq (v : Byte) : (v == 0) = decide (v.toNat = 0) := by
  simp [Bool.beq_eq_decide_eq, ← BitVec.toNat_inj]

/-- `SetZN` sets Z and N as R100 says. -/
theorem putZN_znFlags (v p : Byte) : ZnFlags p (putZN v p) v where
  z := by rw [getFlag_putZN, if_neg (by decide), if_pos rfl, beq_zero_eq]
  n := by rw [getFlag_putZN, if_pos rfl, getLsbD_seven]
  others f hz hn := by rw [getFlag_putZN, if_neg hn, if_neg hz]

theorem rmwLoad_p (s : State) (o : RmwOperand) : (rmwLoad s o).state.cpu.p = s.cpu.p := by
  rw [rmwLoad_eq, advance_p, afterRead_cpu]

/-- Writing a byte back and setting Z and N from it (R107, R108). -/
theorem rmwStore_setZN (s : State) (o : RmwOperand) (r : Byte) :
    ∃ p', (rmwStore (rmwLoad s o) r).setZN r =
        { memWrite (rmwLoad s o).state (rmwLoad s o).addr r with
          cpu := { (memWrite (rmwLoad s o).state (rmwLoad s o).addr r).cpu with p := p' } } ∧
      ZnFlags s.cpu.p p' r := by
  refine ⟨putZN r (memWrite (rmwLoad s o).state (rmwLoad s o).addr r).cpu.p, rfl, ?_⟩
  rw [memWrite_p, rmwLoad_p]
  exact putZN_znFlags r s.cpu.p

/-- Settles O22: one read, one write of the result, `SetZN`. -/
theorem memoryIncrements : Obligations.MemoryIncrements := by
  unfold Obligations.MemoryIncrements
  intro s o
  obtain ⟨pinc, hinc, hincFlags⟩ := rmwStore_setZN s o ((rmwLoad s o).value + 1)
  obtain ⟨pdec, hdec, hdecFlags⟩ := rmwStore_setZN s o ((rmwLoad s o).value - 1)
  have hsub : ((rmwLoad s o).value - 1).toNat = ((rmwLoad s o).value.toNat + 255) % 256 := by
    rw [BitVec.toNat_sub, Nat.add_comm]; rfl
  exact ⟨⟨_, pinc, congrArg _ hinc, BitVec.toNat_add .., hincFlags⟩, ⟨_, pdec, congrArg _ hdec, hsub, hdecFlags⟩⟩

/-! ## Calls and traps return -/

/-- What is pushed as a trap's status and pulled again is the status register, bits 5 and 4 being as R14 fixes them. -/
theorem unpackP_packP {c : Cpu} (h : c.Ok) (b : Bool) : unpackP (packP b c.p) = c.p := by
  refine eq_of_getFlag fun f => ?_
  rw [getFlag_unpackP, getFlag_packP]
  split_ifs with hb hu
  · rw [hb, h.breakClear]
  · rw [hu, h.unusedSet]
  · rfl

theorem stackIndex_ne {a b : Byte} (h : a ≠ b) : stackIndex a ≠ stackIndex b := mt stackIndex_inj h

/-- Pulling what was pushed gives the value and the stack pointer back, from any state with that stack (R59). -/
theorem pull16_of_push16 {s t : State} {w : Word} (hram : t.bus.ram = (push16 s w).bus.ram)
    (hsp : t.cpu.sp = (push16 s w).cpu.sp) : pull16 t = (w, t.setSp s.cpu.sp) := by
  have h1 : s.cpu.sp - 1 - 1 + 1 = s.cpu.sp - 1 := by bv_omega
  have h2 : s.cpu.sp - 1 + 1 = s.cpu.sp := by bv_omega
  have hne : stackIndex s.cpu.sp ≠ stackIndex (s.cpu.sp - 1) := stackIndex_ne (by bv_omega)
  rw [pull16_eq, hram, hsp, push16_eq]
  simp only [setSp_sp, setSp_bus, setBus_bus, h1, h2, Memory.read_write_same, Memory.read_write_other _ _ hne,
    joinBytes_high_low]

/-- Returning from a handler with the stack its entry left: PC, SP and the status pushed come back (R157, R158, R320). -/
theorem returnFromHandler_of_enterHandler {s t : State} {vec : Word} {b : Bool} (hlo : 0x6000 ≤ vec.toNat)
    (hhi : vec.toNat < 0xFFFF) (hram : t.bus.ram = (enterHandler s vec b).bus.ram)
    (hsp : t.cpu.sp = (enterHandler s vec b).cpu.sp) :
    (returnFromHandler t).cpu.pc = s.cpu.pc ∧ (returnFromHandler t).cpu.sp = s.cpu.sp ∧
    (returnFromHandler t).cpu.p = unpackP (packP b s.cpu.p) := by
  have h1 : s.cpu.sp - 1 - 1 - 1 + 1 = s.cpu.sp - 1 - 1 := by bv_omega
  have h2 : s.cpu.sp - 1 - 1 + 1 = s.cpu.sp - 1 := by bv_omega
  have h3 : s.cpu.sp - 1 + 1 = s.cpu.sp := by bv_omega
  have hne1 : stackIndex s.cpu.sp ≠ stackIndex (s.cpu.sp - 1) := stackIndex_ne (by bv_omega)
  have hne2 : stackIndex s.cpu.sp ≠ stackIndex (s.cpu.sp - 1 - 1) := stackIndex_ne (by bv_omega)
  have hne3 : stackIndex (s.cpu.sp - 1) ≠ stackIndex (s.cpu.sp - 1 - 1) := stackIndex_ne (by bv_omega)
  rw [returnFromHandler_eq, hram, hsp, enterHandler_eq s vec b hlo hhi]
  simp only [setPc_pc, setPc_sp, setPc_p, setP_p, setP_sp, setSp_sp, setSp_bus, setFlag_sp, setFlag_bus, setPc_bus,
    setBus_bus, h1, h2, h3, Memory.read_write_same, Memory.read_write_other _ _ hne1,
    Memory.read_write_other _ _ hne2, Memory.read_write_other _ _ hne3, joinBytes_high_low, and_self]

/-- Settles O34: the stack a call or a trap leaves gives its return back what was pushed. -/
theorem callsReturn : Obligations.CallsReturn := by
  unfold Obligations.CallsReturn
  refine fun s => ⟨fun a t u hjsr hrts => ?_, fun t u hbrk hrti => ?_⟩
  · injection hjsr with ht
    injection hrts with hu
    have hpull := pull16_of_push16 (s := advance s 3 6) (t := advance t 1 6) (w := (advance s 3 6).cpu.pc - 1)
      (by rw [← ht, advance_bus, setPc_bus]) (by rw [← ht, advance_sp, setPc_sp])
    have hp : t.cpu.p = s.cpu.p := by
      rw [← ht, setPc_p, push16_eq]
      rfl
    rw [hpull] at hu
    rw [← hu]
    refine ⟨?_, rfl, hp⟩
    rw [setPc_pc, advance_pc]
    bv_omega
  · injection hbrk with ht
    injection hrti with hu
    obtain ⟨hpc, hsp, hp⟩ := returnFromHandler_of_enterHandler (s := advance s 2 7) (t := advance t 1 6)
      (vec := irqVector) (b := true) (by decide) (by decide) (by rw [← ht, advance_bus]) (by rw [← ht, advance_sp])
    rw [hu, advance_p] at hp
    rw [hu] at hpc hsp
    exact ⟨hpc, hsp, fun hok => hp.trans (unpackP_packP hok true)⟩

/-! ## OAM DMA -/

theorem pageAddr_eq (v : Byte) (k : Nat) : pageAddr v k = BitVec.ofNat 16 (v.toNat * 256 + k) := by
  have := v.isLt
  apply BitVec.eq_of_toNat_eq
  rw [pageAddr, BitVec.toNat_add, BitVec.toNat_shiftLeft, byte_setWidth_toNat, BitVec.toNat_ofNat, BitVec.toNat_ofNat,
    Nat.shiftLeft_eq]
  omega

/-- The pages OAM DMA can copy without side effect hold bytes (R63, R72). -/
theorem holdsBytes_pageAddr {v : Byte} {k : Nat} (hv : v.toNat < 0x20 ∨ 0x60 ≤ v.toNat) (hk : k < 256) :
    holdsBytes (pageAddr v k) = true := by
  have := v.isLt
  rw [holdsBytes_iff, pageAddr_eq v k, BitVec.toNat_ofNat]
  omega

/-- `t` is `s` after the first `n` bytes of a DMA from page `v`: they stand in OAM from the OAM address on (R245). -/
def Copied (v : Byte) (s t : State) (n : Nat) : Prop :=
  ∃ m : Memory 8, t = s.setPpu { s.ppu with oam := m, oamAddr := s.ppu.oamAddr + BitVec.ofNat 8 n } ∧
    ∀ k < n, Memory.read m ((s.ppu.oamAddr.toNat + k) % 256) = peek s (pageAddr v k)

theorem copied_zero (v : Byte) (s : State) : Copied v s s 0 :=
  ⟨s.ppu.oam, by simp [State.setPpu], fun k hk => absurd hk (Nat.not_lt_zero k)⟩

theorem peek_setPpu (s : State) (p : Ppu) {a : Word} (h : holdsBytes a = true) : peek (s.setPpu p) a = peek s a :=
  peek_congr h rfl rfl rfl

theorem dmaByte_of_quiet {v : Byte} {s : State} {k : Nat} (h : quiet (pageAddr v k) = true) :
    dmaByte v s k = s.setPpu (s.ppu.storeOam (peek s (pageAddr v k))) := by
  unfold dmaByte; dsimp only
  rw [memRead_quiet h, peek]

/-- One more byte goes to the next OAM cell, which none of the bytes before it is in. -/
theorem Copied.dmaByte {v : Byte} {s t : State} {n : Nat} (hv : v.toNat < 0x20 ∨ 0x60 ≤ v.toNat) (hn : n < 256)
    (h : Copied v s t n) : Copied v s (Machine.dmaByte v t n) (n + 1) := by
  obtain ⟨m, rfl, hm⟩ := h
  have hb := holdsBytes_pageAddr hv hn
  have hidx : (s.ppu.oamAddr + BitVec.ofNat 8 n).toNat = (s.ppu.oamAddr.toNat + n) % 256 := by simp
  have hnext : s.ppu.oamAddr + BitVec.ofNat 8 n + 1 = s.ppu.oamAddr + BitVec.ofNat 8 (n + 1) := by
    rw [BitVec.ofNat_add, BitVec.add_assoc]; rfl
  refine ⟨Memory.write m ((s.ppu.oamAddr.toNat + n) % 256) (peek s (pageAddr v n)), ?_, fun k hk => ?_⟩
  · rw [dmaByte_of_quiet (quiet_of_holdsBytes hb), peek_setPpu s _ hb, setPpu_ppu, Ppu.storeOam]
    dsimp only
    rw [hidx, hnext]
    rfl
  · rw [Memory.read_write]
    by_cases hkn : k = n
    · rw [if_pos (by rw [hkn]), hkn]
    · rw [if_neg (by omega), hm k (by omega)]

/-- The first `n` bytes of a DMA, one after the other. -/
theorem copied_range {v : Byte} (s : State) (hv : v.toNat < 0x20 ∨ 0x60 ≤ v.toNat) {n : Nat} (hn : n ≤ 256) :
    Copied v s ((List.range n).foldl (dmaByte v) s) n := by
  induction n with
  | zero => exact copied_zero v s
  | succ n ih =>
    rw [List.range_succ, List.foldl_append]
    exact (ih (by omega)).dmaByte hv (by omega)

/-- Settles O14: after 256 bytes the OAM address is back where it began. (`oamDma` itself names the model's operation.) -/
theorem oamDma_copiesPage : Obligations.OamDma := by
  unfold Obligations.OamDma
  intro s v hv
  obtain ⟨m, hcopy, hm⟩ := copied_range (s.latch v) hv (Nat.le_refl 256)
  have hround : (s.latch v).ppu.oamAddr + BitVec.ofNat 8 256 = s.ppu.oamAddr := BitVec.add_zero _
  refine ⟨m, ?_, fun k hk => ?_⟩
  · show oamDma s v = _
    rw [oamDma, dmaCopy, hcopy, hround, Nat.add_assoc]
    rfl
  · rw [← pageAddr_eq v k]
    exact (hm k hk).trans (peek_setPpu s _ (holdsBytes_pageAddr hv hk))

/-! ## Instructions that store nothing -/

theorem SameOutside.of_cpu {s : State} (c : Cpu) : SameOutside s { s with cpu := c } := ⟨rfl, rfl, rfl, rfl, rfl⟩

theorem branchIf_eq (b : Bool) (d : Byte) (s : State) : ∃ c, branchIf b d s = { s with cpu := c } := by
  cases b <;> exact ⟨_, rfl⟩

/-- A register instruction changes the CPU only. -/
theorem exec_registerOnly {i : Instr} (h : i.registerOnly = true) (s : State) :
    ∃ c, exec i s = .next { s with cpu := c } := by
  cases i
  case bcc d | bcs d | beq d | bne d | bmi d | bpl d | bvc d | bvs d =>
    obtain ⟨c, hc⟩ := branchIf_eq _ d s
    exact ⟨c, congrArg _ hc⟩
  case asl o | lsr o | rol o | ror o =>
    cases o with
    | acc => exact ⟨_, rfl⟩
    | mem o => cases h
  case jmp o =>
    cases o with
    | abs a => exact ⟨_, rfl⟩
    | ind a => cases h
  case inx | iny | dex | dey | tax | tay | txa | tya | tsx | txs | clc | sec | cli | sei | cld | sed | clv | nop =>
    exact ⟨_, rfl⟩
  all_goals cases h

/-- A pull changes the CPU only: the stack is work RAM, whose reads have no side effect (R59, R63). -/
theorem exec_pull {i : Instr} (h : i = .pla ∨ i = .plp ∨ i = .rts ∨ i = .rti) (s : State) :
    ∃ c, exec i s = .next { s with cpu := c } := by
  rcases h with rfl | rfl | rfl | rfl
  · exact ⟨_, by rw [exec, execPla, pull_eq]; rfl⟩
  · exact ⟨_, by rw [exec, execPlp, pull_eq]; rfl⟩
  · exact ⟨_, by rw [exec, execRts, pull16_eq]; rfl⟩
  · exact ⟨_, by rw [exec, execRti, returnFromHandler_eq]; rfl⟩

/-- A reading instruction changes the CPU only, after its operand is read. -/
theorem exec_read {i : Instr} {o : Operand} (h : i.readOperand = some o) (s : State) :
    ∃ c, exec i s = .next { (loadOperand s o).2 with cpu := c } := by
  cases i
  case adc o | sbc o | and o | ora o | eor o | cmp o | lda o | bit o | cpx o | cpy o | ldx o | ldy o =>
    cases h
    exact ⟨_, rfl⟩
  all_goals cases h

theorem loadOperand_sameMemory (s : State) (o : Operand) : SameMemory s (loadOperand s o).2 := by
  cases o with
  | imm v => exact (SameOutside.of_cpu _).sameMemory
  | mem m =>
    rw [loadOperand_mem]
    exact (afterRead_sameMemory s _).withCpu _

theorem readPair_sameMemory (s : State) (lo hi : Word) : SameMemory s (readPair s lo hi).2 :=
  (afterRead_sameMemory s lo).trans (afterRead_sameMemory (afterRead s lo) hi)

theorem next_unique {r : Result} {t u : State} (ht : r = .next t) (hu : r = .next u) : t = u := by
  rw [ht] at hu
  injection hu

/-- An instruction that pulls, or reads a pointer, changes no byte of memory. -/
theorem exec_pulls_sameMemory {i : Instr} {s t : State} (hi : i.pulls = true) (h : exec i s = .next t) :
    SameMemory s t := by
  by_cases hpull : i = .pla ∨ i = .plp ∨ i = .rts ∨ i = .rti
  · obtain ⟨c, hc⟩ := exec_pull hpull s
    obtain rfl := next_unique h hc
    exact (SameOutside.of_cpu c).sameMemory
  · cases i
    case jmp o =>
      cases o with
      | abs a => cases hi
      | ind a =>
        injection h with h
        exact h ▸ (readPair_sameMemory s a _).withCpu _
    case pla | plp | rts | rti => simp at hpull
    all_goals cases hi

/-- Settles O37: what each kind of instruction changes outside the CPU is what its reads change. -/
theorem noStoreFrame : Obligations.NoStoreFrame := by
  unfold Obligations.NoStoreFrame
  intro i s t h
  refine ⟨fun hreg => ?_, fun hpull => ?_, fun hread => ?_⟩
  · obtain ⟨c, hc⟩ := exec_registerOnly hreg s
    obtain rfl := next_unique h hc
    exact .of_cpu c
  · obtain ⟨c, hc⟩ := exec_pull hpull s
    obtain rfl := next_unique h hc
    exact .of_cpu c
  · rcases hread with hread | hpulls
    · obtain ⟨o, ho⟩ := Option.ne_none_iff_exists'.mp hread
      obtain ⟨c, hc⟩ := exec_read ho s
      obtain rfl := next_unique h hc
      exact (loadOperand_sameMemory s o).withCpu c
    · exact exec_pulls_sameMemory hpulls h

/-! ## Instructions that store -/

theorem StoreFrame.withCpu {s t : State} {a : Word} (h : StoreFrame s t a) (c d : Cpu) :
    StoreFrame { s with cpu := c } { t with cpu := d } a :=
  { h with
    bytes := fun b hb hcell hwindow => by
      rw [peek_withCpu t d, peek_withCpu s c]
      exact h.bytes b hb hcell hwindow }

/-- A plain store is one write at the address its operand resolves to, after PC and the cost (R128 to R130). -/
theorem exec_store {i : Instr} {m : MemOperand} {s t : State} (hi : i.storeOperand = some m) (h : exec i s = .next t) :
    ∃ v, t = memWrite (advance s (modeLength m) (storeCycles m)) (resolve s m).addr v := by
  cases i
  case sta o | stx o | sty o =>
    cases hi
    injection h with h
    rw [storeTarget_eq] at h
    exact ⟨_, h.symm⟩
  all_goals cases hi

/-- A read-modify-write is one write at the address it has read, and flags (R62, R107, R108, R115). -/
theorem exec_rmw {i : Instr} {o : RmwOperand} {s t : State} (hi : i.rmwOperand = some o) (h : exec i s = .next t) :
    ∃ v c, t = { memWrite (rmwLoad s o).state (resolve s o.mem).addr v with cpu := c } := by
  cases i
  case inc o' | dec o' =>
    cases hi
    injection h with h
    exact ⟨_, _, h.symm⟩
  case asl o' | lsr o' | rol o' | ror o' =>
    cases o' with
    | acc => cases hi
    | mem o' =>
      cases hi
      injection h with h
      exact ⟨_, _, h.symm⟩
  all_goals cases hi

/-- From `s` to `t` `n` bytes have been pushed and the CPU may have changed: SP is down by `n`, and only the `n` stack
locations from SP down may differ (R59). -/
structure Pushed (n : Nat) (s t : State) : Prop where
  sp : t.cpu.sp = s.cpu.sp - BitVec.ofNat 8 n
  butRam : SameButRam s t
  bytes : ∀ b, holdsBytes b = true → (∀ k < n, sameCell (stackAddr (s.cpu.sp - BitVec.ofNat 8 k)) b = false) →
    peek t b = peek s b

namespace Pushed

variable {n : Nat} {s t : State}

theorem zero {c : Cpu} (h : c.sp = s.cpu.sp) : Pushed 0 s { s with cpu := c } where
  sp := by rw [h]; exact (BitVec.sub_zero _).symm
  butRam := ⟨rfl, rfl, rfl, rfl, rfl, rfl, rfl⟩
  bytes b _ _ := peek_withCpu s c b

theorem withCpu (h : Pushed n s t) {c : Cpu} (hc : c.sp = t.cpu.sp) : Pushed n s { t with cpu := c } where
  sp := hc.trans h.sp
  butRam := { h.butRam with }
  bytes b hb hcells := (peek_withCpu t c b).trans (h.bytes b hb hcells)

theorem setPc (h : Pushed n s t) (v : Word) : Pushed n s (t.setPc v) := h.withCpu rfl

theorem setFlag (h : Pushed n s t) (f : Flag) (b : Bool) : Pushed n s (t.setFlag f b) := h.withCpu rfl

theorem push (h : Pushed n s t) (v : Byte) : Pushed (n + 1) s (Machine.push t v) where
  sp := by
    rw [push_eq, setSp_sp, h.sp, BitVec.ofNat_add]
    exact BitVec.sub_sub ..
  butRam := by
    rw [push_eq]
    exact { h.butRam with }
  bytes b hb hcells := by
    have hcell := hcells n (Nat.lt_succ_self n)
    rw [← h.sp] at hcell
    have hlow : (stackAddr t.cpu.sp).toNat < 0x8000 := Nat.lt_trans (stackAddr_lt _) (by decide)
    calc peek (Machine.push t v) b = peek (memWrite t (stackAddr t.cpu.sp) v) b := peek_withCpu _ _ b
      _ = peek t b := (memWrite_storeFrame t _ v).bytes b hb hcell (.inl hlow)
      _ = peek s b := h.bytes b hb fun k hk => hcells k (by omega)

theorem push16 (h : Pushed n s t) (w : Word) : Pushed (n + 2) s (Machine.push16 t w) := (h.push _).push _

/-- The entry of a handler pushes three bytes (R158, R317): its vector lies in the mapper's window. -/
theorem enterHandler (h : Pushed n s t) {vec : Word} (hlo : 0x6000 ≤ vec.toNat) (hhi : vec.toNat < 0xFFFF) (b : Bool) :
    Pushed (n + 3) s (Machine.enterHandler t vec b) := by
  unfold Machine.enterHandler; dsimp only
  rw [read16_vector hlo hhi]
  exact (((h.push16 _).push _).setFlag .i true).setPc _

end Pushed

/-- PHA, PHP, JSR and BRK push the number of bytes the table says (R137, R138, R155, R158). -/
theorem exec_pushed {i : Instr} {s t : State} (hi : 0 < i.pushes) (h : exec i s = .next t) : Pushed i.pushes s t := by
  have start : ∀ n c, Pushed 0 s (advance s n c) := fun n c => .zero rfl
  cases i
  case pha | php =>
    injection h with h
    rw [← h]
    exact (start 1 3).push _
  case jsr a =>
    injection h with h
    rw [← h]
    exact ((start 3 6).push16 _).setPc a
  case brk =>
    injection h with h
    rw [← h]
    exact (start 2 7).enterHandler (by decide) (by decide) true
  all_goals cases hi

/-- Settles O38: one write and its frame for the stores, push after push for the stack. -/
theorem storeMemoryFrame : Obligations.StoreMemoryFrame := by
  unfold Obligations.StoreMemoryFrame
  intro i s t h
  refine ⟨fun m hm => ?_, fun o ho => ⟨afterRead_sameMemory s _, ?_⟩, fun hpush => ?_⟩
  · obtain ⟨v, rfl⟩ := exec_store hm h
    exact (memWrite_storeFrame (advance s _ _) _ v).withCpu s.cpu _
  · obtain ⟨v, c, rfl⟩ := exec_rmw ho h
    rw [rmwLoad_eq]
    exact (memWrite_storeFrame (advance (afterRead s _) _ _) _ v).withCpu (afterRead s _).cpu c
  · have hpushed := exec_pushed hpush h
    exact ⟨hpushed.butRam, hpushed.bytes⟩

end Sys2Proof.Machine
end

section
/-!
PROOFS, the family of 30_encoding.md (O1 to O5, O17, O43, O44). First the encoder against the opcode matrix, then the
matrix against the encoder, then what is fetched and how a step ends, and last the cost and the length of each instruction.
-/

namespace Sys2Proof

/-! ## Decoding what was encoded -/

namespace Laws.Announced

/-- The family as one statement: every well-formed instruction's opcode announces its operand bytes. -/
theorem all : ∀ i : Instr, Statement i
  | .adc o => adc o | .sbc o => sbc o | .and o => and o | .ora o => ora o | .eor o => eor o | .bit o => bit o
  | .inc o => inc o | .dec o => dec o | .inx => inx | .iny => iny | .dex => dex | .dey => dey
  | .asl o => asl o | .lsr o => lsr o | .rol o => rol o | .ror o => ror o
  | .cmp o => cmp o | .cpx o => cpx o | .cpy o => cpy o | .lda o => lda o | .ldx o => ldx o | .ldy o => ldy o
  | .sta o => sta o | .stx o => stx o | .sty o => sty o
  | .tax => tax | .tay => tay | .txa => txa | .tya => tya | .tsx => tsx | .txs => txs
  | .pha => pha | .php => php | .pla => pla | .plp => plp
  | .bcc d => bcc d | .bcs d => bcs d | .beq d => beq d | .bne d => bne d
  | .bmi d => bmi d | .bpl d => bpl d | .bvc d => bvc d | .bvs d => bvs d
  | .jmp o => jmp o | .jsr a => jsr a | .rts => rts | .rti => rti | .brk => brk
  | .clc => clc | .sec => sec | .cli => cli | .sei => sei | .cld => cld | .sed => sed | .clv => clv | .nop => nop
  | .illegal op => illegal op

end Laws.Announced

/-- Bytes that an opcode announces for an instruction are decoded to it, whatever follows them. -/
theorem decode_of_announces {i : Instr} {bytes : List Byte} (h : Announces i bytes (opShape i.opcode))
    (rest : List Byte) : decode (i.opcode :: bytes ++ rest) = .ok (i, rest) := by
  cases hs : opShape i.opcode <;> rw [hs] at h
  case bad =>
    obtain ⟨hi, rfl⟩ := h
    simp [decode, hs, ← hi]
  case alone j | padded j =>
    obtain ⟨rfl, rfl⟩ := h
    simp [decode, hs]
  case byte f =>
    obtain ⟨d, rfl, rfl⟩ := h
    simp [decode, hs]
  case word f =>
    obtain ⟨a, rfl, rfl⟩ := h
    simp [decode, hs, wordBytes]

/-- Settles O2: each opcode announces its instruction's operand bytes. -/
theorem decodeInvertsEncode : Obligations.DecodeInvertsEncode := by
  unfold Obligations.DecodeInvertsEncode
  intro i rest h
  exact decode_of_announces (Laws.Announced.all i h) rest

/-- Settles O1: the decoder evaluated on each of the words. -/
theorem decodeWrittenWords : Obligations.DecodeWrittenWords := by
  unfold Obligations.DecodeWrittenWords
  and_intros
  all_goals rfl

/-! ## Encoding what was decoded -/

/-- The instruction that the matrix entry of opcode `op` makes of an operand byte `d` or an operand word `a`. -/
def Shape.instr (op d : Byte) (a : Word) : Shape → Instr
  | .bad => .illegal op
  | .alone i => i
  | .padded i => i
  | .byte f => f d
  | .word f => f a

/-- The bytes the encoder writes after the opcode of a matrix entry, for an operand byte `d` or an operand word `a`. -/
def Shape.operandBytes (d : Byte) (a : Word) : Shape → List Byte
  | .bad => []
  | .alone _ => []
  | .padded _ => [0x00]
  | .byte _ => [d]
  | .word _ => wordBytes a

/-- The matrix entry is BRK's, with its padding byte. -/
def Shape.isPadded : Shape → Bool
  | .padded _ => true
  | .bad => false
  | .alone _ => false
  | .byte _ => false
  | .word _ => false

/-- The instruction is an illegal opcode byte. -/
def Instr.isIllegal : Instr → Bool
  | .illegal _ => true
  | _ => false

/-- Of the instruction the entry makes: the operand bytes are the operand's, the opcode does not depend on it, and only an
illegal entry makes an illegal instruction. -/
structure Shape.Uniform (sh : Shape) (op d : Byte) (a : Word) : Prop where
  operandBytes : (sh.instr op d a).operandBytes = sh.operandBytes d a
  opcode : (sh.instr op d a).opcode = (sh.instr op 0 0).opcode
  isIllegal : (sh.instr op d a).isIllegal = sh.isBad

theorem opMatrix_uniform (op d : Byte) (a : Word) : ∀ sh ∈ opMatrix, sh.Uniform op d a := by
  simp only [opMatrix, List.forall_mem_append]
  and_intros
  all_goals
    repeat refine List.forall_mem_cons.mpr ⟨⟨rfl, rfl, rfl⟩, ?_⟩
    exact List.forall_mem_nil _

theorem opMatrix_length : opMatrix.length = 256 := by
  simp only [opMatrix, List.length_append]
  rfl

theorem opShape_mem (op : Byte) : opShape op ∈ opMatrix := by
  have hlt : op.toNat < opMatrix.length := opMatrix_length ▸ op.isLt
  rw [opShape, List.getD_eq_getElem _ _ hlt]
  exact List.getElem_mem hlt

/-- The Encoding tables and the matrix name the same opcodes. -/
theorem instr_opcode (op : Byte) : ((opShape op).instr op 0 0).opcode = op := by
  revert op; decide

/-- The instruction an opcode makes of its operand is encoded to that opcode and that operand. -/
theorem encode_instr (op d : Byte) (a : Word) :
    encode ((opShape op).instr op d a) = op :: (opShape op).operandBytes d a := by
  obtain ⟨hbytes, hop, -⟩ := opMatrix_uniform op d a _ (opShape_mem op)
  rw [encode, hbytes, hop, instr_opcode]

/-- Exactly the illegal bytes make an illegal instruction. -/
theorem instr_isIllegal (op d : Byte) (a : Word) :
    ((opShape op).instr op d a).isIllegal = illegalOpcodes.contains op :=
  (opMatrix_uniform op d a _ (opShape_mem op)).isIllegal.trans (isBad_eq op)

/-- The table holds every instruction but an illegal one with an official opcode byte (R81, R98). -/
theorem wellFormed_eq (i : Instr) : i.wellFormed = (!i.isIllegal || illegalOpcodes.contains i.opcode) := by
  cases i <;> rfl

/-- What an opcode makes of its operand is an instruction of the table. -/
theorem instr_wellFormed (op d : Byte) (a : Word) : ((opShape op).instr op d a).wellFormed = true := by
  have hop : ((opShape op).instr op d a).opcode = op := List.head_eq_of_cons_eq (encode_instr op d a)
  rw [wellFormed_eq, instr_isIllegal, hop, Bool.not_or_self]

/-- No instruction but an illegal one has an opcode of R168's list. -/
theorem opcode_notMem_illegalOpcodes {i : Instr} (h : i.isIllegal = false) : i.opcode ∉ illegalOpcodes := fun hmem => by
  have hann := Laws.Announced.all i (by rw [wellFormed_eq, h]; rfl)
  rw [opShape_bad (List.contains_iff_mem.mpr hmem)] at hann
  obtain ⟨hi, -⟩ := hann
  rw [hi] at h
  cases h

/-- Only BRK has a padding byte (R80, R158). -/
theorem isPadded_eq (op : Byte) : (opShape op).isPadded = (op == 0x00) := by
  revert op; decide

theorem eq_zero_of_padded {op : Byte} {i : Instr} (h : opShape op = .padded i) : op = 0x00 := by
  have hpad := isPadded_eq op
  rw [h] at hpad
  exact beq_iff_eq.mp hpad.symm

/-- The bytes after an opcode are the operand `d` or `a` and then `rest`; but as BRK's padding byte any value, or none
at the end, is accepted (log 14). -/
def OperandThen (op d : Byte) (a : Word) (bytes rest : List Byte) : Prop :=
  bytes = (opShape op).operandBytes d a ++ rest ∨ op = 0x00 ∧ (bytes = [] ∧ rest = [] ∨ ∃ pad, bytes = pad :: rest)

/-- What the decoder answers is what the opcode makes of the operand after it. -/
theorem decode_cons_ok {op : Byte} {bytes rest : List Byte} {i : Instr} (h : decode (op :: bytes) = .ok (i, rest)) :
    ∃ d a, i = (opShape op).instr op d a ∧ OperandThen op d a bytes rest := by
  unfold OperandThen
  cases hs : opShape op
  case bad | alone j =>
    simp only [decode, hs] at h
    cases h
    exact ⟨0, 0, rfl, .inl rfl⟩
  case padded j =>
    refine ⟨0, 0, ?_⟩
    cases bytes <;> simp only [decode, hs] at h <;> cases h
    case nil => exact ⟨rfl, .inr ⟨eq_zero_of_padded hs, .inl ⟨rfl, rfl⟩⟩⟩
    case cons pad => exact ⟨rfl, .inr ⟨eq_zero_of_padded hs, .inr ⟨pad, rfl⟩⟩⟩
  case byte f =>
    cases bytes <;> simp only [decode, hs] at h <;> cases h
    case cons d => exact ⟨d, 0, rfl, .inl rfl⟩
  case word f =>
    match bytes, h with
    | [], h | [_], h => simp [decode, hs] at h
    | lo :: hi :: r, h =>
      simp only [decode, hs] at h
      cases h
      exact ⟨0, operandWord lo hi, rfl, .inl (by rw [Shape.operandBytes, wordBytes_operandWord]; rfl)⟩

/-- Whatever is decoded is an instruction of the table. -/
theorem wellFormed_of_decode {bytes rest : List Byte} {i : Instr} (h : decode bytes = .ok (i, rest)) :
    i.wellFormed = true := by
  cases bytes with
  | nil => cases h
  | cons op bytes =>
    obtain ⟨d, a, rfl, -⟩ := decode_cons_ok h
    exact instr_wellFormed op d a

/-- Settles O3: what is decoded is what the opcode makes of its operand, and that is encoded to both. -/
theorem encodeInvertsDecode : Obligations.EncodeInvertsDecode := by
  unfold Obligations.EncodeInvertsDecode
  intro bytes i rest h
  refine ⟨wellFormed_of_decode h, ?_⟩
  cases bytes with
  | nil => cases h
  | cons op bytes =>
    obtain ⟨d, a, rfl, hbytes⟩ := decode_cons_ok h
    have henc := encode_instr op d a
    constructor
    · intro hne
      rcases hbytes with hbytes | ⟨rfl, -⟩
      · rw [henc, hbytes]; rfl
      · exact absurd rfl hne
    · intro heq
      rw [heq] at henc
      obtain rfl : 0x00 = op := List.head_eq_of_cons_eq henc
      rcases hbytes with rfl | ⟨-, ⟨rfl, rfl⟩ | ⟨pad, rfl⟩⟩
      · exact .inr ⟨0x00, rfl⟩
      · exact .inl ⟨rfl, rfl⟩
      · exact .inr ⟨pad, rfl⟩

/-- The bytes R168 lists are those that decode to an illegal instruction (R98). -/
theorem mem_illegalOpcodes_iff_decode (op : Byte) (rest : List Byte) :
    op ∈ illegalOpcodes ↔ decode (op :: rest) = .ok (.illegal op, rest) := by
  rw [← List.contains_iff_mem]
  constructor
  · exact fun h => decode_of_announces (Laws.Announced.illegal op h) rest
  · exact fun h => wellFormed_of_decode h

end Sys2Proof

namespace Sys2Proof.Machine

/-! ## The instruction at PC -/

/-- Fetching answers what the opcode byte at PC makes of some operand (R82, R83). -/
theorem fetchInstr_instr (s : State) :
    ∃ d a, (fetchInstr s).1 = (opShape (peek s s.cpu.pc)).instr (peek s s.cpu.pc) d a := by
  unfold fetchInstr peek; dsimp only
  cases opShape (memRead s s.cpu.pc).1
  case bad | alone i | padded i => exact ⟨0, 0, rfl⟩
  case byte f => exact ⟨(memRead (memRead s s.cpu.pc).2 (s.cpu.pc + 1)).1, 0, rfl⟩
  case word f => exact ⟨0, (read16 (memRead s s.cpu.pc).2 (s.cpu.pc + 1)).1, rfl⟩

/-- Where reading code has no side effect, fetching answers what the bytes at PC decode to and changes nothing. -/
theorem fetchInstr_of_decode {s : State} {i : Instr} {rest : List Byte} (h0 : quiet s.cpu.pc = true)
    (h1 : quiet (s.cpu.pc + 1) = true) (h2 : quiet (s.cpu.pc + 2) = true)
    (h : decode [peek s s.cpu.pc, peek s (s.cpu.pc + 1), peek s (s.cpu.pc + 2)] = .ok (i, rest)) :
    fetchInstr s = (i, s) := by
  have hnext : s.cpu.pc + 1 + 1 = s.cpu.pc + 2 := by bv_omega
  have hword : read16 s (s.cpu.pc + 1) = (operandWord (peek s (s.cpu.pc + 1)) (peek s (s.cpu.pc + 2)), s) := by
    rw [read16, readPair_quiet h1 (hnext ▸ h2), hnext]; rfl
  have hbyte : ∀ {a}, quiet a = true → memRead s a = (peek s a, s) := fun ha => Prod.ext rfl (memRead_quiet ha)
  unfold fetchInstr; dsimp only
  rw [hbyte h0]
  cases hs : opShape (peek s s.cpu.pc) <;> simp only [decode, hs] at h <;> cases h
  case bad | alone | padded => rfl
  case byte f => exact Prod.ext rfl (memRead_quiet h1)
  case word f => exact congrArg (fun w => (f w.1, w.2)) hword

/-- Every instruction but an illegal one completes, in every state. -/
theorem exec_completes {i : Instr} (h : i.isIllegal = false) (s : State) : ∃ t, exec i s = .next t := by
  cases i
  case jmp o => cases o <;> exact ⟨_, rfl⟩
  case illegal op => cases h
  all_goals exact ⟨_, rfl⟩

/-- An illegal byte at PC stops the machine (R98, R168, R312). -/
theorem runInstr_of_illegal {s : State} (h : peek s s.cpu.pc ∈ illegalOpcodes) :
    runInstr s = .fault (.unimplementedOpcode (peek s s.cpu.pc) s.cpu.pc) := by
  obtain ⟨d, a, hi⟩ := fetchInstr_instr s
  rw [opShape_bad (List.contains_iff_mem.mpr h)] at hi
  rw [runInstr, hi, ← fetchInstr_cpu s]
  rfl

/-- Any other byte at PC is run to completion. -/
theorem runInstr_of_legal {s : State} (h : peek s s.cpu.pc ∉ illegalOpcodes) : ∃ t, runInstr s = .next t := by
  obtain ⟨d, a, hi⟩ := fetchInstr_instr s
  refine exec_completes ?_ _
  rw [hi, instr_isIllegal]
  exact Bool.eq_false_iff.mpr (mt List.contains_iff_mem.mp h)

/-! ## How a step ends -/

/-- A stall step comes before anything else (R316). -/
theorem cpuStep_of_stall {s : State} (h : 0 < s.cpu.stall) : cpuStep s = .next (stallStep s) := by
  rw [cpuStep, if_pos h]

/-- With nothing outstanding the instruction at PC is run (R82). -/
theorem cpuStep_of_idle {s : State} (hstall : s.cpu.stall = 0) (hslot : s.cpu.irqSlot = .none) :
    cpuStep s = runInstr s := by
  simp [cpuStep, hstall, hslot]

/-- An IRQ in the slot while I is set is dropped, and the instruction at PC is run (R317). -/
theorem cpuStep_of_masked {s : State} (hstall : s.cpu.stall = 0) (hslot : s.cpu.irqSlot = .irq)
    (hi : s.flag .i = true) : cpuStep s = runInstr (s.setSlot .none) := by
  simp [cpuStep, hstall, hslot, hi]

/-- A CPU step goes on, unless an illegal byte stands at PC and neither a stall nor a request that may be taken comes
first (R82, R312). -/
theorem cpuStep_ends (s : State) :
    (∃ t, cpuStep s = .next t) ∨
    (s.cpu.stall = 0 ∧ s.cpu.irqSlot ≠ .nmi ∧ (s.cpu.irqSlot = .irq → s.flag .i = true) ∧
      peek s s.cpu.pc ∈ illegalOpcodes ∧
      cpuStep s = .fault (.unimplementedOpcode (peek s s.cpu.pc) s.cpu.pc)) := by
  by_cases hstall : 0 < s.cpu.stall
  · exact .inl ⟨_, cpuStep_of_stall hstall⟩
  have hzero : s.cpu.stall = 0 := by omega
  by_cases hreq : s.cpu.irqSlot = .nmi ∨ (s.cpu.irqSlot = .irq ∧ s.flag .i = false)
  · exact .inl ⟨_, cpuStep_of_request hzero hreq⟩
  have hnmi : s.cpu.irqSlot ≠ .nmi := fun h => hreq (.inl h)
  have hmask : s.cpu.irqSlot = .irq → s.flag .i = true := fun h => by simpa [h] using hreq
  have hrun : cpuStep s = runInstr (s.setSlot .none) := by
    cases hslot : s.cpu.irqSlot
    case nmi => exact absurd hslot hnmi
    case irq => exact cpuStep_of_masked hzero hslot (hmask hslot)
    case none =>
      rw [cpuStep_of_idle hzero hslot]
      exact congrArg runInstr (by rw [← hslot]; rfl)
  have hpeek : peek (s.setSlot .none) s.cpu.pc = peek s s.cpu.pc := peek_withCpu s _ _
  rw [hrun]
  by_cases hill : peek s s.cpu.pc ∈ illegalOpcodes
  · refine .inr ⟨hzero, hnmi, hmask, hill, ?_⟩
    rw [← hpeek] at hill ⊢
    exact runInstr_of_illegal hill
  · rw [← hpeek] at hill
    exact .inl (runInstr_of_legal hill)

/-- The outside's call does not move PC. -/
@[simp] theorem takeIrqCall_pc (s : State) : (takeIrqCall s).cpu.pc = s.cpu.pc := by
  obtain ⟨slot, calls, h⟩ := takeIrqCall_eq s
  rw [h]

/-- A CPU step that goes on is followed by three dots for each of its cycles (R300). -/
theorem step_of_next {s t : State} (h : cpuStep (takeIrqCall s) = .next t) :
    step s = .next (runDots (3 * (t.cpu.cycles - (takeIrqCall s).cpu.cycles)) t) := by
  unfold step machineStep orchestrate
  rw [h, ← afterCpu_eq]

/-- A fault of the CPU step is the fault of the step (R312). -/
theorem step_of_fault {s : State} {f : Fault} (h : cpuStep (takeIrqCall s) = .fault f) : step s = .fault f := by
  unfold step machineStep orchestrate
  rw [h]

/-- Settles O4: the decoder's laws, `exec` of `illegal`, and a step that fetches an illegal byte. -/
theorem illegalOpcodesStop : Obligations.IllegalOpcodesStop := by
  unfold Obligations.IllegalOpcodesStop
  refine ⟨rfl, mem_illegalOpcodes_iff_decode, fun _ _ => rfl, fun s hstall hslot hill => step_of_fault ?_⟩
  rw [cpuStep_of_idle hstall hslot, ← takeIrqCall_pc s]
  exact runInstr_of_illegal (by rwa [takeIrqCall_pc])

/-- Settles O44: the step ends as its CPU step does. -/
theorem stepOutcomes : Obligations.StepOutcomes := by
  unfold Obligations.StepOutcomes
  intro s
  have hends := cpuStep_ends (takeIrqCall s)
  rw [takeIrqCall_pc] at hends
  rcases hends with ⟨t, ht⟩ | ⟨hstall, hnmi, hmask, hill, hf⟩
  · simp [step_of_next ht]
  · have hstep := step_of_fault hf
    refine ⟨by simp [hstep], fun f h => ?_, fun h => absurd hill h⟩
    rw [hstep] at h
    cases h
    exact ⟨_, hill, rfl, hstall, hnmi, hmask, rfl⟩

/-- Settles O43: a stall step, then a request that may be taken, then a masked IRQ dropped. -/
theorem stepOrder : Obligations.StepOrder := by
  unfold Obligations.StepOrder
  intro s u
  refine ⟨fun hstall => ?_, fun hstall hreq => ?_, fun hslot hi hstall => ?_⟩
  · have hcycles : (stallStep u).cpu.cycles - u.cpu.cycles = 1 := Nat.add_sub_cancel_left ..
    rw [step_of_next (cpuStep_of_stall hstall), hcycles]
    rfl
  · have hcycles : (serviceInterrupt u).cpu.cycles = u.cpu.cycles + 7 := by rw [serviceInterrupt_eq]
    have hcpu := cpuStep_of_request hstall hreq
    refine ⟨_, hcpu, hcycles, ?_⟩
    rw [step_of_next hcpu, hcycles, Nat.add_sub_cancel_left]
  · rw [cpuStep_of_masked hstall hslot hi]
    exact (cpuStep_of_idle (s := u.setSlot .none) hstall rfl).symm

/-- Settles O5: what is fetched is what the bytes decode to, so the step is `exec` of it and its dots. -/
theorem stepRunsDecodedInstruction : Obligations.StepRunsDecodedInstruction := by
  unfold Obligations.StepRunsDecodedInstruction
  intro s i rest u pc hstall hslot h0 h1 h2 hdec
  have hcpu : cpuStep u = exec i u := by
    rw [cpuStep_of_idle hstall hslot, runInstr, fetchInstr_of_decode h0 h1 h2 hdec]
  have hends := cpuStep_ends u
  rw [hcpu] at hends
  rcases hends with ⟨t, ht⟩ | ⟨-, -, -, -, hf⟩
  · rw [ht]
    exact step_of_next (hcpu.trans ht)
  · rw [hf]
    exact step_of_fault (hcpu.trans hf)

/-! ## Cost and length -/

/-- From `s` to `t` PC has moved by `n` and `c` cycles have been charged. -/
structure Passed (n c : Nat) (s t : State) : Prop where
  pc : t.cpu.pc = s.cpu.pc + BitVec.ofNat 16 n
  cycles : t.cpu.cycles = s.cpu.cycles + c

/-- A bus write neither moves PC nor charges cycles: the stall of OAM DMA is spent by later steps (R245). -/
theorem Passed.memWrite {n c : Nat} {s t : State} (h : Passed n c s t) (a : Word) (v : Byte) :
    Passed n c s (Machine.memWrite t a v) :=
  ⟨by rw [memWrite_pc, h.pc], by rw [memWrite_cycles, h.cycles]⟩

/-- The length of an instruction that reads operand `o` (R80). -/
def readLength : Operand → Nat
  | .imm _ => 2
  | .mem m => modeLength m

/-- The base cost of an instruction that reads operand `o`. -/
def readBaseCycles : Operand → Nat
  | .imm _ => 2
  | .mem m => readCycles m

/-- The cycle a reading instruction takes more when its operand lies across a page (R97). -/
def crossCycle (s : State) : Option Operand → Nat
  | some (.mem m) => if (resolve s m).crossed then 1 else 0
  | _ => 0

theorem loadOperand_passed (s : State) (o : Operand) :
    Passed (readLength o) (readBaseCycles o + crossCycle s (some o)) s (loadOperand s o).2 := by
  cases o with
  | imm v => exact ⟨rfl, rfl⟩
  | mem m =>
    rw [loadOperand_mem]
    exact ⟨by simp [readLength], by simp [readBaseCycles, readCost, crossCycle]⟩

theorem rmwLoad_passed (s : State) (o : RmwOperand) :
    Passed (modeLength o.mem) (rmwCycles o) s (rmwLoad s o).state := by
  rw [rmwLoad_eq]
  exact ⟨by simp, by simp⟩

/-- The matrix gives a reading instruction the cost its operand's mode has. -/
theorem exec_read_passed {i : Instr} {o : Operand} {s t : State} (hi : i.readOperand = some o)
    (h : exec i s = .next t) :
    Passed (encode i).length (matrixCycles i.opcode + crossCycle s i.readOperand) s t := by
  have hload := loadOperand_passed s o
  cases i
  case adc o | sbc o | and o | ora o | eor o | cmp o | lda o | bit o | cpx o | cpy o | ldx o | ldy o =>
    cases hi
    injection h with h
    subst h
    cases o <;> exact ⟨hload.pc, hload.cycles⟩
  all_goals cases hi

/-- The matrix gives a store the cost its destination's mode has. -/
theorem exec_store_passed {i : Instr} {m : MemOperand} {s t : State} (hi : i.storeOperand = some m)
    (h : exec i s = .next t) : Passed (encode i).length (matrixCycles i.opcode) s t := by
  obtain ⟨v, rfl⟩ := exec_store hi h
  refine Passed.memWrite ?_ _ v
  cases i
  case sta o | stx o | sty o =>
    cases hi
    cases o <;> exact ⟨rfl, rfl⟩
  all_goals cases hi

/-- The matrix gives a read-modify-write the cost its operand's mode has. -/
theorem exec_rmw_passed {i : Instr} {o : RmwOperand} {s t : State} (hi : i.rmwOperand = some o)
    (h : exec i s = .next t) : Passed (encode i).length (matrixCycles i.opcode) s t := by
  have hstore := fun v => (rmwLoad_passed s o).memWrite (resolve s o.mem).addr v
  cases i
  case inc o' | dec o' =>
    cases hi
    injection h with h
    subst h
    cases o <;> exact ⟨(hstore _).pc, (hstore _).cycles⟩
  case asl o' | lsr o' | rol o' | ror o' =>
    cases o' with
    | acc => cases hi
    | mem o' =>
      cases hi
      injection h with h
      subst h
      cases o <;> exact ⟨(hstore _).pc, (hstore _).cycles⟩
  all_goals cases hi

/-- From `s` to `t` instruction `i` has charged `c` cycles, and moved PC by its length unless it loads PC (R82). -/
structure Costs (i : Instr) (c : Nat) (s t : State) : Prop where
  cycles : t.cpu.cycles = s.cpu.cycles + c
  pc : i.loadsPc = false → t.cpu.pc = s.cpu.pc + BitVec.ofNat 16 (encode i).length

theorem Passed.costs {i : Instr} {c : Nat} {s t : State} (h : Passed (encode i).length c s t) : Costs i c s t :=
  ⟨h.cycles, fun _ => h.pc⟩

/-- An instruction that is no branch takes its opcode's cycles and the page-cross cycle of its read (R81, R97). -/
theorem exec_costs {i : Instr} {s t : State} (hb : i.branch s.cpu.p = none) (h : exec i s = .next t) :
    Costs i (matrixCycles i.opcode + crossCycle s i.readOperand) s t := by
  cases i
  case adc o | sbc o | and o | ora o | eor o | cmp o | lda o | bit o | cpx o | cpy o | ldx o | ldy o =>
    exact (exec_read_passed rfl h).costs
  case sta o | stx o | sty o => exact (exec_store_passed rfl h).costs
  case inc o | dec o => exact (exec_rmw_passed rfl h).costs
  case asl o | lsr o | rol o | ror o =>
    cases o with
    | acc =>
      injection h with h
      subst h
      exact ⟨rfl, fun _ => rfl⟩
    | mem o => exact (exec_rmw_passed rfl h).costs
  case bcc | bcs | beq | bne | bmi | bpl | bvc | bvs => cases hb
  case illegal => cases h
  case pha | php | pla | plp =>
    injection h with h
    simp only [push_eq, pull_eq] at h
    subst h
    exact ⟨rfl, fun _ => rfl⟩
  case jmp o =>
    cases o <;> injection h with h <;> subst h
    case abs a => exact ⟨rfl, nofun⟩
    case ind a =>
      have hcpu : (read16Bug s a).2.cpu = s.cpu := readPair_cpu ..
      exact ⟨congrArg (·.cycles + 5) hcpu, nofun⟩
  case jsr | rts | rti =>
    injection h with h
    simp only [push16_eq, pull16_eq, returnFromHandler_eq] at h
    subst h
    exact ⟨rfl, nofun⟩
  case brk =>
    injection h with h
    rw [enterHandler_eq _ _ _ (by decide) (by decide)] at h
    subst h
    exact ⟨rfl, nofun⟩
  all_goals
    injection h with h
    subst h
    exact ⟨rfl, fun _ => rfl⟩

/-- A branch instruction is `branchIf`, of two bytes and two cycles (R146 to R153). -/
theorem exec_branch {i : Instr} {s : State} {d : Byte} {taken : Bool} (hi : i.branch s.cpu.p = some (d, taken)) :
    exec i s = .next (branchIf taken d s) ∧ (encode i).length = 2 ∧ matrixCycles i.opcode = 2 ∧
      i.readOperand = none := by
  cases i
  case bcc | bcs | beq | bne | bmi | bpl | bvc | bvs =>
    cases hi
    exact ⟨rfl, rfl, rfl, rfl⟩
  all_goals cases hi

/-- A taken branch costs one cycle more, two when it leaves the page (R145). -/
theorem takeBranch_cycles (s : State) (target : Word) :
    (takeBranch s target).cpu.cycles =
      s.cpu.cycles + if target.toNat / 256 = s.cpu.pc.toNat / 256 then 1 else 2 := by
  simp only [takeBranch, charge_cycles, setPc_cycles, pageDiffers_eq, decide_eq_true_eq]
  split_ifs <;> omega

/-- The address `n` after PC (R5). -/
theorem pcPlus_toNat (pc : Word) (n : Nat) : (pc + BitVec.ofNat 16 n).toNat = (pc.toNat + n) % 65536 := by
  simp [BitVec.toNat_add]

/-- Every opcode that is not illegal has a cost in the matrix (R81). -/
theorem matrixCycles_ne_zero {op : Byte} (h : op ∉ illegalOpcodes) : matrixCycles op ≠ 0 := by
  revert op; decide

theorem isIllegal_of_exec {i : Instr} {s t : State} (h : exec i s = .next t) : i.isIllegal = false := by
  cases i
  case illegal => cases h
  all_goals rfl

/-- Settles O17: the branches by `takeBranch`, every other instruction by its operand's cost or its own. -/
theorem cyclesAndLength : Obligations.CyclesAndLength := by
  unfold Obligations.CyclesAndLength
  intro i s t h
  refine ⟨?_, matrixCycles_ne_zero (opcode_notMem_illegalOpcodes (isIllegal_of_exec h))⟩
  cases hb : i.branch s.cpu.p with
  | none =>
    obtain ⟨hcycles, hpc⟩ := exec_costs hb h
    refine ⟨hcycles.trans (Nat.add_assoc ..).symm, fun hload _ => ?_⟩
    rw [hpc hload, pcPlus_toNat]
  | some branch =>
    obtain ⟨d, taken⟩ := branch
    obtain ⟨hexec, hlength, hbase, hread⟩ := exec_branch hb
    obtain rfl := next_unique h hexec
    rw [hlength, hbase, hread, ← pcPlus_toNat]
    refine ⟨?_, fun _ hnone => nomatch hnone⟩
    cases taken with
    | true => exact takeBranch_cycles (advance s 2 2) _
    | false => rfl

end Sys2Proof.Machine
end

section
/-!
PROOFS, the family of 40_arithmetic_logic.md (O18 to O21, O23, O26). First what an operand read keeps of the CPU, then a
result with its Z and N, which the index, load and logic instructions share, then BIT, then the addition of ADC and SBC.
-/

namespace Sys2Proof.Machine

/-! ## The CPU after an operand read -/

@[simp] theorem loadOperand_a (s : State) (o : Operand) : (loadOperand s o).2.cpu.a = s.cpu.a := by
  cases o with
  | imm v => rfl
  | mem m => simp [loadOperand_mem]

@[simp] theorem loadOperand_p (s : State) (o : Operand) : (loadOperand s o).2.cpu.p = s.cpu.p := by
  cases o with
  | imm v => rfl
  | mem m => simp [loadOperand_mem]

@[simp] theorem loadOperand_flag (s : State) (o : Operand) (f : Flag) : (loadOperand s o).2.flag f = s.flag f := by
  rw [State.flag, loadOperand_p, State.flag]

/-! ## A result with its Z and N -/

/-- An instruction that ends with `SetZN` from a state whose status byte is still the old one (R100). -/
theorem exec_of_setZN {i : Instr} {s t : State} {v : Byte} (h : exec i s = .next (t.setZN v))
    (hp : t.cpu.p = s.cpu.p) :
    ∃ p', exec i s = .next { t with cpu := { t.cpu with p := p' } } ∧ ZnFlags s.cpu.p p' v :=
  ⟨putZN v t.cpu.p, h, hp ▸ putZN_znFlags v t.cpu.p⟩

/-- Decrementing a byte adds 255 modulo 256. -/
theorem toNat_sub_one (v : Byte) : (v - 1).toNat = (v.toNat + 255) % 256 := by
  rw [BitVec.toNat_sub, Nat.add_comm]; rfl

/-- Settles O23: each puts the register's next or previous value, with its Z and N. -/
theorem indexIncrements : Obligations.IndexIncrements := by
  unfold Obligations.IndexIncrements
  refine ⟨⟨rfl, rfl, rfl, rfl⟩, fun s => ?_⟩
  obtain ⟨pinx, hinx, hinxFlags⟩ := exec_of_setZN (i := .inx) (t := (advance s 1 2).setX (s.cpu.x + 1)) rfl rfl
  obtain ⟨piny, hiny, hinyFlags⟩ := exec_of_setZN (i := .iny) (t := (advance s 1 2).setY (s.cpu.y + 1)) rfl rfl
  obtain ⟨pdex, hdex, hdexFlags⟩ := exec_of_setZN (i := .dex) (t := (advance s 1 2).setX (s.cpu.x - 1)) rfl rfl
  obtain ⟨pdey, hdey, hdeyFlags⟩ := exec_of_setZN (i := .dey) (t := (advance s 1 2).setY (s.cpu.y - 1)) rfl rfl
  exact ⟨⟨_, pinx, hinx, BitVec.toNat_add .., hinxFlags⟩, ⟨_, piny, hiny, BitVec.toNat_add .., hinyFlags⟩,
    ⟨_, pdex, hdex, toNat_sub_one _, hdexFlags⟩, ⟨_, pdey, hdey, toNat_sub_one _, hdeyFlags⟩⟩

/-- Settles O26: the operand is put into the register, then `SetZN`; the read keeps the status byte. -/
theorem loads : Obligations.Loads := by
  unfold Obligations.Loads
  intro s
  refine ⟨fun o => ?_, fun o => ?_, fun o => ?_⟩
  · exact exec_of_setZN (t := (loadOperand s o.operand).2.setA (loadOperand s o.operand).1) rfl (loadOperand_p s _)
  · exact exec_of_setZN (t := (loadOperand s o.operand).2.setX (loadOperand s o.operand).1) rfl (loadOperand_p s _)
  · exact exec_of_setZN (t := (loadOperand s o.operand).2.setY (loadOperand s o.operand).1) rfl (loadOperand_p s _)

/-- An instruction that puts into A the result of an operation on A and the operand that acts bit by bit. -/
theorem exec_bitwise {i : Instr} {s : State} {o : Operand} {op : Byte → Byte → Byte} {f : Bool → Bool → Bool}
    (hexec : exec i s = .next (resultToA (loadOperand s o).2 (op (loadOperand s o).2.cpu.a (loadOperand s o).1)))
    (hbits : ∀ (a m : Byte) (k : Nat), (op a m).getLsbD k = f (a.getLsbD k) (m.getLsbD k)) :
    ∃ r p' : Byte,
      exec i s = .next { (loadOperand s o).2 with cpu := { (loadOperand s o).2.cpu with a := r, p := p' } } ∧
      (∀ k < 8, r.getLsbD k = f (s.cpu.a.getLsbD k) ((loadOperand s o).1.getLsbD k)) ∧ ZnFlags s.cpu.p p' r := by
  rw [loadOperand_a] at hexec
  obtain ⟨p', hnext, hflags⟩ := exec_of_setZN hexec (loadOperand_p s o)
  exact ⟨_, p', hnext, fun k _ => hbits _ _ k, hflags⟩

/-- Settles O20: the three operations act bit by bit. -/
theorem logicResults : Obligations.LogicResults := by
  unfold Obligations.LogicResults
  intro s o
  exact ⟨exec_bitwise (op := (· &&& ·)) rfl fun _ _ _ => BitVec.getLsbD_and,
    exec_bitwise (op := (· ||| ·)) rfl fun _ _ _ => BitVec.getLsbD_or,
    exec_bitwise (op := (· ^^^ ·)) rfl fun _ _ _ => BitVec.getLsbD_xor⟩

/-! ## BIT -/

theorem beq_zero_iff_bits (v : Byte) : (v == 0) = true ↔ ∀ k < 8, v.getLsbD k = false := by
  rw [beq_iff_eq]
  refine ⟨fun h k _ => h ▸ BitVec.getLsbD_zero, fun h => BitVec.eq_of_getLsbD_eq fun k hk => ?_⟩
  exact (h k hk).trans BitVec.getLsbD_zero.symm

theorem getLsbD_six (v : Byte) : v.getLsbD 6 = decide (v.toNat / 64 % 2 = 1) := Nat.testBit_eq_decide_div_mod_eq

/-- Settles O21: the flags of `bitFlags`, the read having kept A and the status byte. -/
theorem bitResult : Obligations.BitResult := by
  unfold Obligations.BitResult
  intro s o
  refine ⟨bitFlags s.cpu.a (loadOperand s o.operand).1 s.cpu.p, ?_, ?_, ?_, ?_, fun f hz hv hn => ?_⟩
  · rw [exec, execBit, loadOperand_a, loadOperand_p]; rfl
  · simp only [bitFlags, getFlag_putFlag, reduceCtorEq, if_false, if_true, beq_zero_iff_bits, BitVec.getLsbD_and]
  · simp only [bitFlags, getFlag_putFlag, reduceCtorEq, if_false, if_true, getLsbD_six]
  · simp only [bitFlags, getFlag_putFlag, if_true, getLsbD_seven]
  · exact bitFlags_changesOnly _ _ _ f (by simp [hz, hv, hn])

/-! ## Addition into A -/

theorem bitNat_le_one (b : Bool) : bitNat b ≤ 1 := by cases b <;> decide

theorem addSum_toNat (a m : Byte) (c : Bool) : (addSum a m c).toNat = a.toNat + m.toNat + bitNat c := by
  have := a.isLt; have := m.isLt
  cases c <;> simp [addSum, bitNat] <;> omega

theorem addResult_toNat (a m : Byte) (c : Bool) :
    (addResult a m c).toNat = (a.toNat + m.toNat + bitNat c) % 256 := by
  rw [addResult, BitVec.toNat_setWidth, addSum_toNat]

/-- Bit 8 of the 9-bit sum is the carry. -/
theorem addCarry_eq (a m : Byte) (c : Bool) :
    addCarry a m c = decide (256 ≤ a.toNat + m.toNat + bitNat c) := by
  rw [← addSum_toNat]
  exact BitVec.msb_eq_decide (addSum a m c)

/-- The sign bit of a byte decides which of two numbers it is as a signed one. -/
theorem toInt_cases (v : Byte) :
    v.toNat < 128 ∧ v.toInt = v.toNat ∨ 128 ≤ v.toNat ∧ v.toInt = (v.toNat : Int) - 256 := by
  rw [BitVec.toInt_eq_toNat_cond]
  split_ifs <;> omega

/-- The result has the wrong sign for both addends exactly when the signed sum does not fit in a byte. -/
theorem addOverflow_eq (a m : Byte) (c : Bool) :
    addOverflow a m c = decide (a.toInt + m.toInt + bitNat c < -128 ∨ 127 < a.toInt + m.toInt + bitNat c) := by
  have hr := addResult_toNat a m c
  have hc := bitNat_le_one c
  have hbit : addOverflow a m c = true ↔
      ¬(128 ≤ a.toNat ↔ 128 ≤ (addResult a m c).toNat) ∧ ¬(128 ≤ m.toNat ↔ 128 ≤ (addResult a m c).toNat) := by
    rw [addOverflow, BitVec.getLsbD_and, BitVec.getLsbD_xor, BitVec.getLsbD_xor, getLsbD_seven, getLsbD_seven,
      getLsbD_seven, Bool.and_eq_true, Bool.xor_iff_ne, Bool.xor_iff_ne, Ne, Ne, decide_eq_decide, decide_eq_decide]
  rw [Bool.eq_iff_iff, hbit, decide_eq_true_iff]
  obtain ha | ha := toInt_cases a <;> obtain hm | hm := toInt_cases m <;> omega

theorem getFlag_addFlags_c (a m p : Byte) (c : Bool) :
    getFlag .c (addFlags a m c p) = decide (256 ≤ a.toNat + m.toNat + bitNat c) := by
  simp [addFlags, getFlag_putZN, getFlag_putFlag, addCarry_eq]

theorem getFlag_addFlags_v (a m p : Byte) (c : Bool) :
    getFlag .v (addFlags a m c p) =
      decide (a.toInt + m.toInt + bitNat c < -128 ∨ 127 < a.toInt + m.toInt + bitNat c) := by
  simp only [addFlags, getFlag_putZN, reduceCtorEq, if_false, getFlag_putFlag_same, addOverflow_eq]

theorem getFlag_addFlags_z (a m p : Byte) (c : Bool) :
    getFlag .z (addFlags a m c p) = decide ((addResult a m c).toNat = 0) := (putZN_znFlags _ _).z

theorem getFlag_addFlags_n (a m p : Byte) (c : Bool) :
    getFlag .n (addFlags a m c p) = decide (128 ≤ (addResult a m c).toNat) := (putZN_znFlags _ _).n

theorem getFlag_addFlags_other (a m p : Byte) (c : Bool) (f : Flag) (hc : f ≠ .c) (hv : f ≠ .v) (hz : f ≠ .z)
    (hn : f ≠ .n) : getFlag f (addFlags a m c p) = getFlag f p :=
  addFlags_changesOnly a m c p f (by simp [hc, hv, hz, hn])

/-- An instruction that adds `v` into A after its operand read; the read keeps A and the status byte. -/
theorem exec_of_addToA {i : Instr} {s : State} {o : Operand} {v : Byte}
    (h : exec i s = .next (addToA (loadOperand s o).2 v)) :
    exec i s = .next { (loadOperand s o).2 with
      cpu := { (loadOperand s o).2.cpu with
        a := addResult s.cpu.a v (s.flag .c), p := addFlags s.cpu.a v (s.flag .c) s.cpu.p } } := by
  rw [h, addToA, loadOperand_a, loadOperand_p, loadOperand_flag]; rfl

/-- Settles O18: the sum, its carry and its overflow as numbers. -/
theorem adcResult : Obligations.AdcResult := by
  unfold Obligations.AdcResult
  intro s o
  exact ⟨_, _, exec_of_addToA rfl, addResult_toNat .., getFlag_addFlags_c .., getFlag_addFlags_v ..,
    getFlag_addFlags_z .., getFlag_addFlags_n .., getFlag_addFlags_other _ _ _ _⟩

/-! ## Subtraction as an addition -/

theorem borrowOperand_toNat (m : Byte) : (borrowOperand m).toNat = 255 - m.toNat := by
  have hnot : borrowOperand m = ~~~m := BitVec.xor_allOnes
  rw [hnot, BitVec.toNat_not]

theorem borrowOperand_toInt (m : Byte) : (borrowOperand m).toInt = -m.toInt - 1 := by
  have hm := toInt_cases m
  have hborrow := toInt_cases (borrowOperand m)
  rw [borrowOperand_toNat] at hborrow
  omega

/-- Settles O19: adding the complement and the carry is subtracting the operand and the borrow, unsigned and signed. -/
theorem sbcResult : Obligations.SbcResult := by
  unfold Obligations.SbcResult
  intro s o
  have hm := (loadOperand s o.operand).1.isLt
  have hc := bitNat_le_one (s.flag .c)
  refine ⟨_, _, exec_of_addToA rfl, ?_, (getFlag_addFlags_c ..).trans ?_, (getFlag_addFlags_v ..).trans ?_,
    getFlag_addFlags_z .., getFlag_addFlags_n .., getFlag_addFlags_other _ _ _ _⟩
  · rw [addResult_toNat, borrowOperand_toNat]; omega
  · rw [borrowOperand_toNat, decide_eq_decide]; omega
  · rw [borrowOperand_toInt, decide_eq_decide]; omega

end Sys2Proof.Machine
end

section
/-!
PROOFS, the family of 41_shift_rotate.md (O24). First the flags a shift sets and its result as a number, then the memory
form of `shiftOperand` in one equation, then `ShiftsTo` for any instruction that runs `shiftOperand`.
-/

namespace Sys2Proof.Machine

/-! ## Carry and flags -/

theorem getLsbD_zero_eq (v : Byte) : v.getLsbD 0 = decide (v.toNat % 2 = 1) := Nat.testBit_zero v.toNat

/-- C as the shift gives it, then `SetZN` of the result (R116 to R119). -/
theorem shiftFlags_cznFlags (r : Shifted) (p : Byte) : CznFlags p (shiftFlags r p) r.carry r.result.toNat where
  c := by simp only [shiftFlags, getFlag_putZN, reduceCtorEq, if_false, getFlag_putFlag_same]
  z := (putZN_znFlags r.result _).z
  n := (putZN_znFlags r.result _).n
  others f hc hz hn := shiftFlags_changesOnly r p f (by simp [hc, hz, hn])

/-! ## The results as numbers -/

theorem bitByte_toNat (b : Bool) (n : Nat) : (bitByte b n).toNat = 2 ^ n * bitNat b % 256 := by
  cases b with
  | false => simp [bitByte, bitNat]
  | true => simp [bitByte, bitNat, Nat.shiftLeft_eq]

/-- Putting a bit where the byte has a 0 adds it: the two have no bit in common. -/
theorem or_bitByte_toNat {v : Byte} {n : Nat} (h : v.getLsbD n = false) (b : Bool) :
    (v ||| bitByte b n).toNat = (v.toNat + 2 ^ n * bitNat b) % 256 := by
  have hdisjoint : v &&& bitByte b n = 0#8 := by
    cases b with
    | false => exact BitVec.and_zero
    | true =>
      change v &&& BitVec.twoPow 8 n = 0#8
      simp [BitVec.and_twoPow, h]
  rw [← BitVec.add_eq_or_of_and_eq_zero _ _ hdisjoint, BitVec.toNat_add, bitByte_toNat, Nat.add_mod_mod]

theorem shiftAsl_result_toNat (v : Byte) : (shiftAsl v).result.toNat = v.toNat * 2 % 256 := by
  rw [shiftAsl, BitVec.toNat_shiftLeft, Nat.shiftLeft_eq]

theorem shiftLsr_result_toNat (v : Byte) : (shiftLsr v).result.toNat = v.toNat / 2 := by
  rw [shiftLsr, BitVec.toNat_ushiftRight, Nat.shiftRight_eq_div_pow]

/-- The left shift frees bit 0 for the old carry. -/
theorem shiftRol_result_toNat (v : Byte) (c : Bool) :
    (shiftRol v c).result.toNat = (v.toNat * 2 + bitNat c) % 256 := by
  have hfree : (shiftAsl v).result.getLsbD 0 = false := by simp [shiftAsl]
  have hor := or_bitByte_toNat hfree c
  rwa [shiftAsl_result_toNat, pow_zero, one_mul, Nat.mod_add_mod] at hor

/-- The right shift frees bit 7 for the old carry. -/
theorem shiftRor_result_toNat (v : Byte) (c : Bool) :
    (shiftRor v c).result.toNat = v.toNat / 2 + 128 * bitNat c := by
  have hfree : (shiftLsr v).result.getLsbD 7 = false := by simp [shiftLsr]
  have hfits : v.toNat / 2 + 128 * bitNat c < 256 := by
    have hv := v.isLt
    have hc := bitNat_le_one c
    omega
  have hor := or_bitByte_toNat hfree c
  rw [shiftLsr_result_toNat] at hor
  exact hor.trans (Nat.mod_eq_of_lt hfits)

/-! ## Both forms -/

theorem rmwLoad_flag (s : State) (o : RmwOperand) (f : Flag) : (rmwLoad s o).state.flag f = s.flag f := by
  rw [State.flag, rmwLoad_p, State.flag]

/-- The memory form (R115): its read and its write keep the status byte, so the carry that enters and the flags that
stay are those before the instruction. -/
theorem shiftOperand_mem (f : Byte → Bool → Shifted) (m : RmwOperand) (s : State) :
    shiftOperand f (.mem m) s =
      (rmwStore (rmwLoad s m) (f (rmwLoad s m).value (s.flag .c)).result).setP
        (shiftFlags (f (rmwLoad s m).value (s.flag .c)) s.cpu.p) := by
  rw [shiftOperand, rmwLoad_flag, rmwStore, memWrite_p, rmwLoad_p]

/-- An instruction that runs `shiftOperand` of `f` is described by the result and the carry of `f` as numbers. -/
theorem shiftsTo_of_shiftOperand {i : ShiftOperand → Instr} {f : Byte → Bool → Shifted} {result : Nat → Nat → Nat}
    {carry : Nat → Bool} (hexec : ∀ o s, exec (i o) s = .next (shiftOperand f o s))
    (hresult : ∀ v c, (f v c).result.toNat = result v.toNat (bitNat c))
    (hcarry : ∀ v c, (f v c).carry = carry v.toNat) : ShiftsTo i result carry := by
  have hflags (v : Byte) (c : Bool) (p : Byte) :
      CznFlags p (shiftFlags (f v c) p) (carry v.toNat) (f v c).result.toNat :=
    hcarry v c ▸ shiftFlags_cznFlags (f v c) p
  refine ⟨fun s => ?acc, fun s m => ?mem⟩
  case acc => exact ⟨_, _, hexec .acc s, hresult .., hflags ..⟩
  case mem => exact ⟨_, _, (hexec (.mem m) s).trans (congrArg _ (shiftOperand_mem f m s)), hresult .., hflags ..⟩

/-- Settles O24: each runs `shiftOperand` of its shift, whose result and carry are those of the rule. -/
theorem shiftsAndRotates : Obligations.ShiftsAndRotates := by
  unfold Obligations.ShiftsAndRotates
  refine ⟨?asl, ?lsr, ?rol, ?ror⟩
  case asl =>
    exact shiftsTo_of_shiftOperand (fun _ _ => rfl) (fun v _ => shiftAsl_result_toNat v) fun v _ => getLsbD_seven v
  case lsr =>
    exact shiftsTo_of_shiftOperand (fun _ _ => rfl) (fun v _ => shiftLsr_result_toNat v) fun v _ => getLsbD_zero_eq v
  case rol => exact shiftsTo_of_shiftOperand (fun _ _ => rfl) shiftRol_result_toNat fun v _ => getLsbD_seven v
  case ror => exact shiftsTo_of_shiftOperand (fun _ _ => rfl) shiftRor_result_toNat fun v _ => getLsbD_zero_eq v

end Sys2Proof.Machine
end

section
/-!
PROOFS, the family of 42_compare.md (O25). First the flags a compare sets, then any instruction that compares a register
its operand read keeps.
-/

namespace Sys2Proof.Machine

@[simp] theorem loadOperand_x (s : State) (o : Operand) : (loadOperand s o).2.cpu.x = s.cpu.x := by
  cases o with
  | imm v => rfl
  | mem m => simp [loadOperand_mem]

@[simp] theorem loadOperand_y (s : State) (o : Operand) : (loadOperand s o).2.cpu.y = s.cpu.y := by
  cases o with
  | imm v => rfl
  | mem m => simp [loadOperand_mem]

/-- Subtracting a byte modulo 256, with the minuend first as R120 writes it. -/
theorem toNat_sub_byte (r m : Byte) : (r - m).toNat = (r.toNat + 256 - m.toNat) % 256 := by
  have hm := m.isLt
  rw [BitVec.toNat_sub]
  omega

/-- C from the unsigned comparison, then `SetZN` of the difference (R120). -/
theorem compareFlags_cznFlags (r m p : Byte) :
    CznFlags p (compareFlags r m p) (decide (m.toNat ≤ r.toNat)) ((r.toNat + 256 - m.toNat) % 256) := by
  rw [← toNat_sub_byte]
  exact
    { c := by simp only [compareFlags, getFlag_putZN, reduceCtorEq, if_false, getFlag_putFlag_same]
      z := (putZN_znFlags (r - m) _).z
      n := (putZN_znFlags (r - m) _).n
      others := fun f hc hz hn => compareFlags_changesOnly r m p f (by simp [hc, hz, hn]) }

/-- An instruction that compares a register with its operand: the read keeps the register and the status byte (R120). -/
theorem exec_of_compare {i : Instr} {s : State} {o : Operand} (reg : State → Byte)
    (h : exec i s = .next ((loadOperand s o).2.setP
      (compareFlags (reg (loadOperand s o).2) (loadOperand s o).1 (loadOperand s o).2.cpu.p)))
    (hreg : reg (loadOperand s o).2 = reg s) :
    ∃ p' : Byte, exec i s = .next { (loadOperand s o).2 with cpu := { (loadOperand s o).2.cpu with p := p' } } ∧
      CznFlags s.cpu.p p' (decide ((loadOperand s o).1.toNat ≤ (reg s).toNat))
        (((reg s).toNat + 256 - (loadOperand s o).1.toNat) % 256) := by
  rw [hreg, loadOperand_p] at h
  exact ⟨_, h, compareFlags_cznFlags ..⟩

/-- Settles O25: the three compares differ in the register, which the operand read keeps. -/
theorem compares : Obligations.Compares := by
  unfold Obligations.Compares
  intro s
  refine ⟨fun o => ?cmp, fun o => ?cpx, fun o => ?cpy⟩
  case cmp => exact exec_of_compare (·.cpu.a) rfl (loadOperand_a s _)
  case cpx => exact exec_of_compare (·.cpu.x) rfl (loadOperand_x s _)
  case cpy => exact exec_of_compare (·.cpu.y) rfl (loadOperand_y s _)

end Sys2Proof.Machine
end

section
/-!
PROOFS, the family of 43_load_store_transfer.md (O27 to O29). First a store as one write with its destination's length
and cost, then the transfers, then the stack instructions from what a push and a pull leave after PC and the cost.
-/

namespace Sys2Proof.Machine

/-! ## Stores -/

/-- A store's length and cost are those of its destination's mode, page crossed or not (R80, R81, R97). -/
theorem store_length_cycles {i : Instr} {m : MemOperand} (hi : i.storeOperand = some m) :
    (encode i).length = modeLength m ∧ matrixCycles i.opcode = storeCycles m := by
  cases i
  case sta o | stx o | sty o =>
    cases hi
    cases o <;> exact ⟨rfl, rfl⟩
  all_goals cases hi

/-- An instruction that writes a register to its store target: the write itself, and what it leaves when the target is
work RAM (R46, R128 to R130). -/
theorem exec_of_store {i : Instr} {m : MemOperand} {s : State} (reg : State → Byte) (hi : i.storeOperand = some m)
    (h : exec i s = .next (memWrite (storeTarget s m).2 (storeTarget s m).1 (reg (storeTarget s m).2)))
    (hreg : ∀ n c, reg (advance s n c) = reg s) :
    exec i s = .next (memWrite (past s (encode i).length (matrixCycles i.opcode)) (resolve s m).addr (reg s)) ∧
    ((resolve s m).addr.toNat < 0x2000 →
      exec i s = .next { past s (encode i).length (matrixCycles i.opcode) with
        bus := { s.bus with ram := Memory.write s.bus.ram ((resolve s m).addr.toNat % 2048) (reg s) } }) := by
  obtain ⟨hlength, hcycles⟩ := store_length_cycles hi
  simp only [storeTarget_eq, hreg] at h
  rw [hlength, hcycles]
  refine ⟨h, fun hram => ?_⟩
  rw [h, memWrite_of_ram _ hram]
  rfl

/-- Settles O27: the three stores differ in the register, which PC and the cost leave alone. -/
theorem stores : Obligations.Stores := by
  unfold Obligations.Stores
  intro s
  refine ⟨fun o => ?sta, fun o => ?stx, fun o => ?sty⟩
  case sta => exact exec_of_store (·.cpu.a) rfl rfl fun _ _ => rfl
  case stx => exact exec_of_store (·.cpu.x) rfl rfl fun _ _ => rfl
  case sty => exact exec_of_store (·.cpu.y) rfl rfl fun _ _ => rfl

/-! ## Register transfers -/

/-- Settles O28: each but TXS ends with `SetZN` of the register copied; TXS is the copy alone. -/
theorem registerTransfers : Obligations.RegisterTransfers := by
  unfold Obligations.RegisterTransfers
  refine ⟨⟨rfl, rfl, rfl, rfl, rfl, rfl⟩, fun s => ⟨?tax, ?tay, ?txa, ?tya, ?tsx, ?txs⟩⟩
  case tax => exact exec_of_setZN (t := (advance s 1 2).setX s.cpu.a) rfl rfl
  case tay => exact exec_of_setZN (t := (advance s 1 2).setY s.cpu.a) rfl rfl
  case txa => exact exec_of_setZN (t := (advance s 1 2).setA s.cpu.x) rfl rfl
  case tya => exact exec_of_setZN (t := (advance s 1 2).setA s.cpu.y) rfl rfl
  case tsx => exact exec_of_setZN (t := (advance s 1 2).setX s.cpu.sp) rfl rfl
  case txs => rfl

/-! ## Stack instructions -/

/-- A push after PC and the cost: one byte of page 1, and SP lowered (R59). -/
theorem push_advance (s : State) (n c : Nat) (b : Byte) :
    push (advance s n c) b =
      { past s n c with
        bus := { s.bus with ram := Memory.write s.bus.ram (256 + s.cpu.sp.toNat) b }
        cpu := { (past s n c).cpu with sp := s.cpu.sp - 1 } } :=
  push_eq ..

/-- A pull after PC and the cost: the byte of page 1 above SP, and SP raised (R59). -/
theorem pull_advance (s : State) (n c : Nat) :
    pull (advance s n c) =
      (Memory.read s.bus.ram (256 + (s.cpu.sp + 1).toNat), (advance s n c).setSp (s.cpu.sp + 1)) :=
  pull_eq ..

/-- Settles O29: what a push and a pull leave, with the flags of `packP`, of `SetZN` and of `unpackP`. -/
theorem stackInstructions : Obligations.StackInstructions := by
  unfold Obligations.StackInstructions
  refine ⟨⟨rfl, rfl, rfl, rfl⟩, fun s => ⟨?pha, ?php, ?pla, ?plp⟩⟩
  case pha => exact congrArg Host.Outcome.next (push_advance ..)
  case php =>
    refine ⟨packP true s.cpu.p, congrArg Host.Outcome.next (push_advance ..), ?_, ?_, fun f hb hu => ?_⟩
    · rw [getFlag_packP, if_pos rfl]
    · rw [getFlag_packP, if_neg (by decide), if_pos rfl]
    · rw [getFlag_packP, if_neg hb, if_neg hu]
  case pla =>
    refine exec_of_setZN (t := ((advance s 1 4).setSp (s.cpu.sp + 1)).setA _) ?_ rfl
    rw [exec, execPla, pull_advance]
    rfl
  case plp =>
    refine ⟨unpackP (Memory.read s.bus.ram (256 + (s.cpu.sp + 1).toNat)), ?_, ?_, ?_, fun f hb hu => ?_⟩
    · rw [exec, execPlp, pull_advance]
      rfl
    · rw [getFlag_unpackP, if_pos rfl]
    · rw [getFlag_unpackP, if_neg (by decide), if_pos rfl]
    · rw [getFlag_unpackP, if_neg hb, if_neg hu]

end Sys2Proof.Machine
end

section
/-!
PROOFS, the family of 44_control_flow.md (O30 to O32). First a branch from where it goes and what it costs, then the
jumps and the call from what two pushes and two pulls leave, then the trap and its return.
-/

namespace Sys2Proof.Machine

/-! ## Branches -/

/-- A branch's target counts the offset as signed, modulo 2^16 (R96). -/
theorem branchTarget_toNat (pc : Word) (d : Byte) :
    ((branchTarget pc d).toNat : Int) = (pc.toNat + 2 + d.toInt) % 65536 := by
  have hext := BitVec.toNat_signExtend d (v := 16)
  rw [BitVec.toNat_setWidth_of_le (by decide)] at hext
  rw [branchTarget, BitVec.toNat_add, BitVec.toNat_add, hext, BitVec.toInt_eq_msb_cond]
  split_ifs <;> push_cast <;> omega

/-- A branch that is not taken goes on at the next instruction (R145). -/
theorem branchIf_false (s : State) (d : Byte) : branchIf false d s = past s 2 2 := rfl

/-- A taken branch: PC at the target, 3 cycles, and one more for another page than the next instruction's (R145). -/
theorem branchIf_true (s : State) (d : Byte) :
    branchIf true d s =
      { s with cpu := { s.cpu with
        pc := branchTarget s.cpu.pc d
        cycles := s.cpu.cycles + 3 +
          if (s.cpu.pc.toNat + 2) % 65536 / 256 = (branchTarget s.cpu.pc d).toNat / 256 then 0 else 1 } } := by
  refine State.eq_of_blocks (Cpu.eq_of_fields rfl rfl rfl rfl rfl rfl rfl rfl ?cycles) rfl rfl rfl rfl rfl
  refine (takeBranch_cycles (advance s 2 2) (branchTarget s.cpu.pc d)).trans ?_
  rw [advance_cycles, advance_pc, pcPlus_toNat]
  dsimp only
  split_ifs <;> omega

/-- An instruction that runs `branchIf` on a test of one flag, which holds for the value `b` only (R146 to R153). -/
theorem branchesOn_of_branchIf {i : Byte → Instr} {f : Flag} {b : Bool} (test : Bool → Bool)
    (hexec : ∀ s d, exec (i d) s = .next (branchIf (test (s.flag f)) d s)) (htest : ∀ v, test v = decide (v = b)) :
    BranchesOn i f b := by
  intro s d
  refine ⟨fun hskip => ?_, fun htaken => ⟨branchTarget s.cpu.pc d, ?_, branchTarget_toNat ..⟩⟩
  · rw [hexec, htest, decide_eq_false hskip, branchIf_false]
  · rw [hexec, htest, decide_eq_true htaken, branchIf_true]

/-- Settles O30: the eight differ in the flag and in whether it is tested for set or for clear. -/
theorem branches : Obligations.Branches := by
  unfold Obligations.Branches
  refine ⟨fun _ => ⟨rfl, rfl, rfl, rfl, rfl, rfl, rfl, rfl⟩, ?bcc, ?bcs, ?beq, ?bne, ?bmi, ?bpl, ?bvc, ?bvs⟩
  case bcc | bne | bpl | bvc => exact branchesOn_of_branchIf not (fun _ _ => rfl) (by decide)
  case bcs | beq | bmi | bvs => exact branchesOn_of_branchIf id (fun _ _ => rfl) (by decide)

/-! ## Jumps and calls -/

/-- The two bytes of a word, as a push stores them and a 16-bit operand holds them. -/
theorem highByte_lowByte_toNat (w : Word) : (highByte w).toNat * 256 + (lowByte w).toNat = w.toNat := by
  rw [← joinBytes_toNat, joinBytes_high_low]

theorem nextInPage_toNat (a : Word) : (nextInPage a).toNat = a.toNat / 256 * 256 + (a.toNat + 1) % 256 := by
  rw [nextInPage, joinBytes_toNat, highByte_toNat, BitVec.toNat_add, lowByte_toNat]
  simp

/-- Two pushes after PC and the cost (R59). -/
theorem push16_advance (s : State) (n c : Nat) (w : Word) :
    push16 (advance s n c) w =
      { past s n c with
        bus := { s.bus with
          ram := Memory.write (Memory.write s.bus.ram (256 + s.cpu.sp.toNat) (highByte w))
            (256 + (s.cpu.sp - 1).toNat) (lowByte w) }
        cpu := { (past s n c).cpu with sp := s.cpu.sp - 2 } } := by
  have hsp : s.cpu.sp - 2 = s.cpu.sp - 1 - 1 := by bv_omega
  rw [push16_eq, hsp]
  rfl

/-- Two pulls after PC and the cost (R59). -/
theorem pull16_advance (s : State) (n c : Nat) :
    pull16 (advance s n c) =
      (joinBytes (Memory.read s.bus.ram (256 + (s.cpu.sp + 2).toNat))
        (Memory.read s.bus.ram (256 + (s.cpu.sp + 1).toNat)), (advance s n c).setSp (s.cpu.sp + 2)) := by
  have hsp : s.cpu.sp + 2 = s.cpu.sp + 1 + 1 := by bv_omega
  rw [pull16_eq, hsp]
  rfl

/-- The indirect jump: PC from the two pointer bytes, the reads' own effects, 5 cycles (R92, R154). -/
theorem exec_jmp_ind (s : State) (a : Word) :
    exec (.jmp (.ind a)) s =
      .next { afterRead (afterRead s a) (nextInPage a) with
        cpu := { s.cpu with
          pc := joinBytes (peek (afterRead s a) (nextInPage a)) (peek s a), cycles := s.cpu.cycles + 5 } } := by
  have hcpu : (afterRead (afterRead s a) (nextInPage a)).cpu = s.cpu := by rw [afterRead_cpu, afterRead_cpu]
  rw [← hcpu]
  rfl

/-- The last byte of a three-byte instruction is two past its opcode. -/
theorem pcLastOfThree (pc : Word) : pc + BitVec.ofNat 16 3 - 1 = pc + BitVec.ofNat 16 2 := by bv_omega

/-- The call: the address of its last byte pushed, PC at the operand, 6 cycles (R155). -/
theorem exec_jsr (s : State) (a : Word) :
    exec (.jsr a) s =
      .next { s with
        bus := { s.bus with
          ram := Memory.write
            (Memory.write s.bus.ram (256 + s.cpu.sp.toNat) (highByte (s.cpu.pc + BitVec.ofNat 16 2)))
            (256 + (s.cpu.sp - 1).toNat) (lowByte (s.cpu.pc + BitVec.ofNat 16 2)) }
        cpu := { s.cpu with pc := a, sp := s.cpu.sp - 2, cycles := s.cpu.cycles + 6 } } := by
  rw [exec, execJsr, push16_advance, advance_pc, pcLastOfThree]
  rfl

/-- The return from a call: PC one past the address pulled, 6 cycles (R156). -/
theorem exec_rts (s : State) :
    exec .rts s =
      .next { s with cpu := { s.cpu with
        pc := joinBytes (Memory.read s.bus.ram (256 + (s.cpu.sp + 2).toNat))
          (Memory.read s.bus.ram (256 + (s.cpu.sp + 1).toNat)) + BitVec.ofNat 16 1
        sp := s.cpu.sp + 2
        cycles := s.cpu.cycles + 6 } } := by
  rw [exec, execRts, pull16_advance]
  rfl

/-- Settles O31: the pointer read of `JMP (a)`, and the stack's two pushes and two pulls. -/
theorem jumpsAndCalls : Obligations.JumpsAndCalls := by
  unfold Obligations.JumpsAndCalls
  refine fun s a => ⟨?encodings, ?jmpAbs, ?jmpInd, ?jsr, ?rts⟩
  case encodings => exact ⟨lowByte a, highByte a, highByte_lowByte_toNat a, rfl, rfl, rfl, rfl⟩
  case jmpAbs => rfl
  case jmpInd => exact ⟨nextInPage a, _, nextInPage_toNat a, joinBytes_toNat .., exec_jmp_ind s a⟩
  case jsr => exact ⟨_, _, (highByte_lowByte_toNat _).trans (pcPlus_toNat ..), exec_jsr s a⟩
  case rts =>
    refine ⟨_, ?_, exec_rts s⟩
    rw [pcPlus_toNat, joinBytes_toNat]

/-! ## The trap and its return -/

/-- The flags of a status byte as it is pushed (R14). -/
theorem packP_flags (b : Bool) (p : Byte) :
    getFlag .b (packP b p) = b ∧ getFlag .u (packP b p) = true ∧
      ∀ f, f ≠ .b → f ≠ .u → getFlag f (packP b p) = getFlag f p := by
  refine ⟨?_, ?_, fun f hb hu => ?_⟩
  · rw [getFlag_packP, if_pos rfl]
  · rw [getFlag_packP, if_neg (by decide), if_pos rfl]
  · rw [getFlag_packP, if_neg hb, if_neg hu]

/-- The flags of the status register after a pull (R14). -/
theorem unpackP_flags (m : Byte) :
    getFlag .b (unpackP m) = false ∧ getFlag .u (unpackP m) = true ∧
      ∀ f, f ≠ .b → f ≠ .u → getFlag f (unpackP m) = getFlag f m := by
  refine ⟨?_, ?_, fun f hb hu => ?_⟩
  · rw [getFlag_unpackP, if_pos rfl]
  · rw [getFlag_unpackP, if_neg (by decide), if_pos rfl]
  · rw [getFlag_unpackP, if_neg hb, if_neg hu]

/-- The trap: the entry of its handler after PC has moved by 2 and 7 cycles are charged (R158, R311). -/
theorem exec_brk (s : State) :
    exec .brk s =
      .next { s with
        bus := { s.bus with
          ram := Memory.write
            (Memory.write
              (Memory.write s.bus.ram (256 + s.cpu.sp.toNat) (highByte (s.cpu.pc + BitVec.ofNat 16 2)))
              (256 + (s.cpu.sp - 1).toNat) (lowByte (s.cpu.pc + BitVec.ofNat 16 2)))
            (256 + (s.cpu.sp - 2).toNat) (packP true s.cpu.p) }
        cpu := { s.cpu with
          pc := joinBytes (peek s 0xFFFF) (peek s 0xFFFE), sp := s.cpu.sp - 3, p := putFlag .i true s.cpu.p
          cycles := s.cpu.cycles + 7 } } := by
  have h2 : s.cpu.sp - 2 = s.cpu.sp - 1 - 1 := by bv_omega
  have h3 : s.cpu.sp - 3 = s.cpu.sp - 1 - 1 - 1 := by bv_omega
  rw [exec, execBrk, enterHandler_eq _ _ _ (by decide) (by decide), h2, h3]
  rfl

/-- The return: the status pulled first, then PC (R157). -/
theorem exec_rti (s : State) :
    exec .rti s =
      .next { s with cpu := { s.cpu with
        pc := joinBytes (Memory.read s.bus.ram (256 + (s.cpu.sp + 3).toNat))
          (Memory.read s.bus.ram (256 + (s.cpu.sp + 2).toNat))
        sp := s.cpu.sp + 3
        p := unpackP (Memory.read s.bus.ram (256 + (s.cpu.sp + 1).toNat))
        cycles := s.cpu.cycles + 6 } } := by
  have h2 : s.cpu.sp + 2 = s.cpu.sp + 1 + 1 := by bv_omega
  have h3 : s.cpu.sp + 3 = s.cpu.sp + 1 + 1 + 1 := by bv_omega
  rw [exec, execRti, returnFromHandler_eq, h2, h3]
  rfl

/-- Settles O32: the handler's entry and return, with the flags of the status pushed, kept and pulled. -/
theorem breakAndReturn : Obligations.BreakAndReturn := by
  unfold Obligations.BreakAndReturn
  refine ⟨fun _ => rfl, rfl, fun s => ⟨?brk, ?rti⟩⟩
  case brk =>
    exact ⟨_, _, packP true s.cpu.p, putFlag .i true s.cpu.p, _,
      (highByte_lowByte_toNat _).trans (pcPlus_toNat ..), joinBytes_toNat .., packP_flags true s.cpu.p,
      ⟨getFlag_putFlag_same .i true _, fun _ hf => getFlag_putFlag_other true _ hf⟩, exec_brk s⟩
  case rti => exact ⟨_, _, joinBytes_toNat .., unpackP_flags _, exec_rti s⟩

end Sys2Proof.Machine
end

section
/-!
PROOFS, the family of 45_flags_nop_illegal.md (O33). One lemma says what writing one flag after PC and the cost does; the
seven flag instructions differ only in the flag and in its value.
-/

namespace Sys2Proof.Machine

/-- An instruction that writes the one flag `f` after PC and the cost: `f` has its value, no other flag and nothing else
changes (R160 to R166). -/
theorem exec_of_setFlag {i : Instr} {s : State} {f : Flag} {b : Bool}
    (h : exec i s = .next ((advance s 1 2).setFlag f b)) :
    ∃ p' : Byte, exec i s = .next { past s 1 2 with cpu := { (past s 1 2).cpu with p := p' } } ∧
      getFlag f p' = b ∧ ∀ g, g ≠ f → getFlag g p' = getFlag g s.cpu.p :=
  ⟨putFlag f b s.cpu.p, h, getFlag_putFlag_same f b _, fun _ hg => getFlag_putFlag_other b _ hg⟩

/-- Settles O33: each of the seven is `setFlag` of its flag after PC and the cost; NOP is PC and the cost alone. -/
theorem flagInstructions : Obligations.FlagInstructions := by
  unfold Obligations.FlagInstructions
  refine ⟨⟨rfl, rfl, rfl, rfl, rfl, rfl, rfl, rfl⟩, fun s => ⟨?clc, ?sec, ?cli, ?sei, ?cld, ?sed, ?clv, ?nop⟩⟩
  case clc | sec | cli | sei | cld | sed | clv => exact exec_of_setFlag rfl
  case nop => rfl

end Sys2Proof.Machine
end

section
/-!
PROOFS, the family of 46_mapper.md (O47 to O49). First what an address of a PRG or CHR window names and what a register
write does to each variant, then the serial port of variant B one write at a time, last what each mode of the control
register shows.
-/

namespace Sys2Proof.Machine

/-! ## Windows and register writes -/

/-- Each PRG window is 16 KB of PRG in order, from the byte its first address names (R204, R210). -/
theorem peek_prgWindow (s : State) {base k : Nat} (hbase : base = 0x8000 ∨ base = 0xC000) (hk : k < 0x4000) :
    peek s (BitVec.ofNat 16 (base + k)) = Memory.read s.cart.prg (prgIndex s (BitVec.ofNat 16 base) + k) := by
  have haddr : (BitVec.ofNat 16 (base + k)).toNat = base + k := Nat.mod_eq_of_lt (by omega)
  have hfirst : (BitVec.ofNat 16 base).toNat = base := Nat.mod_eq_of_lt (by omega)
  have hwindow : base + k < 0xC000 ↔ base < 0xC000 := by omega
  have hidx : prgIndex s (BitVec.ofNat 16 (base + k)) = prgIndex s (BitVec.ofNat 16 base) + k := by
    unfold prgIndex
    rw [haddr, hfirst]
    simp only [hwindow]
    cases s.mapper <;> dsimp only <;> split <;> omega
  rw [peek_of_mapper (by omega), mapperCpuRead_of_prg (by omega), hidx]

/-- Variant A shows the selected bank in the low PRG window and the last one in the high window (R204). -/
theorem peek_windows_of_variantA {s : State} {m : MapperA} {k : Nat} (hm : s.mapper = .variantA m) (hk : k < 0x4000) :
    peek s (BitVec.ofNat 16 (0x8000 + k)) = Memory.read s.cart.prg (m.bank * 16384 + k) ∧
      peek s (BitVec.ofNat 16 (0xC000 + k)) = Memory.read s.cart.prg ((s.cart.n16 - 1) * 16384 + k) := by
  rw [peek_prgWindow s (.inl rfl) hk, peek_prgWindow s (.inr rfl) hk]
  simp [prgIndex, hm, Config.prgBank]

/-- The two PRG windows of variant B show 16 KB each from the two offsets (R210). -/
theorem peek_windows_of_variantB {s : State} {m : MapperB} {k : Nat} (hm : s.mapper = .variantB m) (hk : k < 0x4000) :
    peek s (BitVec.ofNat 16 (0x8000 + k)) = Memory.read s.cart.prg (m.prgOff0 + k) ∧
      peek s (BitVec.ofNat 16 (0xC000 + k)) = Memory.read s.cart.prg (m.prgOff1 + k) := by
  rw [peek_prgWindow s (.inl rfl) hk, peek_prgWindow s (.inr rfl) hk, prgIndex, prgIndex, hm]
  exact ⟨rfl, rfl⟩

theorem ppuRead_of_chr {s : State} {q : PicAddr} (h : q.toNat < 0x2000) :
    ppuRead s q = Memory.read s.cart.chr (chrIndex s q) := if_pos h

theorem ppuWrite_of_chr {s : State} {q : PicAddr} (v : Byte) (h : q.toNat < 0x2000) :
    ppuWrite s q v = s.setCart { s.cart with chr := Memory.write s.cart.chr (chrIndex s q) v } := if_pos h

/-- The two CHR windows of variant B show 4 KB each from the two offsets (R218). -/
theorem ppuRead_windows_of_variantB {s : State} {m : MapperB} {k : Nat} (hm : s.mapper = .variantB m)
    (hk : k < 0x1000) :
    ppuRead s (BitVec.ofNat 14 k) = Memory.read s.cart.chr (m.chrOff0 + k) ∧
      ppuRead s (BitVec.ofNat 14 (0x1000 + k)) = Memory.read s.cart.chr (m.chrOff1 + k) := by
  have hlow : (BitVec.ofNat 14 k).toNat = k := Nat.mod_eq_of_lt (by omega)
  have hhigh : (BitVec.ofNat 14 (0x1000 + k)).toNat = 0x1000 + k := Nat.mod_eq_of_lt (by omega)
  rw [ppuRead_of_chr (by omega), ppuRead_of_chr (by omega), chrIndex, chrIndex, hm, hlow, hhigh]
  dsimp only
  rw [if_pos (by omega), if_neg (by omega), Nat.mod_eq_of_lt hk, show (0x1000 + k) % 4096 = k by omega]
  exact ⟨rfl, rfl⟩

theorem memWrite_of_variantA {s : State} {m : MapperA} {a : Word} (v : Byte) (hm : s.mapper = .variantA m)
    (ha : 0x8000 ≤ a.toNat) :
    memWrite s a v = { s with mapper := .variantA { bank := v.toNat % s.cart.n16 } } := by
  rw [memWrite_of_mapper v (by omega), mapperCpuWrite, if_neg (by omega), mapperRegisterWrite, hm]
  rfl

theorem memWrite_of_variantB {s : State} {m : MapperB} {a : Word} (v : Byte) (hm : s.mapper = .variantB m)
    (ha : 0x8000 ≤ a.toNat) :
    memWrite s a v = { s with mapper := .variantB (serialWrite s.cart.n16 s.cart.n4 a v m) } := by
  rw [memWrite_of_mapper v (by omega), mapperCpuWrite, if_neg (by omega), mapperRegisterWrite, hm]
  rfl

/-- Settles O47: the write sets the bank alone, so the two PRG windows start at that bank and at the last one. -/
theorem mapperVariantA : Obligations.MapperVariantA := by
  unfold Obligations.MapperVariantA
  intro s b a v hm ha
  dsimp only
  rw [memWrite_of_variantA v hm ha]
  refine ⟨rfl, fun k hk => (peek_windows_of_variantA rfl hk).1, fun k hk => (peek_windows_of_variantA rfl hk).2,
    fun k hk => ?chr, rfl⟩
  case chr =>
    have haddr : (BitVec.ofNat 14 k).toNat = k := Nat.mod_eq_of_lt (by omega)
    have hidx : chrIndex s (BitVec.ofNat 14 k) = k := by rw [chrIndex, hm]; exact haddr
    rw [ppuRead_of_chr (by omega), ppuWrite_of_chr v (by omega), hidx]
    exact ⟨rfl, rfl⟩

/-! ## The serial port of variant B -/

/-- A bit enters at the top of the port and the older ones move down (R211). -/
theorem shiftIn_toNat (v : Byte) (shift : BitVec 5) :
    (shiftIn v shift).toNat = shift.toNat / 2 + v.toNat % 2 * 16 := by
  have hbit : v &&& 1 = BitVec.ofNat 8 (v.toNat % 2) :=
    BitVec.eq_of_toNat_eq (by simp [Nat.and_one_is_mod]; omega)
  have hport : ∀ b < 2, ∀ c : BitVec 5,
      (c >>> 1 ||| (BitVec.ofNat 8 b).setWidth 5 <<< 4).toNat = c.toNat / 2 + b * 16 := by decide
  rw [shiftIn, hbit]
  exact hport _ (Nat.mod_lt _ (by decide)) shift

/-- A write with bit 7 set empties the port and sets the two PRG mode bits (R211, R215). -/
theorem serialWrite_of_reset {v : Byte} (h : 128 ≤ v.toNat) (n16 n4 : Nat) (a : Word) (m : MapperB) :
    serialWrite n16 n4 a v m =
      recompute n16 n4 { m with shift := 0, count := 0, control := m.control ||| 0x0C } := by
  rw [serialWrite, getLsbD_seven, if_pos (decide_eq_true h)]

/-- One of the first four bits is collected; the address does not matter (R211). -/
theorem serialWrite_of_early {v : Byte} {m : MapperB} (hv : v.toNat < 128) (hcount : m.count < 4) (n16 n4 : Nat)
    (a : Word) :
    serialWrite n16 n4 a v m = { m with shift := shiftIn v m.shift, count := m.count + 1 } := by
  rw [serialWrite, getLsbD_seven, if_neg (by simpa using hv), if_neg (by omega)]

/-- The fifth bit commits the value and empties the port (R211, R212). -/
theorem serialWrite_of_fifth {v : Byte} {m : MapperB} (hv : v.toNat < 128) (hcount : m.count = 4) (n16 n4 : Nat)
    (a : Word) :
    serialWrite n16 n4 a v m = commit n16 n4 a (shiftIn v m.shift) { m with shift := 0, count := 0 } := by
  rw [serialWrite, getLsbD_seven, if_neg (by simpa using hv), if_pos (by omega)]

/-- Address bits 14 and 13 as the quarter of 0x8000 to 0xFFFF they name (R212). -/
theorem commit_eq (n16 n4 : Nat) {a : Word} (ha : 0x8000 ≤ a.toNat) (val : BitVec 5) (m : MapperB) :
    commit n16 n4 a val m =
      recompute n16 n4
        (if a.toNat < 0xA000 then { m with control := val }
        else if a.toNat < 0xC000 then { m with chr0 := val }
        else if a.toNat < 0xE000 then { m with chr1 := val }
        else { m with prg := val.setWidth 4 }) := by
  have hsel : ((a >>> 13).setWidth 2).toNat = a.toNat / 8192 - 4 := by
    rw [BitVec.toNat_setWidth, BitVec.toNat_ushiftRight, Nat.shiftRight_eq_div_pow]
    omega
  rw [commit, hsel]
  congr 1
  split_ifs with h1 h2 h3
  · rw [show a.toNat / 8192 - 4 = 0 by omega]; rfl
  · rw [show a.toNat / 8192 - 4 = 1 by omega]; rfl
  · rw [show a.toNat / 8192 - 4 = 2 by omega]; rfl
  · rw [show a.toNat / 8192 - 4 = 3 by omega]; rfl

/-- What the port holds after five bits: the first in bit 0, nothing of what it held before (R211, R220). -/
theorem shiftIn_five_toNat (v1 v2 v3 v4 v5 : Byte) (shift : BitVec 5) :
    (shiftIn v5 (shiftIn v4 (shiftIn v3 (shiftIn v2 (shiftIn v1 shift))))).toNat =
      v1.toNat % 2 + v2.toNat % 2 * 2 + v3.toNat % 2 * 4 + v4.toNat % 2 * 8 + v5.toNat % 2 * 16 := by
  simp only [shiftIn_toNat]
  omega

/-- Five writes from an empty port: four are collected, the fifth commits (R211). -/
theorem serialWrite_five {m : MapperB} {v1 v2 v3 v4 v5 : Byte} (hcount : m.count = 0) (hv1 : v1.toNat < 128)
    (hv2 : v2.toNat < 128) (hv3 : v3.toNat < 128) (hv4 : v4.toNat < 128) (hv5 : v5.toNat < 128) (n16 n4 : Nat)
    (a1 a2 a3 a4 a5 : Word) :
    serialWrite n16 n4 a5 v5 (serialWrite n16 n4 a4 v4 (serialWrite n16 n4 a3 v3
      (serialWrite n16 n4 a2 v2 (serialWrite n16 n4 a1 v1 m)))) =
    commit n16 n4 a5 (shiftIn v5 (shiftIn v4 (shiftIn v3 (shiftIn v2 (shiftIn v1 m.shift)))))
      { m with shift := 0, count := 0 } := by
  rw [serialWrite_of_early hv1 (by omega), serialWrite_of_early hv2 (by dsimp only; omega),
    serialWrite_of_early hv3 (by dsimp only; omega), serialWrite_of_early hv4 (by dsimp only; omega),
    serialWrite_of_fifth hv5 (by dsimp only; omega)]

/-- Setting control bits 3 and 2 selects PRG mode 3 and keeps bits 4, 1 and 0 (R215). -/
theorem or_twelve_toNat (control : BitVec 5) :
    (control ||| 0x0C).toNat = control.toNat / 16 * 16 + 12 + control.toNat % 4 := by
  revert control; decide

/-- Settles O48: each write is one `serialWrite`, and five of them commit what `shiftIn` has collected. -/
theorem serialPort : Obligations.SerialPort := by
  unfold Obligations.SerialPort
  intro s m a1 a2 a3 a4 a5 v1 v2 v3 v4 v5 hm ha1 ha2 ha3 ha4 ha5
  refine ⟨fun hreset => ?reset, fun hcount hv1 hv2 hv3 hv4 hv5 => ?five⟩
  case reset =>
    refine ⟨m.control ||| 0x0C, or_twelve_toNat m.control, ?_⟩
    rw [memWrite_of_variantB v1 hm ha1, serialWrite_of_reset hreset]
  case five =>
    refine ⟨_, shiftIn_five_toNat v1 v2 v3 v4 v5 m.shift, ?_⟩
    dsimp only
    rw [memWrite_of_variantB v1 hm ha1, memWrite_of_variantB v2 rfl ha2, memWrite_of_variantB v3 rfl ha3,
      memWrite_of_variantB v4 rfl ha4, memWrite_of_variantB v5 rfl ha5]
    dsimp only
    rw [serialWrite_five hcount hv1 hv2 hv3 hv4 hv5, commit_eq _ _ ha5]

/-! ## The windows of variant B -/

theorem prgMode_toNat (control : BitVec 5) : ((control >>> 2).setWidth 2).toNat = control.toNat / 4 % 4 := by
  rw [BitVec.toNat_setWidth, BitVec.toNat_ushiftRight, Nat.shiftRight_eq_div_pow]

/-- PRG modes 0 and 1: a 32 KB bank, the low bit of the bank number ignored (R216). -/
theorem prgWindows_of_mode_lt_two (n16 : Nat) {m : MapperB} (h : m.control.toNat / 4 % 4 < 2) :
    prgWindows n16 m = (prgOffset n16 (m.prg.toNat / 2 * 2), prgOffset n16 (m.prg.toNat / 2 * 2 + 1)) := by
  have heven : ∀ b : BitVec 4, (b &&& 0xE).toNat = b.toNat / 2 * 2 := by decide
  have hodd : ∀ b : BitVec 4, (b ||| 1).toNat = b.toNat / 2 * 2 + 1 := by decide
  rw [prgWindows, prgMode_toNat, heven, hodd]
  split
  · omega
  · omega
  · rfl

/-- PRG mode 2: the first bank stays in the low window (R216). -/
theorem prgWindows_of_mode_two (n16 : Nat) {m : MapperB} (h : m.control.toNat / 4 % 4 = 2) :
    prgWindows n16 m = (prgOffset n16 0, prgOffset n16 m.prg.toNat) := by
  rw [prgWindows, prgMode_toNat, h]; rfl

/-- PRG mode 3: the last bank stays in the high window (R216). -/
theorem prgWindows_of_mode_three (n16 : Nat) {m : MapperB} (h : m.control.toNat / 4 % 4 = 3) :
    prgWindows n16 m = (prgOffset n16 m.prg.toNat, prgOffset n16 (n16 - 1)) := by
  rw [prgWindows, prgMode_toNat, h]; rfl

theorem getLsbD_four (control : BitVec 5) : control.getLsbD 4 = decide (16 ≤ control.toNat) :=
  BitVec.msb_eq_decide control

/-- CHR mode 0: an 8 KB bank, the low bit of the bank number ignored (R216). -/
theorem chrWindows_of_mode_zero (n4 : Nat) {m : MapperB} (h : m.control.toNat < 16) :
    chrWindows n4 m = (chrOffset n4 (m.chr0.toNat / 2 * 2), chrOffset n4 (m.chr0.toNat / 2 * 2 + 1)) := by
  have heven : ∀ b : BitVec 5, (b &&& 0x1E).toNat = b.toNat / 2 * 2 := by decide
  have hodd : ∀ b : BitVec 5, (b ||| 1).toNat = b.toNat / 2 * 2 + 1 := by decide
  rw [chrWindows, getLsbD_four, if_neg (by simpa using h), heven, hodd]

/-- CHR mode 1: two 4 KB banks, each by its own register (R216). -/
theorem chrWindows_of_mode_one (n4 : Nat) {m : MapperB} (h : 16 ≤ m.control.toNat) :
    chrWindows n4 m = (chrOffset n4 m.chr0.toNat, chrOffset n4 m.chr1.toNat) := by
  rw [chrWindows, getLsbD_four, if_pos (decide_eq_true h)]

/-- A cartridge with the given bank counts and storages of zeros: the windows' bounds depend on the counts alone. -/
def zeroCartridge (n16 n4 : Nat) : Cartridge :=
  { n16 := n16, n4 := n4, mirror0 := .horizontal, prg := [], sram := [], chr := [] }

theorem zeroCartridge_ok {n16 n4 : Nat} (h16 : 1 ≤ n16) (h4 : 2 ≤ n4) : (zeroCartridge n16 n4).Ok :=
  ⟨h16, h4, ⟨rfl, rfl⟩, ⟨rfl, rfl⟩, ⟨rfl, rfl⟩⟩

/-- Every window lies inside its storage, whatever the port has collected (R216). -/
theorem recompute_inside {n16 n4 : Nat} (h16 : 1 ≤ n16) (h4 : 2 ≤ n4) (m : MapperB) :
    (recompute n16 n4 m).prgOff0 + 16384 ≤ n16 * 16384 ∧ (recompute n16 n4 m).prgOff1 + 16384 ≤ n16 * 16384 ∧
      (recompute n16 n4 m).chrOff0 + 4096 ≤ n4 * 4096 ∧ (recompute n16 n4 m).chrOff1 + 4096 ≤ n4 * 4096 := by
  obtain ⟨-, hprg0, hprg1, hchr0, hchr1⟩ :=
    recompute_ok (zeroCartridge_ok h16 h4) { m with count := 0 } (Nat.zero_le _)
  exact ⟨hprg0, hprg1, hchr0, hchr1⟩

/-- The four mirroring modes by control bits 1 and 0 (R213). -/
theorem controlMirror_eq (control : BitVec 5) :
    controlMirror control =
      match control.toNat % 4 with
      | 0 => .single0
      | 1 => .single1
      | 2 => .vertical
      | _ => .horizontal := rfl

/-- Settles O49: the mode lemmas give the offsets, and the window lemmas what a read through them shows. -/
theorem bankWindows : Obligations.BankWindows := by
  unfold Obligations.BankWindows
  intro n16 n4 m h16 h4
  refine ⟨fun h => ?prg32, fun h => ?prgLow, fun h => ?prgHigh, fun h => ?chr8, fun h => ?chr4,
    recompute_inside h16 h4 m, controlMirror_eq m.control, fun _ _ hm hk => peek_windows_of_variantB hm hk,
    fun _ _ hm hk => ppuRead_windows_of_variantB hm hk⟩
  case prg32 => exact Prod.mk.inj (prgWindows_of_mode_lt_two n16 h)
  case prgLow =>
    have hw := prgWindows_of_mode_two n16 h
    rw [prgOffset, Nat.zero_mod, Nat.zero_mul] at hw
    exact Prod.mk.inj hw
  case prgHigh =>
    have hw := prgWindows_of_mode_three n16 h
    rw [prgOffset, prgOffset, Nat.mod_eq_of_lt (show n16 - 1 < n16 by omega)] at hw
    exact Prod.mk.inj hw
  case chr8 => exact Prod.mk.inj (chrWindows_of_mode_zero n4 h)
  case chr4 => exact Prod.mk.inj (chrWindows_of_mode_one n4 h)

end Sys2Proof.Machine
end

section
/-!
PROOFS, the family of 47_picture_registers.md (O50, O51). First what the bit operations of the registers are as numbers,
then what a write and what a read of each register is, one lemma per register.
-/

namespace Sys2Proof.Machine

/-! ## Registers by address -/

/-- The base address of each picture register; its mirrors are in O7 (R47, R230). -/
def PicReg.base : PicReg → Word
  | .control => 0x2000
  | .mask => 0x2001
  | .status => 0x2002
  | .oamAddr => 0x2003
  | .oamData => 0x2004
  | .scroll => 0x2005
  | .address => 0x2006
  | .data => 0x2007

theorem picReg_base (r : PicReg) : picReg r.base = r := by cases r <;> rfl

theorem base_bounds (r : PicReg) : 0x2000 ≤ r.base.toNat ∧ r.base.toNat < 0x4000 := by cases r <;> decide

theorem memRead_base (s : State) (r : PicReg) : memRead s r.base = ppuRegRead s r := by
  rw [memRead_of_picture (base_bounds r).1 (base_bounds r).2, picReg_base]

theorem memWrite_base (s : State) (r : PicReg) (b : Byte) : memWrite s r.base b = ppuRegWrite s r b := by
  rw [memWrite_of_picture b (base_bounds r).1 (base_bounds r).2, picReg_base]

/-! ## Bit fields as numbers -/

/-- The `k` bits of `t` from bit `p` on are masked out and the number `f` put in their place (R234, R240, R241). -/
theorem and_mask_or_field_toNat {t mask field : ScrollAddr} (p k : Nat) {f : Nat} (hf : f < 2 ^ k)
    (hmask : ∀ i < 15, mask.getLsbD i = decide (i < p ∨ p + k ≤ i)) (hfield : field.toNat = f * 2 ^ p) :
    (t &&& mask ||| field).toNat = t.toNat / 2 ^ (p + k) * 2 ^ (p + k) + f * 2 ^ p + t.toNat % 2 ^ p := by
  have hparts : t.toNat / 2 ^ (p + k) * 2 ^ (p + k) + f * 2 ^ p + t.toNat % 2 ^ p =
      2 ^ p * (2 ^ k * (t.toNat / 2 ^ (p + k)) + f) + t.toNat % 2 ^ p := by ring
  have hlow : t.toNat % 2 ^ p < 2 ^ p := Nat.mod_lt _ (Nat.two_pow_pos p)
  rw [hparts]
  refine Nat.eq_of_testBit_eq fun i => ?_
  have hkept : (t &&& mask).getLsbD i = (decide (i < p ∨ p + k ≤ i) && t.toNat.testBit i) := by
    rw [BitVec.getLsbD_and, Bool.and_comm]
    rcases Nat.lt_or_ge i 15 with hi | hi
    · rw [hmask i hi]; rfl
    · rw [BitVec.getLsbD_of_ge t i hi, show t.toNat.testBit i = false from BitVec.getLsbD_of_ge t i hi,
        Bool.and_false, Bool.and_false]
  rw [BitVec.toNat_or, Nat.testBit_or, hfield, Nat.testBit_mul_two_pow, Nat.testBit_two_pow_mul_add _ hlow,
    Nat.testBit_two_pow_mul_add _ hf, Nat.testBit_mod_two_pow, Nat.testBit_div_two_pow,
    show (t &&& mask).toNat.testBit i = _ from hkept]
  rcases Nat.lt_or_ge i p with hbelow | hp
  · simp [hbelow, Nat.not_le.mpr hbelow]
  rcases Nat.lt_or_ge i (p + k) with hinside | habove
  · simp [Nat.not_lt.mpr hp, hp, Nat.not_le.mpr hinside, show i - p < k by omega]
  · have hzero : f.testBit (i - p) = false :=
      Nat.testBit_lt_two_pow (hf.trans_le (Nat.pow_le_pow_right (by decide) (by omega)))
    simp [Nat.not_lt.mpr hp, hp, habove, hzero, show ¬ i - p < k by omega, show i - p - k + (p + k) = i by omega]

/-- A byte moved up in a 15-bit register, where it fits. -/
theorem setWidth_shiftLeft_toNat {c : Byte} {m : Nat} (h : c.toNat * 2 ^ m < 2 ^ 15) :
    (c.setWidth 15 <<< m).toNat = c.toNat * 2 ^ m := by
  rw [BitVec.toNat_shiftLeft, BitVec.toNat_setWidth_of_le (by decide), Nat.shiftLeft_eq, Nat.mod_eq_of_lt h]

theorem and_lowBits_toNat (b : Byte) {k : Nat} (h : k ≤ 8) :
    (b &&& BitVec.ofNat 8 (2 ^ k - 1)).toNat = b.toNat % 2 ^ k := by
  have hle : 2 ^ k ≤ 2 ^ 8 := Nat.pow_le_pow_right (by decide) h
  have hpos : 0 < 2 ^ k := Nat.two_pow_pos k
  rw [BitVec.toNat_and, BitVec.toNat_ofNat, Nat.mod_eq_of_lt (by omega), Nat.and_two_pow_sub_one_eq_mod]

/-- The coarse part of a scroll byte keeps its place: its low three bits are cleared (R240). -/
theorem and_coarse_toNat (b : Byte) : (b &&& 0xF8).toNat = b.toNat / 8 * 8 := by
  have hb := b.isLt
  rw [show (0xF8 : Byte) = BitVec.allOnes 8 <<< 3 from rfl, ← BitVec.shiftLeft_ushiftRight, BitVec.toNat_shiftLeft,
    BitVec.toNat_ushiftRight, Nat.shiftLeft_eq, Nat.shiftRight_eq_div_pow]
  omega

theorem dataAddr_toNat (p : Ppu) : p.dataAddr.toNat = p.v.toNat % 16384 := BitVec.toNat_setWidth ..

theorem advanceV_toNat (p : Ppu) :
    p.advanceV.toNat = (p.v.toNat + if p.ctrl.getLsbD 2 then 32 else 1) % 32768 := by
  rw [Ppu.advanceV, BitVec.toNat_add]
  split <;> rfl

/-- A bit put above every bit of the byte adds its weight. -/
theorem or_bitByte_above_toNat {v : Byte} {n : Nat} (hn : n < 8) (h : v.toNat < 2 ^ n) (b : Bool) :
    (v ||| bitByte b n).toNat = v.toNat + 2 ^ n * bitNat b := by
  have hpow : 2 ^ (n + 1) ≤ 2 ^ 8 := Nat.pow_le_pow_right (by decide) hn
  have hbit : 2 ^ n * bitNat b ≤ 2 ^ n * 1 := Nat.mul_le_mul_left _ (bitNat_le_one b)
  rw [or_bitByte_toNat (Nat.testBit_lt_two_pow h) b]
  exact Nat.mod_eq_of_lt (by omega)

/-- The three flags stand above the latch's low five bits (R233, R236). -/
theorem status_toNat (p : Ppu) :
    p.status.toNat =
      p.regLatch.toNat % 32 + 32 * bitNat p.sprOverflow + 64 * bitNat p.spr0Hit + 128 * bitNat p.nmiOccurred := by
  have hlatch : (p.regLatch &&& 0x1F).toNat = p.regLatch.toNat % 32 := and_lowBits_toNat p.regLatch (k := 5) (by decide)
  have hoverflow := or_bitByte_above_toNat (n := 5) (by decide)
    (show (p.regLatch &&& 0x1F).toNat < _ by omega) p.sprOverflow
  have hle5 := bitNat_le_one p.sprOverflow
  have hhit := or_bitByte_above_toNat (n := 6) (by decide)
    (show (p.regLatch &&& 0x1F ||| bitByte p.sprOverflow 5).toNat < _ by omega) p.spr0Hit
  have hle6 := bitNat_le_one p.spr0Hit
  rw [Ppu.status, or_bitByte_above_toNat (by decide) (by omega), hhit, hoverflow, hlatch]
  rfl

/-! ## Writes -/

/-- The edge detector in the statement's form (R262). -/
theorem nmiChange_eq (p : Ppu) :
    p.nmiChange = { p with
      nmiDelay :=
        if (p.ctrl.getLsbD 7 && p.nmiOccurred) = true ∧ p.nmiPrevious = false then Config.nmiDelay else p.nmiDelay
      nmiPrevious := p.ctrl.getLsbD 7 && p.nmiOccurred } := by
  simp [Ppu.nmiChange]

/-- Control: the nametable bits go to bits 11:10 of `t`, and the NMI output is evaluated with the new bit 7 (R234). -/
theorem memWrite_control (s : State) (b : Byte) :
    ∃ t0 : ScrollAddr,
      t0.toNat = s.ppu.t.toNat / 4096 * 4096 + b.toNat % 4 * 1024 + s.ppu.t.toNat % 1024 ∧
      memWrite s 0x2000 b = { s with
        ppu := { s.ppu with
          regLatch := b, ctrl := b, t := t0, nmiPrevious := decide (128 ≤ b.toNat) && s.ppu.nmiOccurred,
          nmiDelay :=
            if (decide (128 ≤ b.toNat) && s.ppu.nmiOccurred) = true ∧ s.ppu.nmiPrevious = false then Config.nmiDelay
            else s.ppu.nmiDelay } } := by
  have hlow : (b &&& 3).toNat = b.toNat % 4 := and_lowBits_toNat b (k := 2) (by decide)
  have hfield : ((b &&& 3).setWidth 15 <<< 10).toNat = b.toNat % 4 * 2 ^ 10 := by
    rw [setWidth_shiftLeft_toNat (by omega), hlow]
  refine ⟨_, and_mask_or_field_toNat (mask := 0x73FF) 10 2 (by omega) (by decide) hfield, ?_⟩
  rw [← getLsbD_seven]
  refine (memWrite_base s .control b).trans (congrArg s.setPpu ?_)
  rw [Ppu.writeControl, nmiChange_eq]
  rfl

theorem memWrite_oamData (s : State) (b : Byte) :
    ∃ o : Byte, o.toNat = (s.ppu.oamAddr.toNat + 1) % 256 ∧
      memWrite s 0x2004 b = { s with
        ppu := { s.ppu with
          regLatch := b, oam := Memory.write s.ppu.oam s.ppu.oamAddr.toNat b, oamAddr := o } } :=
  ⟨s.ppu.oamAddr + 1, BitVec.toNat_add .., memWrite_base s .oamData b⟩

/-- Scroll, first write: coarse X into `t`, fine X into `x` (R240). -/
theorem memWrite_scroll_first (s : State) (b : Byte) :
    ∃ (t5 : ScrollAddr) (x5 : BitVec 3),
      t5.toNat = s.ppu.t.toNat / 32 * 32 + b.toNat / 8 ∧ x5.toNat = b.toNat % 8 ∧ (s.ppu.w = false →
        memWrite s 0x2005 b = { s with ppu := { s.ppu with regLatch := b, t := t5, x := x5, w := true } }) := by
  have hb := b.isLt
  have hfield : ((b >>> 3).setWidth 15).toNat = b.toNat / 8 * 2 ^ 0 := by
    rw [BitVec.toNat_setWidth_of_le (by decide), BitVec.toNat_ushiftRight, Nat.shiftRight_eq_div_pow, pow_zero, mul_one]
  have ht := and_mask_or_field_toNat (t := s.ppu.t) (mask := 0x7FE0) 0 5 (by omega) (by decide) hfield
  have hlow : (b &&& 7).toNat = b.toNat % 8 := and_lowBits_toNat b (k := 3) (by decide)
  refine ⟨_, (b &&& 7).setWidth 3, ht.trans (by omega), ?_, fun hw => ?_⟩
  · rw [BitVec.toNat_setWidth, hlow, Nat.mod_mod]
  · refine (memWrite_base s .scroll b).trans (congrArg s.setPpu (if_neg ?_))
    exact (Bool.not_eq_true _).mpr hw

/-- What a second scroll write puts into `t`: two fields, one after the other (R240). -/
theorem scrollY_toNat (t : BitVec 15) (b : Byte) :
    ((t &&& 0x0FFF ||| (b &&& 7).setWidth 15 <<< 12) &&& 0x7C1F ||| (b &&& 0xF8).setWidth 15 <<< 2).toNat =
      b.toNat % 8 * 4096 + t.toNat / 1024 % 4 * 1024 + b.toNat / 8 * 32 + t.toNat % 32 := by
  have hb := b.isLt
  have ht := t.isLt
  have hlow : (b &&& 7).toNat = b.toNat % 8 := and_lowBits_toNat b (k := 3) (by decide)
  have hfine : ((b &&& 7).setWidth 15 <<< 12).toNat = b.toNat % 8 * 2 ^ 12 := by
    rw [setWidth_shiftLeft_toNat (by omega), hlow]
  have hcoarse : ((b &&& 0xF8).setWidth 15 <<< 2).toNat = b.toNat / 8 * 2 ^ 5 := by
    rw [setWidth_shiftLeft_toNat (by rw [and_coarse_toNat]; omega), and_coarse_toNat]; omega
  rw [and_mask_or_field_toNat 5 5 (by omega) (by decide) hcoarse,
    and_mask_or_field_toNat 12 3 (by omega) (by decide) hfine]
  omega

/-- Scroll, second write: fine Y into bits 14:12 of `t`, coarse Y into bits 9:5 (R240). -/
theorem memWrite_scroll_second (s : State) (b : Byte) :
    ∃ t5 : ScrollAddr,
      t5.toNat = b.toNat % 8 * 4096 + s.ppu.t.toNat / 1024 % 4 * 1024 + b.toNat / 8 * 32 + s.ppu.t.toNat % 32 ∧
      (s.ppu.w = true →
        memWrite s 0x2005 b = { s with ppu := { s.ppu with regLatch := b, t := t5, w := false } }) :=
  ⟨_, scrollY_toNat s.ppu.t b, fun hw => (memWrite_base s .scroll b).trans (congrArg s.setPpu (if_pos hw))⟩

/-- Address, first write: bits 13:8 of `t`, and bit 14 cleared (R241). -/
theorem memWrite_address_first (s : State) (b : Byte) :
    ∃ t6 : ScrollAddr, t6.toNat = b.toNat % 64 * 256 + s.ppu.t.toNat % 256 ∧ (s.ppu.w = false →
      memWrite s 0x2006 b = { s with ppu := { s.ppu with regLatch := b, t := t6, w := true } }) := by
  have hlow : (b &&& 0x3F).toNat = b.toNat % 64 := and_lowBits_toNat b (k := 6) (by decide)
  have hfield : ((b &&& 0x3F).setWidth 15 <<< 8).toNat = b.toNat % 64 * 2 ^ 8 := by
    rw [setWidth_shiftLeft_toNat (by omega), hlow]
  have ht := s.ppu.t.isLt
  have ht6 := and_mask_or_field_toNat (t := s.ppu.t) (mask := 0x00FF) 8 7 (by omega) (by decide) hfield
  exact ⟨_, ht6.trans (by omega), fun hw =>
    (memWrite_base s .address b).trans (congrArg s.setPpu (if_neg ((Bool.not_eq_true _).mpr hw)))⟩

/-- Address, second write: the low byte of `t`, which then goes to `v` (R241). -/
theorem memWrite_address_second (s : State) (b : Byte) :
    ∃ t6 : ScrollAddr, t6.toNat = s.ppu.t.toNat / 256 * 256 + b.toNat ∧ (s.ppu.w = true →
      memWrite s 0x2006 b = { s with ppu := { s.ppu with regLatch := b, t := t6, v := t6, w := false } }) := by
  have hfield : (b.setWidth 15).toNat = b.toNat * 2 ^ 0 := by
    rw [BitVec.toNat_setWidth_of_le (by decide), pow_zero, mul_one]
  have ht6 := and_mask_or_field_toNat (t := s.ppu.t) (mask := 0x7F00) 0 8 b.isLt (by decide) hfield
  exact ⟨_, ht6.trans (by omega), fun hw => (memWrite_base s .address b).trans (congrArg s.setPpu (if_pos hw))⟩

/-- A picture-space write neither reads nor changes the Picture Engine's own state (R54). -/
theorem ppuWrite_setPpu (s : State) (p : Ppu) (q : PicAddr) (b : Byte) :
    ppuWrite (s.setPpu p) q b = (ppuWrite s q b).setPpu p := by
  unfold ppuWrite
  split_ifs <;> rfl

/-- Data: a store in picture space, and `v` steps (R243). -/
theorem memWrite_data (s : State) (b : Byte) :
    memWrite s 0x2007 b =
      { ppuWrite s s.ppu.dataAddr b with ppu := { s.ppu with regLatch := b, v := s.ppu.advanceV } } := by
  refine (memWrite_base s .data b).trans ?_
  simp only [ppuRegWrite, State.latch, ppuWrite_setPpu]
  rfl

/-- Settles O50: each register's write lemma gives its clause. -/
theorem pictureRegisterWrites : Obligations.PictureRegisterWrites := by
  unfold Obligations.PictureRegisterWrites
  intro s b
  obtain ⟨t0, hcontrol⟩ := memWrite_control s b
  obtain ⟨o4, hoam⟩ := memWrite_oamData s b
  obtain ⟨t5, x5, hscroll⟩ := memWrite_scroll_first s b
  obtain ⟨t5', hscroll'⟩ := memWrite_scroll_second s b
  obtain ⟨t6, haddress⟩ := memWrite_address_first s b
  obtain ⟨t6', haddress'⟩ := memWrite_address_second s b
  exact ⟨t0, t5, t5', t6, t6', s.ppu.advanceV, x5, o4, s.ppu.dataAddr, hcontrol, memWrite_base s .mask b,
    memWrite_base s .status b, memWrite_base s .oamAddr b, hoam, hscroll, hscroll', haddress, haddress',
    dataAddr_toNat s.ppu, advanceV_toNat s.ppu, memWrite_data s b⟩

/-! ## Reads -/

/-- The five registers with no read answer 0 (R244). -/
theorem memRead_writeOnly (s : State) {a : Word}
    (h : a = 0x2000 ∨ a = 0x2001 ∨ a = 0x2003 ∨ a = 0x2005 ∨ a = 0x2006) : memRead s a = (0, s) := by
  rcases h with rfl | rfl | rfl | rfl | rfl
  · exact memRead_base s .control
  · exact memRead_base s .mask
  · exact memRead_base s .oamAddr
  · exact memRead_base s .scroll
  · exact memRead_base s .address

/-- With the latch cleared the NMI output is low: no edge, so a running delay goes on (R236, R262). -/
theorem afterStatusRead_eq (p : Ppu) :
    p.afterStatusRead = { p with nmiOccurred := false, nmiPrevious := false, w := false } := by
  simp [Ppu.afterStatusRead, Ppu.nmiChange]

theorem memRead_status (s : State) :
    memRead s 0x2002 =
      (s.ppu.status, { s with ppu := { s.ppu with nmiOccurred := false, nmiPrevious := false, w := false } }) := by
  rw [← afterStatusRead_eq]
  exact memRead_base s .status

/-- The data port below the palette answers the buffer, which takes the byte addressed (R242). -/
theorem memRead_data_of_lt {s : State} (h : s.ppu.dataAddr.toNat < 0x3F00) :
    memRead s 0x2007 =
      (s.ppu.readBuffer,
        { s with ppu := { s.ppu with readBuffer := ppuRead s s.ppu.dataAddr, v := s.ppu.advanceV } }) := by
  refine (memRead_base s .data).trans ?_
  rw [ppuRegRead, dataPortValue, dataPortBuffer, if_pos h, if_pos h]
  rfl

/-- In the palette it answers the byte addressed, and the buffer takes the nametable byte under it (R242). -/
theorem memRead_data_of_palette {s : State} (h : 0x3F00 ≤ s.ppu.dataAddr.toNat) :
    memRead s 0x2007 =
      (ppuRead s s.ppu.dataAddr,
        { s with
          ppu := { s.ppu with readBuffer := ppuRead s (s.ppu.dataAddr - 0x1000), v := s.ppu.advanceV } }) := by
  refine (memRead_base s .data).trans ?_
  rw [ppuRegRead, dataPortValue, dataPortBuffer, if_neg (by omega), if_neg (by omega)]
  rfl

/-- Settles O51: each register's read lemma gives its clause. -/
theorem pictureRegisterReads : Obligations.PictureRegisterReads := by
  unfold Obligations.PictureRegisterReads
  intro s
  refine ⟨s.ppu.dataAddr, s.ppu.dataAddr - 0x1000, s.ppu.advanceV, fun _ => memRead_writeOnly s, ⟨?value, ?left⟩,
    memRead_base s .oamData, dataAddr_toNat s.ppu, advanceV_toNat s.ppu, memRead_data_of_lt,
    fun hpal => ⟨?under, memRead_data_of_palette hpal⟩⟩
  case value => rw [peek, memRead_status, status_toNat]
  case left => rw [afterRead, memRead_status]
  case under => exact BitVec.toNat_sub_of_le (BitVec.le_def.mpr ((by decide : 0x1000 ≤ 0x3F00).trans hpal))

end Sys2Proof.Machine
end

section
/-!
PROOFS, the family of 48_picture_pipeline.md (O52 to O58). First one dot in its stages and what each stage sees, then the
beam, the vertical blank and the NMI, the length of a frame, the scroll address, the background fetch, the sprites, and last
the pixel.
-/

namespace Sys2Proof.Machine

/-! ## One dot in its stages -/

/-- The state in which a dot has arrived: the delay has ticked and the counters have moved (R261 parts 1 and 2). -/
def State.arrive (s : State) : State := (nmiDelayTick s).setPpu (nmiDelayTick s).ppu.advanceDot

theorem ppuStep_eq (s : State) :
    ppuStep s = (renderDot s.arrive).setPpu (renderDot s.arrive).ppu.vblankDot := rfl

/-- Arriving moves the counters and the delay only. -/
theorem arrive_ppu (s : State) :
    s.arrive.ppu = { s.ppu with
      dot := (ppuStep s).ppu.dot, scanline := (ppuStep s).ppu.scanline, frame := (ppuStep s).ppu.frame
      nmiDelay := s.ppu.nmiDelay - 1 } := by
  obtain ⟨n, slot, htick, rfl, -⟩ := nmiDelayTick_eq s
  obtain ⟨hdot, hline, hframe, -⟩ := ppuStep_counters s
  rw [State.arrive, htick, setPpu_ppu, setSlot_ppu, setPpu_ppu, advanceDot_nmiDelay, advanceDot_eq, hdot, hline, hframe]

theorem arrive_outside (s : State) :
    s.arrive.bus = s.bus ∧ s.arrive.cart = s.cart ∧ s.arrive.mapper = s.mapper := by
  obtain ⟨n, slot, htick, -, -⟩ := nmiDelayTick_eq s
  rw [State.arrive, htick]
  exact ⟨rfl, rfl, rfl⟩

/-- What a picture-space read answers depends on the Bus memories, the cartridge and the mapper only (R53). -/
theorem ppuRead_congr {s t : State} (hbus : t.bus = s.bus) (hcart : t.cart = s.cart) (hmapper : t.mapper = s.mapper)
    (a : PicAddr) : ppuRead t a = ppuRead s a := by
  unfold ppuRead mapperChrRead chrIndex State.mirror
  rw [hbus, hcart, hmapper]

theorem ppuRead_arrive (s : State) (a : PicAddr) : ppuRead s.arrive a = ppuRead s a := by
  obtain ⟨hbus, hcart, hmapper⟩ := arrive_outside s
  exact ppuRead_congr hbus hcart hmapper a

/-- `p` with what the pixel's stage may move (R288) as `q` has it. -/
def Ppu.withPixel (p q : Ppu) : Ppu := { p with spr0Hit := q.spr0Hit, back := q.back }

/-- `p` with what the background's stage may move (R270) as `q` has it. -/
def Ppu.withFetch (p q : Ppu) : Ppu :=
  { p with tileData := q.tileData, ntByte := q.ntByte, atBits := q.atBits, loTile := q.loTile, hiTile := q.hiTile }

/-- `p` with the scroll address, which alone the scroll's stage moves (R275 to R278), as `q` has it. -/
def Ppu.withScroll (p q : Ppu) : Ppu := { p with v := q.v }

/-- `p` with what the sprites' stage may move (R281) as `q` has it. -/
def Ppu.withSprites (p q : Ppu) : Ppu :=
  { p with sprites := q.sprites, sprCount := q.sprCount, sprOverflow := q.sprOverflow }

theorem pixelDot_eq (s : State) : pixelDot s = s.setPpu (s.ppu.withPixel (pixelDot s).ppu) := by
  unfold pixelDot
  split <;> rfl

theorem backgroundDot_eq (s : State) : backgroundDot s = s.setPpu (s.ppu.withFetch (backgroundDot s).ppu) := by
  unfold backgroundDot fetchOperation
  split
  · split <;> rfl
  · rfl

theorem spriteDot_eq (s : State) : spriteDot s = s.setPpu (s.ppu.withSprites (spriteDot s).ppu) := by
  unfold spriteDot
  split
  · split <;> rfl
  · rfl

/-- Part 3d of a dot, whatever part 3c left in `v` (R261). -/
theorem scrollDot_v (p : Ppu) (v0 : ScrollAddr) :
    ({ p with v := v0 } : Ppu).scrollDot.v =
      let v1 := if p.fetchDot = true ∧ p.dot % 8 = 0 then incrementX v0 else v0
      let v2 := if p.dot = 256 then incrementY v1 else v1
      if p.renderLine = true then if p.dot = 257 then copyX v2 p.t else v2 else v0 := by
  have hline : ({ p with v := v0 } : Ppu).renderLine = p.renderLine := rfl
  unfold Ppu.scrollDot
  rw [hline]
  split <;> rfl

/-- Part 3c of a dot (R277). -/
theorem verticalCopy_eq (p : Ppu) :
    p.verticalCopy =
      { p with v := if p.preLine = true ∧ 280 ≤ p.dot ∧ p.dot ≤ 304 then copyY p.v p.t else p.v } := by
  unfold Ppu.verticalCopy
  split <;> rfl

theorem scroll_withScroll (p : Ppu) : p.verticalCopy.scrollDot = p.withScroll p.verticalCopy.scrollDot := by
  obtain ⟨v, hv⟩ := scroll_eq p
  rw [hv]; rfl

/-- The background does not see the pixel drawn before it. -/
theorem backgroundDot_withPixel (s : State) (q : Ppu) :
    backgroundDot (s.setPpu (s.ppu.withPixel q)) =
      (backgroundDot s).setPpu ((backgroundDot s).ppu.withPixel q) := by
  have hline : (s.ppu.withPixel q).renderLine = s.ppu.renderLine := rfl
  have hdot : (s.ppu.withPixel q).fetchDot = s.ppu.fetchDot := rfl
  unfold backgroundDot fetchOperation
  rw [setPpu_ppu, hline, hdot]
  split
  · dsimp only [setPpu_ppu, Ppu.withPixel]
    split <;> rfl
  · rfl

/-- The scroll address does not see the pixel or the fetch before it. -/
theorem scroll_withFetch (p q r : Ppu) :
    ((p.withPixel q).withFetch r).verticalCopy.scrollDot.v = p.verticalCopy.scrollDot.v := by
  rw [verticalCopy_eq, scrollDot_v, verticalCopy_eq, scrollDot_v]; rfl

/-- A row pattern depends on OAM, the control register and picture space only (R282). -/
theorem fetchSpritePattern_congr {s t : State} (hoam : t.ppu.oam = s.ppu.oam) (hctrl : t.ppu.ctrl = s.ppu.ctrl)
    (hread : ∀ a, ppuRead t a = ppuRead s a) (i row : Nat) : fetchSpritePattern t i row = fetchSpritePattern s i row := by
  have haddr : spriteFetchAddr t.ppu = spriteFetchAddr s.ppu := by
    unfold spriteFetchAddr
    rw [hctrl]
  unfold fetchSpritePattern Ppu.oamByte
  rw [haddr, hoam, show ppuRead t = ppuRead s from funext hread]

/-- The scan depends besides on the line and on what the buffer held (R281). -/
theorem scanSprites_congr {s t : State} (hoam : t.ppu.oam = s.ppu.oam) (hctrl : t.ppu.ctrl = s.ppu.ctrl)
    (hread : ∀ a, ppuRead t a = ppuRead s a) (hline : t.ppu.scanline = s.ppu.scanline)
    (hsprites : t.ppu.sprites = s.ppu.sprites) : scanSprites t = scanSprites s := by
  have hslot : evaluateSlot t = evaluateSlot s := by
    have hpattern : fetchSpritePattern t = fetchSpritePattern s :=
      funext fun i => funext fun row => fetchSpritePattern_congr hoam hctrl hread i row
    funext acc i
    unfold evaluateSlot spriteEntry spriteInRange Ppu.spriteHeight Ppu.oamByte
    rw [hpattern, hoam, hctrl, hline]
  rw [scanSprites, hslot, hsprites, scanSprites]

/-- The sprites do not see what the stages before them moved. -/
theorem spriteDot_withScroll (s : State) (q r u : Ppu) :
    spriteDot (s.setPpu (((s.ppu.withPixel q).withFetch r).withScroll u)) =
      (spriteDot s).setPpu ((((spriteDot s).ppu.withPixel q).withFetch r).withScroll u) := by
  have hline : (((s.ppu.withPixel q).withFetch r).withScroll u).visibleLine = s.ppu.visibleLine := rfl
  have hdot : (((s.ppu.withPixel q).withFetch r).withScroll u).dot = s.ppu.dot := rfl
  have hscan : scanSprites (s.setPpu (((s.ppu.withPixel q).withFetch r).withScroll u)) = scanSprites s :=
    scanSprites_congr rfl rfl (ppuRead_congr rfl rfl rfl) rfl rfl
  unfold spriteDot evaluateSprites
  rw [setPpu_ppu, hline, hdot, hscan]
  split
  · split <;> rfl
  · rfl

/-- Rendering a dot is its four stages, each from the state the dot arrived in (R261 part 3). -/
theorem renderDot_ppu {s : State} (h : s.ppu.rendering = true) :
    (renderDot s).ppu =
      (((s.ppu.withPixel (pixelDot s).ppu).withFetch (backgroundDot s).ppu).withScroll
        s.ppu.verticalCopy.scrollDot).withSprites (spriteDot s).ppu := by
  have hfetch : backgroundDot (pixelDot s) =
      s.setPpu ((s.ppu.withPixel (pixelDot s).ppu).withFetch (backgroundDot s).ppu) := by
    rw [pixelDot_eq s, backgroundDot_withPixel, backgroundDot_eq s]; rfl
  have hscroll : ((s.ppu.withPixel (pixelDot s).ppu).withFetch (backgroundDot s).ppu).verticalCopy.scrollDot =
      ((s.ppu.withPixel (pixelDot s).ppu).withFetch (backgroundDot s).ppu).withScroll s.ppu.verticalCopy.scrollDot := by
    rw [scroll_withScroll]
    exact congrArg (fun v => Ppu.withScroll _ { s.ppu with v := v }) (scroll_withFetch ..)
  have hrender : renderDot s = spriteDot (s.setPpu
      (((s.ppu.withPixel (pixelDot s).ppu).withFetch (backgroundDot s).ppu).withScroll
        s.ppu.verticalCopy.scrollDot)) := by
    rw [← hscroll]
    unfold renderDot
    rw [if_pos h]
    dsimp only
    rw [hfetch]; rfl
  rw [hrender, spriteDot_withScroll, spriteDot_eq s]; rfl

/-- Parts 4 and 5 of a dot move the framebuffers, the NMI logic and the two sprite flags only (R264, R266). -/
theorem vblankDot_eq (p : Ppu) :
    p.vblankDot = { p with
      front := p.vblankDot.front, back := p.vblankDot.back, nmiOccurred := p.vblankDot.nmiOccurred
      nmiPrevious := p.vblankDot.nmiPrevious, nmiDelay := p.vblankDot.nmiDelay, spr0Hit := p.vblankDot.spr0Hit
      sprOverflow := p.vblankDot.sprOverflow } := by
  unfold Ppu.vblankDot
  split_ifs <;> rfl

theorem vblankDot_of_start {p : Ppu} (hline : p.scanline = 241) (hdot : p.dot = 1) : p.vblankDot = p.vblankStart :=
  if_pos ⟨hline, hdot⟩

theorem vblankDot_of_end {p : Ppu} (hline : p.scanline = 261) (hdot : p.dot = 1) : p.vblankDot = p.vblankEnd := by
  simp [Ppu.vblankDot, hline, hdot]

theorem vblankDot_of_other {p : Ppu} (h : ¬(p.dot = 1 ∧ (p.scanline = 241 ∨ p.scanline = 261))) : p.vblankDot = p := by
  unfold Ppu.vblankDot
  rw [if_neg fun hs => h ⟨hs.2, .inl hs.1⟩, if_neg fun he => h ⟨he.2, .inr he.1⟩]

/-- The Picture Engine after the rendering of a dot, before the vertical blank's part. -/
def State.rendered (s : State) : Ppu := (renderDot s.arrive).ppu

theorem ppuStep_ppu (s : State) : (ppuStep s).ppu = s.rendered.vblankDot := rfl

/-- The switch is read before the dot or after it: no dot moves `mask` (R232, R261). -/
theorem arrive_rendering (s : State) : s.arrive.ppu.rendering = s.ppu.rendering := by
  rw [arrive_ppu]; rfl

theorem rendered_off {s : State} (h : s.ppu.rendering = false) : s.rendered = s.arrive.ppu := by
  rw [State.rendered, renderDot_off ((arrive_rendering s).trans h)]

theorem rendered_on {s : State} (h : s.ppu.rendering = true) :
    s.rendered =
      (((s.arrive.ppu.withPixel (pixelDot s.arrive).ppu).withFetch (backgroundDot s.arrive).ppu).withScroll
        s.arrive.ppu.verticalCopy.scrollDot).withSprites (spriteDot s.arrive).ppu :=
  renderDot_ppu ((arrive_rendering s).trans h)

/-- What rendering leaves of where the dot arrived and of what the vertical blank's part reads. -/
theorem rendered_kept (s : State) :
    s.rendered.dot = (ppuStep s).ppu.dot ∧ s.rendered.scanline = (ppuStep s).ppu.scanline ∧
    s.rendered.ctrl = s.ppu.ctrl ∧ s.rendered.front = s.ppu.front ∧ s.rendered.nmiOccurred = s.ppu.nmiOccurred ∧
    s.rendered.nmiPrevious = s.ppu.nmiPrevious ∧ s.rendered.nmiDelay = s.ppu.nmiDelay - 1 := by
  have k := renderDot_keeps s.arrive
  unfold State.rendered
  rw [k.dot, k.scanline, k.ctrl, k.front, k.nmiOccurred, k.nmiPrevious, k.nmiDelay, arrive_ppu]
  exact ⟨rfl, rfl, rfl, rfl, rfl, rfl, rfl⟩

/-! ## The beam -/

/-- The dot that is skipped comes next (R265). -/
def Ppu.SkipsNext (p : Ppu) : Prop := p.rendering = true ∧ p.frame % 2 = 1 ∧ p.scanline = 261 ∧ p.dot = 339

theorem advanceDot_within_line {p : Ppu} (hdot : p.dot < 340) (hskip : ¬p.SkipsNext) :
    p.advanceDot = { p with dot := p.dot + 1 } := by
  exact (if_neg hskip).trans (if_neg (by omega))

theorem advanceDot_line_end {p : Ppu} (hdot : p.dot = 340) (hline : p.scanline < 261) :
    p.advanceDot = { p with dot := 0, scanline := p.scanline + 1 } := by
  have hskip : ¬p.SkipsNext := fun ⟨_, _, _, hd⟩ => by omega
  exact (if_neg hskip).trans ((if_pos (by omega)).trans (if_neg (by omega)))

theorem advanceDot_frame_end {p : Ppu} (h : (p.dot = 340 ∧ p.scanline = 261) ∨ p.SkipsNext) :
    p.advanceDot = { p with dot := 0, scanline := 0, frame := p.frame + 1 } := by
  by_cases hskip : p.SkipsNext
  · exact if_pos hskip
  · obtain ⟨hdot, hline⟩ := h.resolve_right hskip
    exact (if_neg hskip).trans ((if_pos (by omega)).trans (if_pos (by omega)))

/-- Where the next dot arrives. -/
theorem ppuStep_beam (s : State) :
    (ppuStep s).ppu.dot = s.ppu.advanceDot.dot ∧ (ppuStep s).ppu.scanline = s.ppu.advanceDot.scanline ∧
    (ppuStep s).ppu.frame = s.ppu.advanceDot.frame := by
  obtain ⟨hdot, hline, hframe, -⟩ := ppuStep_counters s
  exact ⟨hdot, hline, hframe⟩

theorem ppuStep_within_line {s : State} (hdot : s.ppu.dot < 340) (hskip : ¬s.ppu.SkipsNext) :
    (ppuStep s).ppu.dot = s.ppu.dot + 1 ∧ (ppuStep s).ppu.scanline = s.ppu.scanline ∧
    (ppuStep s).ppu.frame = s.ppu.frame := by
  have h := ppuStep_beam s
  rwa [advanceDot_within_line hdot hskip] at h

/-! ## Where each stage works -/

theorem visibleLine_iff (p : Ppu) : p.visibleLine = true ↔ p.scanline < 240 := decide_eq_true_iff

theorem preLine_iff (p : Ppu) : p.preLine = true ↔ p.scanline = 261 := decide_eq_true_iff

theorem renderLine_iff (p : Ppu) : p.renderLine = true ↔ p.scanline < 240 ∨ p.scanline = 261 := by
  rw [Ppu.renderLine, Bool.or_eq_true, visibleLine_iff, preLine_iff]

theorem visibleDot_iff (p : Ppu) : p.visibleDot = true ↔ 1 ≤ p.dot ∧ p.dot ≤ 256 := decide_eq_true_iff

theorem fetchDot_iff (p : Ppu) :
    p.fetchDot = true ↔ (1 ≤ p.dot ∧ p.dot ≤ 256) ∨ (321 ≤ p.dot ∧ p.dot ≤ 336) := by
  rw [Ppu.fetchDot, Bool.or_eq_true, visibleDot_iff, Ppu.prefetchDot, decide_eq_true_iff]

theorem pixelDot_of_visible {s : State} (hline : s.ppu.scanline < 240) (hlo : 1 ≤ s.ppu.dot) (hhi : s.ppu.dot ≤ 256) :
    pixelDot s = renderPixel s := by
  rw [pixelDot, (visibleLine_iff _).mpr hline, (visibleDot_iff _).mpr ⟨hlo, hhi⟩]; rfl

theorem pixelDot_of_hidden {s : State} (h : ¬(s.ppu.scanline < 240 ∧ 1 ≤ s.ppu.dot ∧ s.ppu.dot ≤ 256)) :
    pixelDot s = s := by
  rw [← visibleLine_iff, ← visibleDot_iff, ← Bool.and_eq_true] at h
  exact if_neg h

theorem spriteDot_of_visible {s : State} (hdot : s.ppu.dot = 257) (hline : s.ppu.scanline < 240) :
    spriteDot s = evaluateSprites s := (if_pos hdot).trans (if_pos ((visibleLine_iff _).mpr hline))

theorem spriteDot_of_hidden {s : State} (hdot : s.ppu.dot = 257) (hline : 240 ≤ s.ppu.scanline) :
    spriteDot s = s.setPpu { s.ppu with sprCount := 0 } :=
  (if_pos hdot).trans (if_neg fun h => absurd ((visibleLine_iff _).mp h) (by omega))

theorem spriteDot_elsewhere {s : State} (hdot : s.ppu.dot ≠ 257) : spriteDot s = s := if_neg hdot

/-! ## The vertical blank and the NMI -/

theorem pixelDot_hit_mono {s : State} (h : s.ppu.spr0Hit = true) : (pixelDot s).ppu.spr0Hit = true := by
  by_cases hvis : s.ppu.scanline < 240 ∧ 1 ≤ s.ppu.dot ∧ s.ppu.dot ≤ 256
  · obtain ⟨hline, hlo, hhi⟩ := hvis
    rw [pixelDot_of_visible hline hlo hhi]
    exact Bool.or_eq_true_iff.mpr (.inl h)
  · rwa [pixelDot_of_hidden hvis]

theorem spriteDot_overflow_mono {s : State} (h : s.ppu.sprOverflow = true) : (spriteDot s).ppu.sprOverflow = true := by
  by_cases hdot : s.ppu.dot = 257
  · by_cases hline : s.ppu.scanline < 240
    · rw [spriteDot_of_visible hdot hline]
      exact Bool.or_eq_true_iff.mpr (.inl h)
    · rw [spriteDot_of_hidden hdot (by omega)]
      exact h
  · rwa [spriteDot_elsewhere hdot]

/-- Rendering sets the sprite flags and never clears them (R281, R287). -/
theorem rendered_flags_mono (s : State) :
    (s.ppu.spr0Hit = true → s.rendered.spr0Hit = true) ∧ (s.ppu.sprOverflow = true → s.rendered.sprOverflow = true) := by
  have hsame : s.arrive.ppu.spr0Hit = s.ppu.spr0Hit ∧ s.arrive.ppu.sprOverflow = s.ppu.sprOverflow := by
    rw [arrive_ppu]; exact ⟨rfl, rfl⟩
  rw [← hsame.1, ← hsame.2]
  cases hr : s.ppu.rendering with
  | false => rw [rendered_off hr]; exact ⟨id, id⟩
  | true => rw [rendered_on hr]; exact ⟨pixelDot_hit_mono, spriteDot_overflow_mono⟩

/-- Away from the visible pixels a dot draws nothing and sets no hit (R285, R289). -/
theorem rendered_of_noPixel {s : State}
    (h : ¬(s.ppu.rendering = true ∧ 1 ≤ (ppuStep s).ppu.dot ∧ (ppuStep s).ppu.dot ≤ 256 ∧ (ppuStep s).ppu.scanline < 240)) :
    s.rendered.back = s.ppu.back ∧ s.rendered.spr0Hit = s.ppu.spr0Hit := by
  cases hr : s.ppu.rendering with
  | false => rw [rendered_off hr, arrive_ppu]; exact ⟨rfl, rfl⟩
  | true =>
    have hhidden : pixelDot s.arrive = s.arrive := pixelDot_of_hidden (by
      rw [arrive_ppu]
      exact fun ⟨hline, hlo, hhi⟩ => h ⟨hr, hlo, hhi, hline⟩)
    rw [rendered_on hr, hhidden, arrive_ppu]
    exact ⟨rfl, rfl⟩

/-- The beginning of the vertical blank in one equation (R262, R264). -/
theorem vblankStart_eq (p : Ppu) :
    p.vblankStart = { p with
      front := p.back, back := p.front, nmiOccurred := true, nmiPrevious := p.ctrl.getLsbD 7
      nmiDelay := if p.ctrl.getLsbD 7 = true ∧ p.nmiPrevious = false then Config.nmiDelay else p.nmiDelay } := by
  rw [Ppu.vblankStart, nmiChange_eq]
  simp only [Bool.and_true]

/-- Its end in one equation (R262, R266). -/
theorem vblankEnd_eq (p : Ppu) :
    p.vblankEnd = { p with nmiOccurred := false, nmiPrevious := false, spr0Hit := false, sprOverflow := false } := by
  rw [Ppu.vblankEnd, nmiChange_eq]
  simp only [Bool.and_false, Bool.false_eq_true, false_and, if_false]

/-- The dot that arrives at (241, 1). -/
theorem ppuStep_vblankStart {s : State} (hline : (ppuStep s).ppu.scanline = 241) (hdot : (ppuStep s).ppu.dot = 1) :
    (ppuStep s).ppu = s.rendered.vblankStart := by
  obtain ⟨hd, hl, -⟩ := rendered_kept s
  exact vblankDot_of_start (hl.trans hline) (hd.trans hdot)

/-- The dot that arrives at (261, 1). -/
theorem ppuStep_vblankEnd {s : State} (hline : (ppuStep s).ppu.scanline = 261) (hdot : (ppuStep s).ppu.dot = 1) :
    (ppuStep s).ppu = s.rendered.vblankEnd := by
  obtain ⟨hd, hl, -⟩ := rendered_kept s
  exact vblankDot_of_end (hl.trans hline) (hd.trans hdot)

/-- Any other dot ends with its rendering. -/
theorem ppuStep_noVblank {s : State}
    (h : ¬((ppuStep s).ppu.dot = 1 ∧ ((ppuStep s).ppu.scanline = 241 ∨ (ppuStep s).ppu.scanline = 261))) :
    (ppuStep s).ppu = s.rendered := by
  obtain ⟨hd, hl, -⟩ := rendered_kept s
  rw [← hd, ← hl] at h
  exact vblankDot_of_other h

/-- Settles O52: each clause is what the vertical blank's part makes of the rendered dot. -/
theorem verticalBlank : Obligations.VerticalBlank := by
  unfold Obligations.VerticalBlank
  intro s
  dsimp only
  obtain ⟨-, -, hctrl, hfront, hoccurred, hprevious, hdelay⟩ := rendered_kept s
  refine ⟨fun hl hd => ?start, fun hl hd => ?stop, fun hother => ?other⟩
  case start =>
    obtain ⟨hd', hl', -⟩ := ppuStep_within_line (s := s) (by omega) (fun ⟨_, _, h, _⟩ => by omega)
    have hline : (ppuStep s).ppu.scanline = 241 := hl'.trans hl
    have hdot : (ppuStep s).ppu.dot = 1 := by omega
    refine ⟨hline, hdot, ?_⟩
    have hback := (rendered_of_noPixel (s := s) (by omega)).1
    rw [ppuStep_vblankStart hline hdot, vblankStart_eq]
    dsimp only
    rw [Bool.and_true, hfront, hback, hprevious, hdelay]
    exact ⟨rfl, rfl, rfl, rfl, rfl⟩
  case stop =>
    obtain ⟨hd', hl', -⟩ := ppuStep_within_line (s := s) (by omega) (fun ⟨_, _, _, h⟩ => by omega)
    have hline : (ppuStep s).ppu.scanline = 261 := hl'.trans hl
    have hdot : (ppuStep s).ppu.dot = 1 := by omega
    refine ⟨hline, hdot, ?_⟩
    rw [ppuStep_vblankEnd hline hdot, vblankEnd_eq]
    exact ⟨rfl, rfl, rfl, rfl, hfront, hdelay⟩
  case other =>
    rw [ppuStep_noVblank hother]
    exact ⟨hoccurred, hprevious, hfront, hdelay, rendered_flags_mono s⟩

theorem nmiDelayTick_requests {s : State}
    (h : s.ppu.nmiDelay = 1 ∧ s.ppu.ctrl.getLsbD 7 = true ∧ s.ppu.nmiOccurred = true) :
    (nmiDelayTick s).cpu = { s.cpu with irqSlot := .nmi } := by
  obtain ⟨hdelay, hstill⟩ := h
  have hend : nmiDelayTick s = triggerNmi (s.setPpu { s.ppu with nmiDelay := s.ppu.nmiDelay - 1 }) :=
    (if_neg (by omega)).trans (if_pos ⟨by rw [setPpu_ppu, hdelay], hstill⟩)
  rw [hend]; rfl

theorem nmiDelayTick_quiet {s : State}
    (h : ¬(s.ppu.nmiDelay = 1 ∧ s.ppu.ctrl.getLsbD 7 = true ∧ s.ppu.nmiOccurred = true)) :
    (nmiDelayTick s).cpu = s.cpu := by
  by_cases hzero : s.ppu.nmiDelay = 0
  · rw [nmiDelayTick, if_pos hzero]
  · have hrest : nmiDelayTick s = s.setPpu { s.ppu with nmiDelay := s.ppu.nmiDelay - 1 } :=
      (if_neg hzero).trans (if_neg fun ⟨hend, hstill⟩ => h ⟨by change s.ppu.nmiDelay - 1 = 0 at hend; omega, hstill⟩)
    rw [hrest]; rfl

/-- A dot requests the NMI exactly when the delay ends in it with the NMI enabled and the latch set (R263). -/
theorem ppuStep_cpu (s : State) :
    (ppuStep s).cpu = { s.cpu with
      irqSlot := if s.ppu.nmiDelay = 1 ∧ s.ppu.ctrl.getLsbD 7 = true ∧ s.ppu.nmiOccurred = true then .nmi
        else s.cpu.irqSlot } := by
  have htick : (ppuStep s).cpu = (nmiDelayTick s).cpu := by
    rw [ppuStep_eq, setPpu_cpu, (renderDot_keeps _).cpu]; rfl
  rw [htick]
  split
  · rename_i hends
    exact nmiDelayTick_requests hends
  · rename_i hruns
    exact nmiDelayTick_quiet hruns

/-- The NMI logic while the delay runs and no vertical blank begins or ends. -/
structure NmiRuns (delay dot : Nat) (p : Ppu) : Prop where
  scanline : p.scanline = 241
  dot : p.dot = dot
  enabled : p.ctrl.getLsbD 7 = true
  occurred : p.nmiOccurred = true
  delay : p.nmiDelay = delay

/-- From (241, 0) with the NMI enabled the next dot starts the delay (R262, R264). -/
theorem nmiRuns_start {s : State} (hline : s.ppu.scanline = 241) (hdot : s.ppu.dot = 0)
    (henabled : s.ppu.ctrl.getLsbD 7 = true) (hprevious : s.ppu.nmiPrevious = false) :
    NmiRuns Config.nmiDelay 1 (ppuStep s).ppu := by
  obtain ⟨hd, hl, -⟩ := ppuStep_within_line (s := s) (by omega) (fun ⟨_, _, h, _⟩ => by omega)
  obtain ⟨-, -, hctrl, -, -, hprev, -⟩ := rendered_kept s
  have hl' : (ppuStep s).ppu.scanline = 241 := hl.trans hline
  have hd' : (ppuStep s).ppu.dot = 1 := by omega
  have hstart := (ppuStep_vblankStart hl' hd').trans (vblankStart_eq _)
  refine ⟨hl', hd', ?_, by rw [hstart], ?_⟩
  · rw [hstart]; exact (congrArg (·.getLsbD 7) hctrl).trans henabled
  · rw [hstart]; exact if_pos ⟨(congrArg (·.getLsbD 7) hctrl).trans henabled, hprev.trans hprevious⟩

/-- A dot later the delay is one less. -/
theorem NmiRuns.ppuStep {s : State} {delay dot : Nat} (h : NmiRuns delay dot s.ppu) (hlo : 1 ≤ dot) (hhi : dot < 340) :
    NmiRuns (delay - 1) (dot + 1) (ppuStep s).ppu := by
  obtain ⟨hline, hdot, henabled, hoccurred, hdelay⟩ := h
  obtain ⟨hd, hl, -⟩ := ppuStep_within_line (s := s) (by omega) (fun ⟨_, _, h, _⟩ => by omega)
  obtain ⟨-, -, hctrl, -, hocc, -, hdel⟩ := rendered_kept s
  refine ⟨hl.trans hline, by omega, ?_, ?_, ?_⟩ <;> rw [ppuStep_noVblank (by omega)]
  · rw [hctrl, henabled]
  · rw [hocc, hoccurred]
  · rw [hdel, hdelay]

theorem runDots_succ_last (n : Nat) (s : State) : runDots (n + 1) s = ppuStep (runDots n s) := runDots_add n 1 s

/-- While the delay runs nothing is requested (R263). -/
theorem NmiRuns.runDots {s : State} {delay : Nat} (h : NmiRuns delay 1 s.ppu) {n : Nat} (hn : n < delay)
    (hdots : n < 339) :
    NmiRuns (delay - n) (n + 1) (Machine.runDots n s).ppu ∧ (Machine.runDots n s).cpu = s.cpu := by
  induction n with
  | zero => exact ⟨h, rfl⟩
  | succ n ih =>
    obtain ⟨hruns, hcpu⟩ := ih (by omega) (by omega)
    rw [runDots_succ_last]
    refine ⟨hruns.ppuStep (by omega) (by omega), ?_⟩
    rw [ppuStep_cpu, if_neg (by rw [hruns.delay]; omega), hcpu]

/-- Settles O53: the delay starts at (241, 1), runs down a dot at a time, and the request comes when it ends. -/
theorem nmiDelay_requests : Obligations.NmiDelay := by
  unfold Obligations.NmiDelay
  refine ⟨fun s => ?_, fun s hline hdot henabled hprevious hzero => ?_⟩
  · obtain ⟨hbus, hcart, hmapper, hext, -⟩ := ppuStep_outside s
    exact State.eq_of_blocks (ppuStep_cpu s) hbus hcart hmapper rfl hext
  · have hstart := nmiRuns_start hline hdot henabled hprevious
    have hcpu : (ppuStep s).cpu = s.cpu := by rw [ppuStep_cpu, if_neg (by omega)]
    constructor
    · intro n hn
      cases n with
      | zero => rfl
      | succ n =>
        exact (hstart.runDots hn (Nat.lt_of_lt_of_le hn (by decide))).2.trans hcpu
    · obtain ⟨hruns, hlast⟩ := hstart.runDots (n := Config.nmiDelay - 1) (by decide) (by decide)
      have hends : (runDots Config.nmiDelay s).cpu = s.cpu := hlast.trans hcpu
      rw [runDots_succ_last, ppuStep_cpu, hends]
      exact congrArg (fun slot => ({ s.cpu with irqSlot := slot } : Cpu)) (if_pos ⟨hruns.delay, hruns.enabled, hruns.occurred⟩)

/-! ## The length of a frame -/

/-- How many dots of its frame the beam has passed (R260). -/
def Ppu.place (p : Ppu) : Nat := p.scanline * 341 + p.dot

/-- The counters are in range (R26). -/
def Ppu.OnScreen (p : Ppu) : Prop := p.dot ≤ 340 ∧ p.scanline ≤ 261

/-- The last dot of the frame is skipped: the frame is odd and rendering is enabled, and the beam does not stand on
that dot already (R265). -/
def Ppu.SkipsLast (p : Ppu) : Prop := p.rendering = true ∧ p.frame % 2 = 1 ∧ ¬(p.scanline = 261 ∧ p.dot = 340)

/-- The frame has `n` dots (R260, R265). -/
def Ppu.FrameHas (n : Nat) (p : Ppu) : Prop := (p.SkipsLast ∧ n = 89341) ∨ (¬p.SkipsLast ∧ n = 89342)

theorem frameHas_exists (p : Ppu) : ∃ n, p.FrameHas n := by
  by_cases h : p.SkipsLast
  · exact ⟨_, .inl ⟨h, rfl⟩⟩
  · exact ⟨_, .inr ⟨h, rfl⟩⟩

theorem skipsNext_of_skipsLast {p : Ppu} (h : p.SkipsLast) (hplace : p.place = 89340) (hdot : p.dot ≤ 340) :
    p.SkipsNext := by
  unfold Ppu.place at hplace
  exact ⟨h.1, h.2.1, by omega, by omega⟩

theorem skipsLast_of_skipsNext {p : Ppu} (h : p.SkipsNext) : p.SkipsLast ∧ p.place = 89340 := by
  obtain ⟨hr, hodd, hline, hdot⟩ := h
  refine ⟨⟨hr, hodd, by omega⟩, ?_⟩
  unfold Ppu.place
  omega

theorem ppuStep_rendering (s : State) : (ppuStep s).ppu.rendering = s.ppu.rendering := by
  obtain ⟨-, -, -, -, hmask, -⟩ := ppuStep_counters s
  exact rendering_congr hmask

/-- Every place of a frame is below its number of dots. -/
theorem place_lt {p : Ppu} {n : Nat} (h : p.OnScreen) (hn : p.FrameHas n) : p.place < n := by
  obtain ⟨hdot, hline⟩ := h
  unfold Ppu.place
  rcases hn with ⟨⟨_, _, hlast⟩, rfl⟩ | ⟨_, rfl⟩ <;> omega

/-- A dot that does not end the frame. -/
theorem ppuStep_in_frame {s : State} {n : Nat} (h : s.ppu.OnScreen) (hn : s.ppu.FrameHas n) (hin : s.ppu.place + 1 < n) :
    (ppuStep s).ppu.place = s.ppu.place + 1 ∧ (ppuStep s).ppu.frame = s.ppu.frame ∧
    (ppuStep s).ppu.OnScreen ∧ (ppuStep s).ppu.FrameHas n := by
  have hmoves : (ppuStep s).ppu.place = s.ppu.place + 1 ∧ (ppuStep s).ppu.frame = s.ppu.frame ∧
      (ppuStep s).ppu.OnScreen := by
    obtain ⟨hdot, hline⟩ := h
    unfold Ppu.place Ppu.OnScreen at *
    rcases Nat.lt_or_ge s.ppu.dot 340 with hwithin | hend
    · have hskip : ¬s.ppu.SkipsNext := fun hskip => by
        obtain ⟨hlast, hplace⟩ := skipsLast_of_skipsNext hskip
        unfold Ppu.place at hplace
        rcases hn with ⟨-, rfl⟩ | ⟨hno, -⟩
        · omega
        · exact hno hlast
      obtain ⟨hd, hl, hf⟩ := ppuStep_within_line hwithin hskip
      exact ⟨by omega, hf, by omega, by omega⟩
    · have hbefore : s.ppu.scanline < 261 := by rcases hn with ⟨-, rfl⟩ | ⟨-, rfl⟩ <;> omega
      obtain ⟨hd, hl, hf⟩ := ppuStep_beam s
      rw [advanceDot_line_end (by omega) hbefore] at hd hl hf
      dsimp only at hd hl hf
      exact ⟨by omega, hf, by omega, by omega⟩
  obtain ⟨hplace, hframe, hscreen⟩ := hmoves
  refine ⟨hplace, hframe, hscreen, ?_⟩
  have hlast : (ppuStep s).ppu.SkipsLast ↔ s.ppu.SkipsLast := by
    unfold Ppu.SkipsLast
    rw [ppuStep_rendering, hframe]
    unfold Ppu.place at *
    constructor
    · rintro ⟨hr, hodd, -⟩
      exact ⟨hr, hodd, by rcases hn with ⟨-, rfl⟩ | ⟨-, rfl⟩ <;> omega⟩
    · rintro ⟨hr, hodd, hnot⟩
      exact ⟨hr, hodd, by rcases hn with ⟨-, rfl⟩ | ⟨hno, -⟩; omega; exact absurd ⟨hr, hodd, hnot⟩ hno⟩
  unfold Ppu.FrameHas
  rwa [hlast]

/-- The dot that ends the frame. -/
theorem ppuStep_ends_frame {s : State} {n : Nat} (h : s.ppu.OnScreen) (hn : s.ppu.FrameHas n)
    (hend : s.ppu.place + 1 = n) :
    (ppuStep s).ppu.dot = 0 ∧ (ppuStep s).ppu.scanline = 0 ∧ (ppuStep s).ppu.frame = s.ppu.frame + 1 := by
  have hlast : (s.ppu.dot = 340 ∧ s.ppu.scanline = 261) ∨ s.ppu.SkipsNext := by
    obtain ⟨hdot, hline⟩ := h
    rcases hn with ⟨hskip, rfl⟩ | ⟨-, rfl⟩
    · exact .inr (skipsNext_of_skipsLast hskip (by omega) hdot)
    · unfold Ppu.place at hend
      exact .inl (by omega)
  have hbeam := ppuStep_beam s
  rwa [advanceDot_frame_end hlast] at hbeam

/-- Any number of dots within a frame. -/
theorem runDots_in_frame {s : State} {n : Nat} (h : s.ppu.OnScreen) (hn : s.ppu.FrameHas n) {k : Nat}
    (hk : s.ppu.place + k < n) :
    (runDots k s).ppu.place = s.ppu.place + k ∧ (runDots k s).ppu.frame = s.ppu.frame ∧
    (runDots k s).ppu.OnScreen ∧ (runDots k s).ppu.FrameHas n := by
  induction k with
  | zero => simpa [runDots] using ⟨h, hn⟩
  | succ k ih =>
    obtain ⟨hplace, hframe, hscreen, hhas⟩ := ih (by omega)
    obtain ⟨hplace', hframe', hscreen', hhas'⟩ := ppuStep_in_frame hscreen hhas (by omega)
    rw [runDots_succ_last]
    exact ⟨by omega, hframe'.trans hframe, hscreen', hhas'⟩

/-- The dots up to the next frame's first. -/
theorem runDots_ends_frame {s : State} {n : Nat} (h : s.ppu.OnScreen) (hn : s.ppu.FrameHas n) {k : Nat}
    (hk : s.ppu.place + k = n) :
    (runDots k s).ppu.dot = 0 ∧ (runDots k s).ppu.scanline = 0 ∧ (runDots k s).ppu.frame = s.ppu.frame + 1 := by
  have hlt := place_lt h hn
  obtain ⟨k, rfl⟩ : ∃ j, k = j + 1 := ⟨k - 1, by omega⟩
  obtain ⟨hplace, hframe, hscreen, hhas⟩ := runDots_in_frame h hn (k := k) (by omega)
  rw [runDots_succ_last, ← hframe]
  exact ppuStep_ends_frame hscreen hhas (by omega)

/-- Settles O54: one dot by the cases of `Advance`, a frame by counting places. -/
theorem frameLength : Obligations.FrameLength := by
  unfold Obligations.FrameLength
  refine ⟨fun s hdot hline => ?_, fun s hdot hline => ?_⟩
  · refine ⟨fun hwithin hskip => ppuStep_within_line hwithin hskip, fun hend hbefore => ?_, fun hlast => ?_⟩
    · have hbeam := ppuStep_beam s
      rwa [advanceDot_line_end hend hbefore] at hbeam
    · have hbeam := ppuStep_beam s
      rwa [advanceDot_frame_end hlast] at hbeam
  · have hscreen : s.ppu.OnScreen := ⟨by omega, by omega⟩
    have hplace : s.ppu.place = 0 := by unfold Ppu.place; omega
    obtain ⟨n, hhas⟩ := frameHas_exists s.ppu
    have hn : (if s.ppu.rendering = true ∧ s.ppu.frame % 2 = 1 then 89341 else 89342) = n := by
      rcases hhas with ⟨⟨hr, hodd, -⟩, rfl⟩ | ⟨hno, rfl⟩
      · exact if_pos ⟨hr, hodd⟩
      · exact if_neg fun ⟨hr, hodd⟩ => hno ⟨hr, hodd, by omega⟩
    dsimp only
    rw [hn]
    obtain ⟨hd, hl, hf⟩ := runDots_ends_frame hscreen hhas (k := n) (by omega)
    exact ⟨hd, hl, hf, fun k hk => (runDots_in_frame hscreen hhas (by omega)).2.1⟩

/-! ## The scroll address -/

/-- The `k` bits from bit `p` on, masked out of a register, as a number. -/
theorem and_field_toNat {w : Nat} {v mask : BitVec w} (p k : Nat)
    (hmask : ∀ i < w, mask.getLsbD i = decide (p ≤ i ∧ i < p + k)) :
    (v &&& mask).toNat = v.toNat / 2 ^ p % 2 ^ k * 2 ^ p := by
  refine Nat.eq_of_testBit_eq fun i => ?_
  rw [Nat.testBit_mul_two_pow, Nat.testBit_mod_two_pow, Nat.testBit_div_two_pow]
  change (v &&& mask).getLsbD i = (decide (p ≤ i) && (decide (i - p < k) && v.getLsbD (i - p + p)))
  rw [BitVec.getLsbD_and]
  rcases Nat.lt_or_ge i w with hi | hi
  · rw [hmask i hi]
    by_cases hp : p ≤ i
    · have hk : i < p + k ↔ i - p < k := by omega
      simp [hp, hk, Bool.and_comm]
    · simp [hp]
  · rw [BitVec.getLsbD_of_ge v i hi]
    by_cases hp : p ≤ i
    · simp [hp, BitVec.getLsbD_of_ge v i hi]
    · simp [hp]

/-- Flipping bit `p`. -/
theorem xor_bit_toNat (v : ScrollAddr) {p : Nat} (hp : p < 15) :
    (v ^^^ BitVec.twoPow 15 p).toNat =
      v.toNat / 2 ^ (p + 1) * 2 ^ (p + 1) + (1 - v.toNat / 2 ^ p % 2) * 2 ^ p + v.toNat % 2 ^ p := by
  have hbit : v.getLsbD p = decide (v.toNat / 2 ^ p % 2 = 1) := Nat.testBit_eq_decide_div_mod_eq
  have hflip : v ^^^ BitVec.twoPow 15 p =
      v &&& ~~~BitVec.twoPow 15 p ||| bif v.getLsbD p then 0 else BitVec.twoPow 15 p := by
    refine BitVec.eq_of_getLsbD_eq fun i hi => ?_
    simp only [BitVec.getLsbD_or, BitVec.getLsbD_and, BitVec.getLsbD_xor, BitVec.getLsbD_not, BitVec.getLsbD_twoPow, hi]
    rcases eq_or_ne p i with rfl | hip
    · cases h : v.getLsbD p <;> simp only [cond_true, cond_false, BitVec.getLsbD_twoPow] <;> simp [hp]
    · cases h : v.getLsbD p <;> simp only [cond_true, cond_false, BitVec.getLsbD_twoPow] <;> simp only [hip] <;> simp
  have hfield : (bif v.getLsbD p then 0 else BitVec.twoPow 15 p : ScrollAddr).toNat =
      (1 - v.toNat / 2 ^ p % 2) * 2 ^ p := by
    rcases Nat.mod_two_eq_zero_or_one (v.toNat / 2 ^ p) with h | h
    · rw [hbit, h]
      exact (BitVec.toNat_twoPow_of_lt hp).trans (Nat.one_mul _).symm
    · simp [hbit, h]
  rw [hflip]
  refine and_mask_or_field_toNat p 1 (by omega) (fun i hi => ?_) hfield
  simp only [BitVec.getLsbD_not, BitVec.getLsbD_twoPow, hi]
  rcases eq_or_ne p i with rfl | hip
  · simp [hp]
  · have hside : i < p ∨ p + 1 ≤ i := by omega
    simp only [decide_true, Bool.true_and, hip, decide_false, Bool.and_false, Bool.not_false, hside]

/-- `CopyX` puts two fields of `t` into `v`, one after the other (R276). -/
theorem copyX_toNat (v t : ScrollAddr) :
    (copyX v t).toNat =
      v.toNat / 2048 * 2048 + t.toNat / 1024 % 2 * 1024 + v.toNat / 32 % 32 * 32 + t.toNat % 32 := by
  have hsteps : copyX v t = (v &&& 0x7FE0 ||| t &&& 0x001F) &&& 0x7BFF ||| t &&& 0x0400 := by
    refine BitVec.eq_of_getLsbD_eq fun i hi => ?_
    simp only [copyX, BitVec.getLsbD_or, BitVec.getLsbD_and]
    interval_cases i <;> simp
  have hcoarse : (t &&& 0x001F).toNat = t.toNat % 32 * 2 ^ 0 :=
    (and_field_toNat 0 5 (by decide)).trans (by omega)
  have hbit : (t &&& 0x0400).toNat = t.toNat / 1024 % 2 * 2 ^ 10 := and_field_toNat 10 1 (by decide)
  rw [hsteps, and_mask_or_field_toNat 10 1 (by omega) (by decide) hbit,
    and_mask_or_field_toNat 0 5 (by omega) (by decide) hcoarse]
  omega

/-- `CopyY` is `CopyX` the other way round (R276, R277). -/
theorem copyY_eq (v t : ScrollAddr) : copyY v t = copyX t v := BitVec.or_comm ..

/-- Coarse X steps within its nametable (R275). -/
theorem incrementX_toNat_of_ne {v : ScrollAddr} (h : v.toNat % 32 ≠ 31) : (incrementX v).toNat = v.toNat + 1 := by
  have hv := v.isLt
  have hcoarse : (v &&& 0x001F).toNat = v.toNat % 32 * 1 := (and_field_toNat 0 5 (by decide)).trans (by omega)
  have hne : v &&& 0x001F ≠ 31 := fun heq => by
    have hlast : 31 = v.toNat % 32 * 1 := by rw [← hcoarse, heq]; rfl
    omega
  rw [incrementX, if_neg hne, BitVec.toNat_add]
  exact Nat.mod_eq_of_lt (show v.toNat + 1 < 32768 by omega)

/-- At its last column it wraps into the other nametable (R275). -/
theorem incrementX_toNat_of_eq {v : ScrollAddr} (h : v.toNat % 32 = 31) :
    (incrementX v).toNat = v.toNat / 2048 * 2048 + (1 - v.toNat / 1024 % 2) * 1024 + v.toNat / 32 % 32 * 32 := by
  have hv := v.isLt
  have hcoarse : (v &&& 0x001F).toNat = v.toNat % 32 * 1 := (and_field_toNat 0 5 (by decide)).trans (by omega)
  have hrest : (v &&& 0x7FE0).toNat = v.toNat / 32 % 1024 * 32 := and_field_toNat 5 10 (by decide)
  have heq : v &&& 0x001F = 31 := BitVec.eq_of_toNat_eq (by rw [hcoarse, h]; rfl)
  rw [incrementX, if_pos heq, show (0x0400 : ScrollAddr) = BitVec.twoPow 15 10 from rfl, xor_bit_toNat _ (by decide),
    hrest]
  omega

theorem nextCoarseY_toNat {y : ScrollAddr} (hy : y.toNat < 32) :
    (nextCoarseY y).toNat = if y.toNat = 29 ∨ y.toNat = 31 then 0 else y.toNat + 1 := by
  have hwrap : y = 29 ∨ y = 31 ↔ y.toNat = 29 ∨ y.toNat = 31 := by
    rw [← BitVec.toNat_inj, ← BitVec.toNat_inj]; rfl
  rw [nextCoarseY, apply_ite BitVec.toNat, BitVec.toNat_add]
  simp only [hwrap]
  refine if_congr Iff.rfl rfl (Nat.mod_eq_of_lt (show y.toNat + 1 < 32768 by omega))

/-- Fine Y steps within its row of tiles (R278). -/
theorem incrementY_toNat_of_lt {v : ScrollAddr} (h : v.toNat / 4096 < 7) : (incrementY v).toNat = v.toNat + 4096 := by
  have hfine : (v &&& 0x7000).toNat = v.toNat / 4096 % 8 * 4096 := and_field_toNat 12 3 (by decide)
  have hne : v &&& 0x7000 ≠ 0x7000 := fun heq => by
    have hlast : 28672 = v.toNat / 4096 % 8 * 4096 := by rw [← hfine, heq]; rfl
    omega
  rw [incrementY, if_pos hne, BitVec.toNat_add]
  exact Nat.mod_eq_of_lt (show v.toNat + 4096 < 32768 by omega)

/-- At its last row fine Y wraps and coarse Y steps; row 29 flips the vertical nametable (R278). -/
theorem incrementY_toNat_of_last {v : ScrollAddr} (h : v.toNat / 4096 = 7) :
    (incrementY v).toNat =
      (v.toNat / 2048 + if v.toNat / 32 % 32 = 29 then 1 else 0) % 2 * 2048 + v.toNat / 1024 % 2 * 1024 +
        (if v.toNat / 32 % 32 = 29 ∨ v.toNat / 32 % 32 = 31 then 0 else v.toNat / 32 % 32 + 1) * 32 + v.toNat % 32 := by
  have hfine : (v &&& 0x7000).toNat = v.toNat / 4096 % 8 * 4096 := and_field_toNat 12 3 (by decide)
  have heq : v &&& 0x7000 = 0x7000 := BitVec.eq_of_toNat_eq (by rw [hfine, h]; rfl)
  have hlow : (v &&& 0x0FFF).toNat = v.toNat % 4096 * 1 := (and_field_toNat 0 12 (by decide)).trans (by omega)
  have hy : (((v &&& 0x0FFF) &&& 0x03E0) >>> 5).toNat = v.toNat / 32 % 32 := by
    have hfield : ((v &&& 0x0FFF) &&& 0x03E0).toNat = (v &&& 0x0FFF).toNat / 32 % 32 * 32 :=
      and_field_toNat 5 5 (by decide)
    rw [BitVec.toNat_ushiftRight, hfield, Nat.shiftRight_eq_div_pow, hlow]
    omega
  have hflip : (if ((v &&& 0x0FFF) &&& 0x03E0) >>> 5 = 29 then (v &&& 0x0FFF) ^^^ 0x0800 else v &&& 0x0FFF).toNat =
      (v.toNat / 2048 + if v.toNat / 32 % 32 = 29 then 1 else 0) % 2 * 2048 + v.toNat % 2048 := by
    have hrow : ((v &&& 0x0FFF) &&& 0x03E0) >>> 5 = 29 ↔ v.toNat / 32 % 32 = 29 := by
      rw [← hy, ← BitVec.toNat_inj]; rfl
    rw [apply_ite BitVec.toNat, show (0x0800 : ScrollAddr) = BitVec.twoPow 15 11 from rfl, xor_bit_toNat _ (by decide),
      hlow]
    simp only [hrow]
    split <;> omega
  have hcoarse : (nextCoarseY (((v &&& 0x0FFF) &&& 0x03E0) >>> 5) <<< 5).toNat =
      (if v.toNat / 32 % 32 = 29 ∨ v.toNat / 32 % 32 = 31 then 0 else v.toNat / 32 % 32 + 1) * 2 ^ 5 := by
    rw [BitVec.toNat_shiftLeft, nextCoarseY_toNat (by omega), hy, Nat.shiftLeft_eq]
    refine Nat.mod_eq_of_lt ?_
    split <;> omega
  rw [incrementY, if_neg (not_not.mpr heq)]
  dsimp only
  rw [and_mask_or_field_toNat 5 5 ?_ (by decide) hcoarse, hflip]
  · split <;> omega
  · split <;> omega

/-- With rendering disabled a dot leaves the pipeline alone (R289). -/
theorem ppuStep_v_off {s : State} (h : s.ppu.rendering = false) : (ppuStep s).ppu.v = s.ppu.v := by
  rw [ppuStep_ppu, vblankDot_eq, rendered_off h, arrive_ppu]

/-- What a rendering dot does to the scroll address, by where it arrives (R261 parts 3c and 3d). -/
theorem ppuStep_v_on {s : State} (h : s.ppu.rendering = true) :
    let d := (ppuStep s).ppu.dot
    let l := (ppuStep s).ppu.scanline
    let v0 := if l = 261 ∧ 280 ≤ d ∧ d ≤ 304 then copyY s.ppu.v s.ppu.t else s.ppu.v
    let v1 := if ((1 ≤ d ∧ d ≤ 256) ∨ (321 ≤ d ∧ d ≤ 336)) ∧ d % 8 = 0 then incrementX v0 else v0
    let v2 := if d = 256 then incrementY v1 else v1
    (ppuStep s).ppu.v = if l < 240 ∨ l = 261 then if d = 257 then copyX v2 s.ppu.t else v2 else v0 := by
  have hv : (ppuStep s).ppu.v = s.arrive.ppu.verticalCopy.scrollDot.v := by
    rw [ppuStep_ppu, vblankDot_eq, rendered_on h]; rfl
  rw [hv, verticalCopy_eq, scrollDot_v]
  simp only [preLine_iff, fetchDot_iff, renderLine_iff, arrive_ppu]

/-- The increments, field by field, in the statement's form. -/
theorem increments_fields (v : ScrollAddr) :
    let ix := (incrementX v).toNat
    let iy := (incrementY v).toNat
    let n := v.toNat
    let coarseY := n / 32 % 32
    let flip := if coarseY = 29 then 1 else 0
    (ix % 32 = (n % 32 + 1) % 32 ∧ ix / 32 % 32 = coarseY ∧
      ix / 1024 % 2 = (n / 1024 + if n % 32 = 31 then 1 else 0) % 2 ∧ ix / 2048 = n / 2048) ∧
    (iy % 32 = n % 32 ∧ iy / 1024 % 2 = n / 1024 % 2 ∧ iy / 4096 = (n / 4096 + 1) % 8 ∧
      (n / 4096 < 7 → iy = n + 4096) ∧
      (n / 4096 = 7 → iy / 32 % 32 = (if coarseY = 29 ∨ coarseY = 31 then 0 else coarseY + 1) ∧
        iy / 2048 % 2 = (n / 2048 + flip) % 2)) := by
  have hv := v.isLt
  refine ⟨?x, ?y⟩
  case x =>
    by_cases hlast : v.toNat % 32 = 31
    · rw [incrementX_toNat_of_eq hlast, if_pos hlast]; omega
    · rw [incrementX_toNat_of_ne hlast, if_neg hlast]; omega
  case y =>
    by_cases hlast : v.toNat / 4096 = 7
    · rw [incrementY_toNat_of_last hlast]
      split <;> split <;> omega
    · rw [incrementY_toNat_of_lt (by omega)]
      omega

/-- Settles O55: the fields of the increments and copies, and the one case of `Advance`'s place each clause names. -/
theorem scrollMovement : Obligations.ScrollMovement := by
  unfold Obligations.ScrollMovement
  refine ⟨fun v t => ?_, fun s => ?_⟩
  · obtain ⟨hx, hy⟩ := increments_fields v
    exact ⟨hx, hy, copyX_toNat v t, by rw [copyY_eq, copyX_toNat]⟩
  · dsimp only
    refine ⟨fun hidle => ?_, fun hr hline => ?_⟩
    · cases hr : s.ppu.rendering with
      | false => exact ppuStep_v_off hr
      | true =>
        rw [hr] at hidle
        have hdark : 240 ≤ (ppuStep s).ppu.scanline ∧ (ppuStep s).ppu.scanline ≠ 261 := by simpa using hidle
        have hv := ppuStep_v_on hr
        rw [hv, if_neg (by omega), if_neg (by omega)]
    · rw [ppuStep_v_on hr, if_pos hline]
      refine ⟨?_, ?_, ?_, ?_, ?_⟩
      · intro hf h8 hne
        rw [if_neg (by omega), if_neg (by omega), if_pos ⟨hf, h8⟩, if_neg (by omega)]
      · intro hd
        rw [if_neg (by omega), if_pos (by omega), if_pos ⟨by omega, by omega⟩, if_neg (by omega)]
      · intro hd
        rw [if_pos hd, if_neg (by omega), if_neg (by omega), if_neg (by omega)]
      · intro hlo hhi
        rw [if_neg (by omega), if_neg (by omega), if_neg (by omega)]
        simp only [hlo, hhi, and_true]
      · intro hno hne hncopy
        rw [if_neg hne, if_neg (by omega), if_neg hno, if_neg fun ⟨_, hcopy⟩ => hncopy hcopy]

/-! ## The background fetch -/

/-- The dot stands where the background is fetched (R260). -/
def Ppu.fetches (p : Ppu) : Bool := p.renderLine && p.fetchDot

theorem fetches_iff (p : Ppu) :
    p.fetches = true ↔
      (p.scanline < 240 ∨ p.scanline = 261) ∧ ((1 ≤ p.dot ∧ p.dot ≤ 256) ∨ (321 ≤ p.dot ∧ p.dot ≤ 336)) := by
  rw [Ppu.fetches, Bool.and_eq_true, renderLine_iff, fetchDot_iff]

theorem backgroundDot_of_fetches {s : State} (h : s.ppu.fetches = true) :
    backgroundDot s = fetchOperation (s.setPpu { s.ppu with tileData := s.ppu.tileData <<< 4 }) := if_pos h

theorem backgroundDot_elsewhere {s : State} (h : ¬s.ppu.fetches = true) : backgroundDot s = s := if_neg h

/-- The operation of each fetch dot (R270). -/
theorem fetchOperation_cases (s : State) :
    (s.ppu.dot % 8 = 1 → fetchOperation s = fetchNt s) ∧ (s.ppu.dot % 8 = 3 → fetchOperation s = fetchAt s) ∧
    (s.ppu.dot % 8 = 5 → fetchOperation s = fetchLow s) ∧ (s.ppu.dot % 8 = 7 → fetchOperation s = fetchHigh s) ∧
    (s.ppu.dot % 8 = 0 → fetchOperation s = s.setPpu s.ppu.latchTile) ∧
    (s.ppu.dot % 8 = 2 ∨ s.ppu.dot % 8 = 4 ∨ s.ppu.dot % 8 = 6 → fetchOperation s = s) := by
  refine ⟨fun h => ?_, fun h => ?_, fun h => ?_, fun h => ?_, fun h => ?_, fun h => ?_⟩
  case refine_6 => rcases h with h | h | h <;> simp only [fetchOperation, h]
  all_goals simp only [fetchOperation, h]

/-- What the background's stage makes of the shifter and the four latches, by the dot's number modulo 8. -/
theorem backgroundDot_fields (s : State) :
    (backgroundDot s).ppu.ntByte =
      (if s.ppu.fetches = true ∧ s.ppu.dot % 8 = 1 then ppuRead s (ntFetchAddr s.ppu.v) else s.ppu.ntByte) ∧
    (backgroundDot s).ppu.atBits =
      (if s.ppu.fetches = true ∧ s.ppu.dot % 8 = 3 then
        (((ppuRead s (atFetchAddr s.ppu.v) >>> atShift s.ppu.v) &&& 3).setWidth 4) <<< 2 else s.ppu.atBits) ∧
    (backgroundDot s).ppu.loTile =
      (if s.ppu.fetches = true ∧ s.ppu.dot % 8 = 5 then ppuRead s (tileFetchAddr s.ppu) else s.ppu.loTile) ∧
    (backgroundDot s).ppu.hiTile =
      (if s.ppu.fetches = true ∧ s.ppu.dot % 8 = 7 then ppuRead s (tileFetchAddr s.ppu + 8) else s.ppu.hiTile) ∧
    (backgroundDot s).ppu.tileData =
      (if s.ppu.fetches = true then
        if s.ppu.dot % 8 = 0 then
          s.ppu.tileData <<< 4 ||| (packRow s.ppu.atBits 8 s.ppu.loTile s.ppu.hiTile 0).setWidth 64
        else s.ppu.tileData <<< 4
      else s.ppu.tileData) := by
  by_cases hf : s.ppu.fetches = true
  · obtain ⟨h1, h3, h5, h7, h0, hrest⟩ :=
      fetchOperation_cases (s.setPpu { s.ppu with tileData := s.ppu.tileData <<< 4 })
    rw [setPpu_ppu] at h1 h3 h5 h7 h0 hrest
    rw [backgroundDot_of_fetches hf]
    have hlt : s.ppu.dot % 8 < 8 := Nat.mod_lt _ (by decide)
    generalize s.ppu.dot % 8 = k at *
    simp only [hf, true_and, if_true]
    interval_cases k
    · rw [h0 rfl]; exact ⟨rfl, rfl, rfl, rfl, rfl⟩
    · rw [h1 rfl]; exact ⟨rfl, rfl, rfl, rfl, rfl⟩
    · rw [hrest (by decide)]; exact ⟨rfl, rfl, rfl, rfl, rfl⟩
    · rw [h3 rfl]; exact ⟨rfl, rfl, rfl, rfl, rfl⟩
    · rw [hrest (by decide)]; exact ⟨rfl, rfl, rfl, rfl, rfl⟩
    · rw [h5 rfl]; exact ⟨rfl, rfl, rfl, rfl, rfl⟩
    · rw [hrest (by decide)]; exact ⟨rfl, rfl, rfl, rfl, rfl⟩
    · rw [h7 rfl]; exact ⟨rfl, rfl, rfl, rfl, rfl⟩
  · rw [backgroundDot_elsewhere hf]
    simp [hf]

/-! ### The addresses -/

/-- A value below `2 ^ i` put under a multiple of it: `or` adds them. -/
theorem or_toNat_of_multiple {w : Nat} {x y : BitVec w} (i : Nat) {a : Nat} (hx : x.toNat = 2 ^ i * a)
    (hy : y.toNat < 2 ^ i) : (x ||| y).toNat = x.toNat + y.toNat := by
  rw [BitVec.toNat_or, hx, Nat.two_pow_add_eq_or_of_lt hy]

/-- Shifted down and masked out: `k` bits from bit `m + p` on. -/
theorem shift_field_toNat {w : Nat} {v mask : BitVec w} (m p k : Nat)
    (hmask : ∀ i < w, mask.getLsbD i = decide (p ≤ i ∧ i < p + k)) :
    (v >>> m &&& mask).toNat = v.toNat / 2 ^ (m + p) % 2 ^ k * 2 ^ p := by
  rw [and_field_toNat p k hmask, BitVec.toNat_ushiftRight, Nat.shiftRight_eq_div_pow, Nat.div_div_eq_div_mul, Nat.pow_add]

theorem ntFetchAddr_toNat (v : ScrollAddr) : (ntFetchAddr v).toNat = 0x2000 + v.toNat % 4096 := by
  have hlow : ((v &&& 0x0FFF).setWidth 14).toNat = v.toNat % 4096 := by
    rw [BitVec.toNat_setWidth, and_field_toNat 0 12 (by decide)]
    omega
  rw [ntFetchAddr, or_toNat_of_multiple 12 (a := 2) rfl (by omega), hlow]
  rfl

theorem atFetchAddr_toNat (v : ScrollAddr) :
    (atFetchAddr v).toNat = 0x23C0 + v.toNat / 1024 % 4 * 1024 + v.toNat / 128 % 8 * 8 + v.toNat / 4 % 8 := by
  have htable : ((0x23C0 : ScrollAddr) ||| (v &&& 0x0C00)).toNat = 0x23C0 + v.toNat / 1024 % 4 * 1024 := by
    have hfield : (v &&& 0x0C00).toNat = v.toNat / 1024 % 4 * 2 ^ 10 := and_field_toNat 10 2 (by decide)
    have h := and_mask_or_field_toNat (t := 0x23C0) (mask := 0x73FF) 10 2 (by omega) (by decide) hfield
    refine h.trans ?_
    rw [show (0x23C0 : ScrollAddr).toNat = 0x23C0 from rfl]
    omega
  have hrow : (v >>> 4 &&& 0x38).toNat = v.toNat / 128 % 8 * 8 := shift_field_toNat 4 3 3 (by decide)
  have hcolumn : (v >>> 2 &&& 0x07).toNat = v.toNat / 4 % 8 * 1 := shift_field_toNat 2 0 3 (by decide)
  have hrows := or_toNat_of_multiple (a := 143 + v.toNat / 1024 % 4 * 16) 6 (htable.trans (by omega))
    (show (v >>> 4 &&& 0x38).toNat < 2 ^ 6 by omega)
  rw [htable, hrow] at hrows
  have hcolumns := or_toNat_of_multiple (a := 1144 + v.toNat / 1024 % 4 * 128 + v.toNat / 128 % 8) 3 (hrows.trans (by omega))
    (show (v >>> 2 &&& 0x07).toNat < 2 ^ 3 by omega)
  rw [hrows, hcolumn] at hcolumns
  rw [atFetchAddr, BitVec.toNat_setWidth]
  refine (congrArg (· % 2 ^ 14) hcolumns).trans ?_
  omega

theorem atShift_eq (v : ScrollAddr) : atShift v = v.toNat / 64 % 2 * 4 + v.toNat / 2 % 2 * 2 := by
  have hhigh : (v >>> 4 &&& 4).toNat = v.toNat / 64 % 2 * 4 := shift_field_toNat 4 2 1 (by decide)
  have hlow : (v &&& 2).toNat = v.toNat / 2 % 2 * 2 := and_field_toNat 1 1 (by decide)
  rw [atShift, or_toNat_of_multiple 2 (a := v.toNat / 64 % 2) (by omega) (by omega), hhigh, hlow]

/-- The palette select of a quadrant, two bits of the attribute byte moved up by two (R272). -/
theorem atBits_toNat (b : Byte) (n : Nat) :
    ((((b >>> n) &&& 3).setWidth 4) <<< 2 : BitVec 4).toNat = b.toNat / 2 ^ n % 4 * 4 := by
  have hfield : (b >>> n &&& 3).toNat = b.toNat / 2 ^ n % 4 * 1 := shift_field_toNat n 0 2 (by decide)
  rw [BitVec.toNat_shiftLeft, BitVec.toNat_setWidth, hfield, Nat.shiftLeft_eq]
  omega

theorem tileFetchAddr_toNat (p : Ppu) :
    (tileFetchAddr p).toNat =
      (if p.ctrl.getLsbD 4 then 4096 else 0) + p.ntByte.toNat * 16 + p.v.toNat / 4096 := by
  have hv := p.v.isLt
  have htile := p.ntByte.isLt
  have hfine : (p.v >>> 12 &&& 7).toNat = p.v.toNat / 4096 % 8 * 1 := shift_field_toNat 12 0 3 (by decide)
  rw [tileFetchAddr, BitVec.toNat_ofNat, hfine]
  split <;> omega

theorem tileFetchAddr_high_toNat (p : Ppu) : (tileFetchAddr p + 8).toNat = (tileFetchAddr p).toNat + 8 := by
  have hv := p.v.isLt
  have htile := p.ntByte.isLt
  have hlow := tileFetchAddr_toNat p
  rw [BitVec.toNat_add]
  refine Nat.mod_eq_of_lt (show (tileFetchAddr p).toNat + 8 < 16384 from ?_)
  split at hlow <;> omega

/-! ### Rows of pixels -/

/-- The eight-digit word `row` is `data` with `n` pixels put under it, the `k`-th of them `f k`, leftmost first. -/
def Packed (n : Nat) (f : Nat → BitVec 4) (data row : BitVec 32) : Prop :=
  row.toNat / 16 ^ n = data.toNat ∧ ∀ k < n, row.toNat / 16 ^ (n - 1 - k) % 16 = (f k).toNat

/-- A pixel shifted in is one more hexadecimal digit. -/
theorem shiftInPixel_toNat {data : BitVec 32} (pixel : BitVec 4) (h : data.toNat < 2 ^ 28) :
    (data <<< 4 ||| pixel.setWidth 32).toNat = data.toNat * 16 + pixel.toNat := by
  have hpixel : (pixel.setWidth 32).toNat = pixel.toNat := BitVec.toNat_setWidth_of_le (by decide)
  have hlt := pixel.isLt
  have hshift : (data <<< 4).toNat = 2 ^ 4 * data.toNat := by
    rw [BitVec.toNat_shiftLeft, Nat.shiftLeft_eq]
    omega
  rw [or_toNat_of_multiple 4 hshift (by omega), hshift, hpixel]
  omega

/-- One more pixel in front of `n` others. -/
theorem Packed.cons {n : Nat} {f g : Nat → BitVec 4} {data row : BitVec 32} (hdata : data.toNat < 2 ^ 28)
    (hg : ∀ k < n, g k = f (k + 1)) (h : Packed n g (data <<< 4 ||| (f 0).setWidth 32) row) :
    Packed (n + 1) f data row := by
  obtain ⟨htop, hdigits⟩ := h
  have hlt := (f 0).isLt
  rw [shiftInPixel_toNat (f 0) hdata] at htop
  refine ⟨?_, fun k hk => ?_⟩
  · rw [pow_succ, ← Nat.div_div_eq_div_mul, htop]
    omega
  · cases k with
    | zero =>
      rw [show n + 1 - 1 - 0 = n from rfl, htop]
      omega
    | succ k => rw [show n + 1 - 1 - (k + 1) = n - 1 - k by omega, hdigits k (by omega), hg k (by omega)]

/-- A row packed by shifting both planes a bit at a time: `bit k` is the plane bit that pixel `k` comes of. -/
theorem packed_of_shifts {sel : BitVec 4} {pack : Nat → Byte → Byte → BitVec 32 → BitVec 32} {shift : Byte → Byte}
    {bit : Nat → Nat} (hzero : ∀ lo hi data, pack 0 lo hi data = data)
    (hsucc : ∀ n lo hi data, pack (n + 1) lo hi data = pack n (shift lo) (shift hi)
      (data <<< 4 ||| (planePixel sel (lo.getLsbD (bit 0)) (hi.getLsbD (bit 0))).setWidth 32))
    (hshift : ∀ (b : Byte) (k : Nat), k < 7 → (shift b).getLsbD (bit k) = b.getLsbD (bit (k + 1)))
    {n : Nat} (hn : n ≤ 8) (lo hi : Byte) {data : BitVec 32} (hdata : data.toNat < 16 ^ (8 - n)) :
    Packed n (fun k => planePixel sel (lo.getLsbD (bit k)) (hi.getLsbD (bit k))) data (pack n lo hi data) := by
  induction n generalizing lo hi data with
  | zero => exact ⟨by rw [hzero, pow_zero, Nat.div_one], fun k hk => absurd hk (Nat.not_lt_zero k)⟩
  | succ n ih =>
    have hsmall : data.toNat < 2 ^ 28 :=
      Nat.lt_of_lt_of_le hdata (show 16 ^ (8 - (n + 1)) ≤ 16 ^ 7 from Nat.pow_le_pow_right (by decide) (by omega))
    have hpixel := (planePixel sel (lo.getLsbD (bit 0)) (hi.getLsbD (bit 0))).isLt
    have hpow : 16 ^ (8 - n) = 16 ^ (8 - (n + 1)) * 16 := by rw [← pow_succ]; congr 1; omega
    rw [hsucc]
    refine .cons (g := fun k => planePixel sel ((shift lo).getLsbD (bit k)) ((shift hi).getLsbD (bit k))) hsmall
      (fun k hk => ?_) (ih (by omega) _ _ ?_)
    · rw [hshift lo k (by omega), hshift hi k (by omega)]
    · rw [shiftInPixel_toNat _ hsmall]
      omega

/-- The row of a tile, or of a sprite that is not flipped: pixel `k` comes of bit `7 - k` of each plane (R274, R282). -/
theorem packRow_pixel (sel : BitVec 4) (lo hi : Byte) {k : Nat} (hk : k < 8) :
    (packRow sel 8 lo hi 0).toNat / 16 ^ (7 - k) % 16 =
      (planePixel sel (lo.getLsbD (7 - k)) (hi.getLsbD (7 - k))).toNat :=
  (packed_of_shifts (pack := packRow sel) (bit := (7 - ·)) (fun _ _ _ => rfl) (fun _ _ _ _ => rfl)
    (fun b k hk => by
      rw [BitVec.getLsbD_shiftLeft]
      simp only [show 7 - k < 8 by omega, show ¬ 7 - k < 1 by omega, show 7 - k - 1 = 7 - (k + 1) by omega]
      rfl)
    (Nat.le_refl 8) lo hi (by decide)).2 k hk

/-- The row of a sprite flipped horizontally: pixel `k` comes of bit `k` (R282). -/
theorem packRowFlipped_pixel (sel : BitVec 4) (lo hi : Byte) {k : Nat} (hk : k < 8) :
    (packRowFlipped sel 8 lo hi 0).toNat / 16 ^ (7 - k) % 16 =
      (planePixel sel (lo.getLsbD k) (hi.getLsbD k)).toNat :=
  (packed_of_shifts (pack := packRowFlipped sel) (bit := id) (fun _ _ _ => rfl) (fun _ _ _ _ => rfl)
    (fun b k _ => by rw [BitVec.getLsbD_ushiftRight, Nat.add_comm]; rfl) (Nat.le_refl 8) lo hi (by decide)).2 k hk

/-- A pixel as a number: the palette select, and one bit of each plane (R274, R282). -/
theorem planePixel_toNat {sel : BitVec 4} (hsel : sel &&& 3 = 0) (lo hi : Bool) :
    (planePixel sel lo hi).toNat = sel.toNat + 2 * bitNat hi + bitNat lo := by
  revert sel; cases lo <;> cases hi <;> decide

/-! ### A dot's fetch -/

/-- Neither a dot that does not render nor the parts after the fetch move the shifter or the four latches. -/
theorem ppuStep_fetched (s : State) :
    (ppuStep s).ppu.ntByte = (if s.ppu.rendering then (backgroundDot s.arrive).ppu.ntByte else s.ppu.ntByte) ∧
    (ppuStep s).ppu.atBits = (if s.ppu.rendering then (backgroundDot s.arrive).ppu.atBits else s.ppu.atBits) ∧
    (ppuStep s).ppu.loTile = (if s.ppu.rendering then (backgroundDot s.arrive).ppu.loTile else s.ppu.loTile) ∧
    (ppuStep s).ppu.hiTile = (if s.ppu.rendering then (backgroundDot s.arrive).ppu.hiTile else s.ppu.hiTile) ∧
    (ppuStep s).ppu.tileData = (if s.ppu.rendering then (backgroundDot s.arrive).ppu.tileData else s.ppu.tileData) := by
  rw [ppuStep_ppu, vblankDot_eq]
  cases h : s.ppu.rendering with
  | false => rw [rendered_off h, arrive_ppu]; exact ⟨rfl, rfl, rfl, rfl, rfl⟩
  | true => rw [rendered_on h]; exact ⟨rfl, rfl, rfl, rfl, rfl⟩

/-- The dot `s` takes next fetches: the condition O56 names. -/
def State.Fetches (s : State) : Prop :=
  s.ppu.rendering = true ∧ ((ppuStep s).ppu.scanline < 240 ∨ (ppuStep s).ppu.scanline = 261) ∧
    ((1 ≤ (ppuStep s).ppu.dot ∧ (ppuStep s).ppu.dot ≤ 256) ∨ (321 ≤ (ppuStep s).ppu.dot ∧ (ppuStep s).ppu.dot ≤ 336))

theorem arrive_fetches (s : State) : s.Fetches ↔ s.ppu.rendering = true ∧ s.arrive.ppu.fetches = true := by
  rw [fetches_iff, arrive_ppu]; rfl

/-- With nothing fetched, the shifter and the four latches stay. -/
theorem ppuStep_no_fetch {s : State} (h : ¬s.Fetches) :
    (ppuStep s).ppu.ntByte = s.ppu.ntByte ∧ (ppuStep s).ppu.atBits = s.ppu.atBits ∧
    (ppuStep s).ppu.loTile = s.ppu.loTile ∧ (ppuStep s).ppu.hiTile = s.ppu.hiTile ∧
    (ppuStep s).ppu.tileData = s.ppu.tileData := by
  obtain ⟨hnt, hat, hlo, hhi, hdata⟩ := ppuStep_fetched s
  rw [hnt, hat, hlo, hhi, hdata]
  cases hr : s.ppu.rendering with
  | false => exact ⟨rfl, rfl, rfl, rfl, rfl⟩
  | true =>
    have hidle : backgroundDot s.arrive = s.arrive :=
      backgroundDot_elsewhere fun hf => h ((arrive_fetches s).2 ⟨hr, hf⟩)
    rw [hidle, arrive_ppu]
    exact ⟨rfl, rfl, rfl, rfl, rfl⟩

/-- What a fetch dot makes of the shifter and the four latches. -/
theorem ppuStep_fetch {s : State} (h : s.Fetches) :
    let p := s.ppu
    let q := (ppuStep s).ppu
    q.ntByte = (if q.dot % 8 = 1 then ppuRead s (ntFetchAddr p.v) else p.ntByte) ∧
    q.atBits = (if q.dot % 8 = 3 then
      (((ppuRead s (atFetchAddr p.v) >>> atShift p.v) &&& 3).setWidth 4) <<< 2 else p.atBits) ∧
    q.loTile = (if q.dot % 8 = 5 then ppuRead s (tileFetchAddr p) else p.loTile) ∧
    q.hiTile = (if q.dot % 8 = 7 then ppuRead s (tileFetchAddr p + 8) else p.hiTile) ∧
    q.tileData = (if q.dot % 8 = 0 then
      p.tileData <<< 4 ||| (packRow p.atBits 8 p.loTile p.hiTile 0).setWidth 64 else p.tileData <<< 4) := by
  obtain ⟨hnt, hat, hlo, hhi, hdata⟩ := ppuStep_fetched s
  obtain ⟨hr, hf⟩ := (arrive_fetches s).1 h
  obtain ⟨fnt, fat, flo, fhi, fdata⟩ := backgroundDot_fields s.arrive
  have haddr : tileFetchAddr s.arrive.ppu = tileFetchAddr s.ppu := by rw [arrive_ppu]; rfl
  dsimp only
  rw [hnt, hat, hlo, hhi, hdata, fnt, fat, flo, fhi, fdata]
  simp only [hr, hf, if_true, true_and, ppuRead_arrive, haddr]
  simp only [arrive_ppu, and_self]

/-- Settles O56: the fields after a fetch dot, each address read as a number and the latched row pixel by pixel. -/
theorem backgroundFetch : Obligations.BackgroundFetch := by
  unfold Obligations.BackgroundFetch
  intro s hselect p q d l v fetch tile
  by_cases hfetch : fetch
  · obtain ⟨hnt, hat, hlo, hhi, hdata⟩ := ppuStep_fetch (s := s) hfetch
    simp only [hfetch, true_and, not_true, forall_true_left, false_imp_iff]
    refine ⟨fun h => hnt.trans (if_neg h), fun h => hat.trans (if_neg h), fun h => hlo.trans (if_neg h),
      fun h => hhi.trans (if_neg h), fun h => hdata.trans (if_neg h), fun h => ?_, fun h => ?_, fun h => ?_, fun h => ?_,
      fun h => ?_⟩
    · exact ⟨_, ntFetchAddr_toNat _, hnt.trans (if_pos h)⟩
    · exact ⟨_, atFetchAddr_toNat _, by rw [hat, if_pos h, atBits_toNat, atShift_eq]⟩
    · exact ⟨_, tileFetchAddr_toNat _, hlo.trans (if_pos h)⟩
    · exact ⟨_, by rw [tileFetchAddr_high_toNat, tileFetchAddr_toNat], hhi.trans (if_pos h)⟩
    · refine ⟨_, hdata.trans (if_pos h), fun k hk => ?_⟩
      rw [packRow_pixel _ _ _ hk, planePixel_toNat hselect]
  · obtain ⟨hnt, hat, hlo, hhi, hdata⟩ := ppuStep_no_fetch (s := s) hfetch
    simp only [hfetch, false_imp_iff, and_true]
    exact ⟨fun _ => hnt, fun _ => hat, fun _ => hlo, fun _ => hhi, fun _ => hdata⟩

/-! ## Sprite evaluation -/

/-- The buffer entry of a sprite on the line `s` stands on. -/
def State.lineEntry (s : State) (i : Nat) : Sprite := spriteEntry s i (s.ppu.scanline - (s.ppu.oamByte (4 * i)).toNat)

/-- What the scan does at a sprite whose range holds the line. -/
def fillSlot (s : State) (acc : List Sprite × Nat) (i : Nat) : List Sprite × Nat :=
  (if acc.2 < Config.maxSprites then acc.1.set acc.2 (s.lineEntry i) else acc.1, acc.2 + 1)

/-- The scan sees the sprites whose range holds the line only. -/
theorem scanSprites_eq (s : State) :
    scanSprites s = ((List.range 64).filter (spriteInRange s.ppu)).foldl (fillSlot s) (s.ppu.sprites, 0) := by
  rw [List.foldl_filter]; rfl

/-- A scan counts every sprite, leaves the entries before its count, and puts its own from there on, in order. -/
theorem foldl_fillSlot (s : State) (found : List Nat) (acc : List Sprite × Nat) (hlen : acc.1.length = 8) :
    (found.foldl (fillSlot s) acc).2 = acc.2 + found.length ∧
    (∀ k < acc.2, (found.foldl (fillSlot s) acc).1[k]? = acc.1[k]?) ∧
    ∀ k i, acc.2 + k < 8 → found[k]? = some i →
      (found.foldl (fillSlot s) acc).1[acc.2 + k]? = some (s.lineEntry i) := by
  induction found generalizing acc with
  | nil => exact ⟨rfl, fun _ _ => rfl, fun _ _ _ h => by cases h⟩
  | cons j found ih =>
    have hfill : (fillSlot s acc j).1.length = 8 := by
      unfold fillSlot
      split
      · rw [List.length_set, hlen]
      · exact hlen
    obtain ⟨hcount, hbefore, hentries⟩ := ih (fillSlot s acc j) hfill
    rw [List.foldl_cons]
    refine ⟨?_, fun k hk => ?_, fun k i hk hi => ?_⟩
    · rw [hcount, List.length_cons]
      change acc.2 + 1 + found.length = _
      omega
    · rw [hbefore k (Nat.lt_succ_of_lt hk)]
      unfold fillSlot
      split
      · exact List.getElem?_set_ne (by omega)
      · rfl
    · cases k with
      | zero =>
        rw [Nat.add_zero] at hk ⊢
        rw [hbefore _ (Nat.lt_succ_self _)]
        cases hi
        unfold fillSlot
        rw [if_pos (show acc.2 < Config.maxSprites from hk)]
        exact List.getElem?_set_self (by omega)
      | succ k =>
        have h := hentries k i (by change acc.2 + 1 + k < 8; omega) hi
        rwa [show (fillSlot s acc j).2 + k = acc.2 + (k + 1) by change acc.2 + 1 + k = _; omega] at h

/-- What a rendering dot leaves in the sprite buffer, with the flag where the vertical blank does not clear it. -/
theorem ppuStep_sprites_on {s : State} (h : s.ppu.rendering = true) :
    (ppuStep s).ppu.sprites = (spriteDot s.arrive).ppu.sprites ∧
    (ppuStep s).ppu.sprCount = (spriteDot s.arrive).ppu.sprCount ∧
    ((ppuStep s).ppu.dot ≠ 1 → (ppuStep s).ppu.sprOverflow = (spriteDot s.arrive).ppu.sprOverflow) := by
  refine ⟨?_, ?_, fun hdot => ?_⟩
  · rw [ppuStep_ppu, vblankDot_eq, rendered_on h]; rfl
  · rw [ppuStep_ppu, vblankDot_eq, rendered_on h]; rfl
  · obtain ⟨hkept, -⟩ := rendered_kept s
    rw [ppuStep_ppu, vblankDot_of_other fun hblank => hdot (hkept.symm.trans hblank.1), rendered_on h]; rfl

theorem ppuStep_sprites_off {s : State} (h : s.ppu.rendering = false) :
    (ppuStep s).ppu.sprites = s.ppu.sprites ∧ (ppuStep s).ppu.sprCount = s.ppu.sprCount := by
  rw [ppuStep_ppu, vblankDot_eq, rendered_off h, arrive_ppu]
  exact ⟨rfl, rfl⟩

theorem ppuStep_sprites_elsewhere {s : State} (h : (ppuStep s).ppu.dot ≠ 257) :
    (ppuStep s).ppu.sprites = s.ppu.sprites ∧ (ppuStep s).ppu.sprCount = s.ppu.sprCount := by
  cases hr : s.ppu.rendering with
  | false => exact ppuStep_sprites_off hr
  | true =>
    obtain ⟨hsprites, hcount, -⟩ := ppuStep_sprites_on hr
    rw [hsprites, hcount, spriteDot_elsewhere (by rw [arrive_ppu]; exact h), arrive_ppu]
    exact ⟨rfl, rfl⟩

/-- What dot 257 of a visible line makes of the buffer: the scan of the sprites in range. -/
theorem ppuStep_sprites_scan {s : State} (hr : s.ppu.rendering = true) (hdot : (ppuStep s).ppu.dot = 257)
    (hline : (ppuStep s).ppu.scanline < 240) :
    (ppuStep s).ppu.sprites = (scanSprites s.arrive).1 ∧
    (ppuStep s).ppu.sprCount = min (scanSprites s.arrive).2 8 ∧
    ((ppuStep s).ppu.sprOverflow = true ↔ s.ppu.sprOverflow = true ∨ 8 < (scanSprites s.arrive).2) := by
  obtain ⟨hsprites, hcount, hoverflow⟩ := ppuStep_sprites_on hr
  rw [hsprites, hcount, hoverflow (by omega),
    spriteDot_of_visible (by rw [arrive_ppu]; exact hdot) (by rw [arrive_ppu]; exact hline)]
  refine ⟨rfl, rfl, ?_⟩
  have hkept : s.arrive.ppu.sprOverflow = s.ppu.sprOverflow := by rw [arrive_ppu]
  rw [← hkept]
  exact Bool.or_eq_true_iff.trans (or_congr_right decide_eq_true_iff)

/-! ### The row pattern -/

theorem and_low_bits_clear {tile : Byte} : (tile &&& 0xFE).toNat = tile.toNat / 2 * 2 := by
  have h : (tile &&& 0xFE).toNat = tile.toNat / 2 ^ 1 % 2 ^ 7 * 2 ^ 1 := and_field_toNat 1 7 (by decide)
  have hlt := tile.isLt
  omega

/-- The address of a sprite row's low plane byte as a number (R282). -/
theorem spriteFetchAddr_toNat (p : Ppu) (tile attr : Byte) {row : Nat} (hrow : row < p.spriteHeight) :
    (spriteFetchAddr p tile attr row).toNat =
      if p.ctrl.getLsbD 5 then
        let r := if attr.getLsbD 7 then 15 - row else row
        tile.toNat % 2 * 4096 + (tile.toNat / 2 * 2 + r / 8) * 16 + r % 8
      else
        (if p.ctrl.getLsbD 3 then 4096 else 0) + tile.toNat * 16 + (if attr.getLsbD 7 then 7 - row else row) := by
  have htile := tile.isLt
  unfold Ppu.spriteHeight at hrow
  unfold spriteFetchAddr
  by_cases htall : p.ctrl.getLsbD 5 = true
  · rw [if_pos htall] at hrow
    have hr : (if attr.getLsbD 7 = true then 15 - row else row) < 16 := by split <;> omega
    have htable : (if tile.getLsbD 0 = true then 0x1000 else 0) = tile.toNat % 2 * 4096 := by
      rw [show tile.getLsbD 0 = tile.toNat.testBit 0 from rfl, Nat.testBit_zero]
      rcases Nat.mod_two_eq_zero_or_one tile.toNat with h | h <;> rw [h] <;> rfl
    simp only [if_pos htall, and_low_bits_clear, htable]
    generalize (if attr.getLsbD 7 = true then 15 - row else row) = r at hr ⊢
    rw [BitVec.toNat_ofNat]
    split <;> omega
  · rw [if_neg htall] at hrow
    have hr : (if attr.getLsbD 7 = true then 7 - row else row) < 8 := by split <;> omega
    simp only [if_neg htall, BitVec.toNat_ofNat]
    generalize (if attr.getLsbD 7 = true then 7 - row else row) = r at hr ⊢
    split <;> omega

theorem spriteFetchAddr_lt (p : Ppu) (tile attr : Byte) {row : Nat} (hrow : row < p.spriteHeight) :
    (spriteFetchAddr p tile attr row).toNat + 8 < 16384 := by
  have htile := tile.isLt
  rw [spriteFetchAddr_toNat p tile attr hrow]
  unfold Ppu.spriteHeight at hrow
  dsimp only
  split_ifs at hrow ⊢
  all_goals omega

/-- The pixels of a sprite's row, by the horizontal flip (R282). -/
theorem fetchSpritePattern_pixel (s : State) (i row : Nat) {k : Nat} (hk : k < 8) :
    let attr := s.ppu.oamByte (4 * i + 2)
    let addr := spriteFetchAddr s.ppu (s.ppu.oamByte (4 * i + 1)) attr row
    let bit := if attr.getLsbD 6 then k else 7 - k
    (fetchSpritePattern s i row).toNat / 16 ^ (7 - k) % 16 =
      attr.toNat % 4 * 4 + 2 * bitNat ((ppuRead s (addr + 8)).getLsbD bit) + bitNat ((ppuRead s addr).getLsbD bit) := by
  intro attr addr bit
  have hsel : ((attr &&& 3).setWidth 4) <<< 2 &&& 3 = (0 : BitVec 4) := by
    generalize (attr &&& 3).setWidth 4 = b
    revert b; decide
  have hnat : (((attr &&& 3).setWidth 4) <<< 2 : BitVec 4).toNat = attr.toNat % 4 * 4 := by
    have h := atBits_toNat attr 0
    rwa [BitVec.ushiftRight_zero, pow_zero, Nat.div_one] at h
  rw [show fetchSpritePattern s i row = if attr.getLsbD 6 = true then _ else _ from rfl]
  change _ = _ + 2 * bitNat ((ppuRead s (addr + 8)).getLsbD (if attr.getLsbD 6 = true then k else 7 - k)) +
    bitNat ((ppuRead s addr).getLsbD (if attr.getLsbD 6 = true then k else 7 - k))
  by_cases hflip : attr.getLsbD 6 = true
  · rw [if_pos hflip, if_pos hflip, packRowFlipped_pixel _ _ _ hk, planePixel_toNat hsel, hnat]
  · rw [if_neg hflip, if_neg hflip, packRow_pixel _ _ _ hk, planePixel_toNat hsel, hnat]

/-- Settles O57: dot 257 is the scan of the sprites in range, and a row pattern is packed pixel by pixel. -/
theorem spriteEvaluation : Obligations.SpriteEvaluation := by
  unfold Obligations.SpriteEvaluation
  refine ⟨fun s hlen => ?_, fun s i row hi hrow => ?_⟩
  case refine_1 =>
    dsimp only
    refine ⟨fun hr hdot hline => ?_, fun hr hdot hline => ?_, fun h => ?_⟩
    · obtain ⟨hsprites, hcount, hoverflow⟩ := ppuStep_sprites_scan hr hdot hline
      have hfound : (List.range 64).filter (spriteInRange s.arrive.ppu) = (List.range 64).filter fun i =>
          decide ((Memory.read s.ppu.oam (4 * i)).toNat ≤ (ppuStep s).ppu.scanline ∧
            (ppuStep s).ppu.scanline - (Memory.read s.ppu.oam (4 * i)).toNat <
              if s.ppu.ctrl.getLsbD 5 = true then 16 else 8) := by
        rw [arrive_ppu]; rfl
      rw [hsprites, hcount, hoverflow, scanSprites_eq, ← hfound]
      obtain ⟨htotal, -, hentries⟩ := foldl_fillSlot s.arrive ((List.range 64).filter (spriteInRange s.arrive.ppu))
        (s.arrive.ppu.sprites, 0) (by rw [arrive_ppu]; exact hlen)
      rw [htotal, Nat.zero_add]
      refine ⟨rfl, Iff.rfl, fun k i hk hki => ⟨s.arrive.lineEntry i, ?_, ?_⟩⟩
      · rw [← Nat.zero_add k]
        exact hentries k i (by omega) hki
      have hi : i < 64 := List.mem_range.1 (List.mem_filter.1 (List.mem_of_getElem? hki)).1
      have hpattern := fetchSpritePattern_congr (s := s) (t := s.arrive) (by rw [arrive_ppu]) (by rw [arrive_ppu])
        (ppuRead_arrive s)
      refine ⟨?_, ?_, ?_, ?_⟩
      · change s.arrive.ppu.oamByte _ = _
        rw [arrive_ppu]; rfl
      · change (s.arrive.ppu.oamByte _).getLsbD 5 = _
        rw [arrive_ppu]; rfl
      · exact Nat.mod_eq_of_lt hi
      · refine (hpattern i _).trans ?_
        rw [arrive_ppu]; rfl
    · obtain ⟨-, hcount, -⟩ := ppuStep_sprites_on hr
      rw [hcount, spriteDot_of_hidden (by rw [arrive_ppu]; exact hdot) (by rw [arrive_ppu]; exact hline)]
      rfl
    · obtain ⟨hsprites, hcount⟩ := h.elim ppuStep_sprites_off ppuStep_sprites_elsewhere
      exact ⟨hcount, hsprites⟩
  case refine_2 =>
    have hfit := spriteFetchAddr_lt s.ppu (s.ppu.oamByte (4 * i + 1)) (s.ppu.oamByte (4 * i + 2)) hrow
    have haddr := spriteFetchAddr_toNat s.ppu (s.ppu.oamByte (4 * i + 1)) (s.ppu.oamByte (4 * i + 2)) hrow
    refine ⟨_, _, haddr, ?_, fun k hk => fetchSpritePattern_pixel s i row hk⟩
    rw [BitVec.toNat_add]
    exact (Nat.mod_eq_of_lt hfit).trans (congrArg (· + 8) haddr)

/-! ## The pixel -/

/-- Hexadecimal digit `n` of a word. -/
theorem digit_toNat {w : Nat} (v : BitVec w) (n : Nat) : ((v >>> (n * 4)).setWidth 4).toNat = v.toNat / 16 ^ n % 16 := by
  rw [BitVec.toNat_setWidth, BitVec.toNat_ushiftRight, Nat.shiftRight_eq_div_pow, Nat.mul_comm, pow_mul]
  rfl

/-- A sprite's pixel at column `x` as a number (R286). -/
def Sprite.pixelNat (e : Sprite) (x : Nat) : Nat :=
  if e.x.toNat ≤ x ∧ x ≤ e.x.toNat + 7 then e.pattern.toNat / 16 ^ (7 - (x - e.x.toNat)) % 16 else 0

theorem Sprite.pixel_toNat (e : Sprite) (x : Nat) : (e.pixel x).toNat = e.pixelNat x := by
  unfold Sprite.pixel Sprite.pixelNat
  by_cases hin : e.x.toNat ≤ x ∧ x ≤ e.x.toNat + 7
  · rw [if_pos hin, if_pos ⟨hin.1, by omega⟩, digit_toNat]
  · rw [if_neg hin, if_neg (by omega)]; rfl

/-- The background pixel at column `x` as a number, 0 where it is off or clipped (R285, R287). -/
def Ppu.shownBackground (p : Ppu) (x : Nat) : Nat :=
  if p.mask.getLsbD 3 = true ∧ (8 ≤ x ∨ p.mask.getLsbD 1 = true) then
    p.tileData.toNat / 2 ^ 32 / 16 ^ (7 - p.x.toNat) % 16
  else 0

/-- The first opaque sprite at column `x`, none where sprites are off or clipped (R286, R287). -/
def Ppu.shownSprite (p : Ppu) (x : Nat) : Option Sprite :=
  if p.mask.getLsbD 4 = true ∧ (8 ≤ x ∨ p.mask.getLsbD 2 = true) then
    (p.sprites.take p.sprCount).find? fun e => decide (e.pixelNat x % 4 ≠ 0)
  else none

/-- An `if` on a layer's switch, under an `if` on the clipping of the left column, is one `if`. -/
theorem clipped_eq {α : Type} (on left : Bool) (x : Nat) (a b : α) :
    (if x < 8 ∧ left = false then b else if on = true then a else b) =
      if on = true ∧ (8 ≤ x ∨ left = true) then a else b := by
  by_cases hx : x < 8
  · cases left <;> cases on <;> simp [hx]
  · simp [hx, Nat.not_lt.1 hx]

theorem backgroundPixel_clipped (p : Ppu) (x : Nat) :
    (if x < 8 ∧ p.mask.getLsbD 1 = false then 0 else p.backgroundPixel).toNat = p.shownBackground x := by
  rw [Ppu.backgroundPixel, clipped_eq, Ppu.shownBackground]
  split
  · rw [digit_toNat, BitVec.toNat_ushiftRight, Nat.shiftRight_eq_div_pow]
  · rfl

theorem spriteAt_clipped (p : Ppu) (x : Nat) :
    (if x < 8 ∧ p.mask.getLsbD 2 = false then none else p.spriteAt x) = p.shownSprite x := by
  have hopaque : (fun e : Sprite => opaquePixel (e.pixel x)) = fun e => decide (e.pixelNat x % 4 ≠ 0) := by
    funext e
    rw [opaquePixel, Sprite.pixel_toNat]
  rw [Ppu.spriteAt, clipped_eq, hopaque, Ppu.shownSprite]

/-- The palette entry of a background pixel and a sprite (R287). -/
def composedColour (bg x : Nat) : Option Sprite → Nat
  | none => if bg % 4 = 0 then 0 else bg
  | some e => if bg % 4 ≠ 0 ∧ e.prio = true then bg else 16 + e.pixelNat x

theorem background_colour_toNat (bg : BitVec 4) : (bg.setWidth 5).toNat = bg.toNat :=
  BitVec.toNat_setWidth_of_le (by decide)

theorem sprite_colour_toNat (e : Sprite) (x : Nat) : ((e.pixel x).setWidth 5 ||| 0x10).toNat = 16 + e.pixelNat x := by
  rw [← Sprite.pixel_toNat]
  generalize e.pixel x = c
  revert c; decide

/-- What composition gives, by the layers shown (R287). -/
theorem compose_eq (p : Ppu) (x : Nat) :
    (p.compose x).colour.toNat = composedColour (p.shownBackground x) x (p.shownSprite x) ∧
    ((p.compose x).hit = true ↔
      p.shownBackground x % 4 ≠ 0 ∧ x < 255 ∧ ∃ e, p.shownSprite x = some e ∧ e.idx = 0) := by
  unfold Ppu.compose
  rw [spriteAt_clipped]
  have hbg := backgroundPixel_clipped p x
  generalize (if x < 8 ∧ p.mask.getLsbD 1 = false then 0 else p.backgroundPixel) = bg at hbg
  dsimp only
  rw [← hbg]
  have hopaque : opaquePixel bg = decide (bg.toNat % 4 ≠ 0) := rfl
  by_cases hclear : bg.toNat % 4 = 0
  · rw [hopaque, decide_eq_false (not_not.2 hclear)]
    cases p.shownSprite x with
    | none => exact ⟨(if_pos hclear).symm, by simp⟩
    | some e =>
      refine ⟨?_, by simp [hclear]⟩
      exact (sprite_colour_toNat e x).trans (if_neg fun h => h.1 hclear).symm
  · rw [hopaque, decide_eq_true hclear]
    cases p.shownSprite x with
    | none => exact ⟨(background_colour_toNat bg).trans (if_neg hclear).symm, by simp⟩
    | some e =>
      refine ⟨?_, by simp [hclear, and_comm]⟩
      change (if e.prio = true then bg.setWidth 5 else (e.pixel x).setWidth 5 ||| 0x10).toNat =
        if bg.toNat % 4 ≠ 0 ∧ e.prio = true then bg.toNat else 16 + e.pixelNat x
      by_cases hprio : e.prio = true
      · rw [if_pos hprio, if_pos ⟨hclear, hprio⟩, background_colour_toNat]
      · rw [if_neg hprio, if_neg fun h => hprio h.2, sprite_colour_toNat]

/-- The palette entry's cell, with the aliases of entry 0 (R56, R288). -/
theorem paletteColour_eq (pal : Memory 8) (colour : BitVec 5) :
    paletteColour pal colour =
      (Memory.read pal (if 16 ≤ colour.toNat ∧ colour.toNat % 4 = 0 then colour.toNat - 16 else colour.toNat)).setWidth 6 := by
  have hlow : (0x3F00 + colour.setWidth 14 : PicAddr).toNat % 32 = colour.toNat := by
    have hlt := colour.isLt
    have hwide : (colour.setWidth 14).toNat = colour.toNat := BitVec.toNat_setWidth_of_le (by decide)
    rw [BitVec.toNat_add, hwide, show (0x3F00 : BitVec 14).toNat = 0x3F00 from rfl]
    omega
  rw [paletteColour, palIndex, hlow]

/-- The dot that arrives at column `x` + 1 of a visible line, while rendering (R285 to R288). -/
theorem ppuStep_pixel {s : State} (hr : s.ppu.rendering = true) (hlo : 1 ≤ (ppuStep s).ppu.dot)
    (hhi : (ppuStep s).ppu.dot ≤ 256) (hline : (ppuStep s).ppu.scanline < 240) :
    let q := (ppuStep s).ppu
    let x := q.dot - 1
    q.back = Memory.write s.ppu.back (q.scanline * 256 + x) (paletteColour s.bus.pal (s.ppu.compose x).colour) ∧
    q.spr0Hit = (s.ppu.spr0Hit || (s.ppu.compose x).hit) := by
  have hpixel : (ppuStep s).ppu.back = (renderPixel s.arrive).ppu.back ∧
      (ppuStep s).ppu.spr0Hit = (renderPixel s.arrive).ppu.spr0Hit := by
    rw [ppuStep_noVblank (by omega), rendered_on hr, pixelDot_of_visible] <;> rw [arrive_ppu]
    · exact ⟨rfl, rfl⟩
    · exact hline
    · exact hlo
    · exact hhi
  obtain ⟨hbus, -, -⟩ := arrive_outside s
  dsimp only
  rw [hpixel.1, hpixel.2, renderPixel, hbus, arrive_ppu]
  exact ⟨rfl, rfl⟩

/-- What the vertical blank's part does to the back buffer and the sprite flags (R264, R266). -/
theorem vblankDot_drawn (p : Ppu) :
    (¬(p.dot = 1 ∧ p.scanline = 241) → p.vblankDot.back = p.back) ∧
    (p.dot = 1 → p.scanline = 241 → p.vblankDot.back = p.front) ∧
    (¬(p.dot = 1 ∧ p.scanline = 261) → p.vblankDot.spr0Hit = p.spr0Hit ∧ p.vblankDot.sprOverflow = p.sprOverflow) := by
  by_cases hstart : p.dot = 1 ∧ p.scanline = 241
  · obtain ⟨hdot, hline⟩ := hstart
    rw [vblankDot_of_start hline hdot, vblankStart_eq]
    exact ⟨fun h => absurd ⟨hdot, hline⟩ h, fun _ _ => rfl, fun _ => ⟨rfl, rfl⟩⟩
  · have hbefore : p.dot = 1 → p.scanline = 241 → p.vblankDot.back = p.front := fun hdot hline =>
      absurd ⟨hdot, hline⟩ hstart
    by_cases hend : p.dot = 1 ∧ p.scanline = 261
    · refine ⟨fun _ => ?_, hbefore, fun h => absurd hend h⟩
      rw [vblankDot_of_end hend.2 hend.1, vblankEnd_eq]
    · rw [vblankDot_of_other (by omega)]
      exact ⟨fun _ => rfl, fun hdot hline => absurd ⟨hdot, hline⟩ hstart, fun _ => ⟨rfl, rfl⟩⟩

/-- A dot away from the visible pixels, or not rendering: what it draws and what it clears. -/
theorem ppuStep_noPixel {s : State}
    (h : ¬(s.ppu.rendering = true ∧ 1 ≤ (ppuStep s).ppu.dot ∧ (ppuStep s).ppu.dot ≤ 256 ∧ (ppuStep s).ppu.scanline < 240)) :
    let q := (ppuStep s).ppu
    (¬(q.dot = 1 ∧ q.scanline = 241) → q.back = s.ppu.back) ∧ (q.dot = 1 → q.scanline = 241 → q.back = s.ppu.front) ∧
    (¬(q.dot = 1 ∧ q.scanline = 261) → q.spr0Hit = s.ppu.spr0Hit) := by
  obtain ⟨hback, hhit⟩ := rendered_of_noPixel h
  obtain ⟨hdot, hline, -, hfront, -⟩ := rendered_kept s
  obtain ⟨hstill, hswap, hflags⟩ := vblankDot_drawn s.rendered
  rw [hdot, hline] at hstill hswap hflags
  exact ⟨fun hn => (hstill hn).trans hback, fun hd hl => (hswap hd hl).trans hfront, fun hn => (hflags hn).1.trans hhit⟩

/-- With rendering disabled a dot moves nothing of the pipeline (R289). -/
theorem ppuStep_off {s : State} (h : s.ppu.rendering = false) :
    let q := (ppuStep s).ppu
    q.v = s.ppu.v ∧ q.tileData = s.ppu.tileData ∧ q.sprites = s.ppu.sprites ∧ q.sprCount = s.ppu.sprCount ∧
    (¬(q.dot = 1 ∧ q.scanline = 261) → q.sprOverflow = s.ppu.sprOverflow) := by
  obtain ⟨hsprites, hcount⟩ := ppuStep_sprites_off h
  obtain ⟨-, -, -, -, hdata⟩ := ppuStep_fetched s
  obtain ⟨hdot, hline, -⟩ := rendered_kept s
  obtain ⟨-, -, hflags⟩ := vblankDot_drawn s.rendered
  rw [hdot, hline] at hflags
  have hoverflow : s.rendered.sprOverflow = s.ppu.sprOverflow := by rw [rendered_off h, arrive_ppu]
  rw [h] at hdata
  exact ⟨ppuStep_v_off h, hdata, hsprites, hcount, fun hn => (hflags hn).2.trans hoverflow⟩

/-- Settles O58: the visible pixel through the layers composition shows, every other dot through what rendering leaves. -/
theorem pixelComposition : Obligations.PixelComposition := by
  unfold Obligations.PixelComposition
  constructor
  · intro s hr p q x hlo hhi hline pixel bg sprite colour index
    obtain ⟨hback, hhit⟩ := ppuStep_pixel hr hlo hhi hline
    obtain ⟨hcolour, hhits⟩ := compose_eq p x
    rw [paletteColour_eq, hcolour] at hback
    refine ⟨hback, ?_⟩
    rw [hhit, Bool.or_eq_true_iff, hhits]
    exact Iff.rfl
  · intro s p q
    obtain ⟨-, -, -, hctrl, hmask, ht, hx, hw, hoam, hoamAddr, hbuffer, hlatch⟩ := ppuStep_counters s
    exact ⟨ppuStep_noPixel, ppuStep_off, hctrl, hmask, ht, hx, hw, hoam, hoamAddr, hbuffer, hlatch⟩

end Sys2Proof.Machine
end

section
/-!
PROOFS, the family of 49_orchestrator.md and of the host's calls (O39, O41, O45, O46, O60). First `reset()` and the requests,
then the cycles and the dots of a step, then `stepFrame()` and the halted machine.
-/

namespace Sys2Proof.Machine

/-- Settles O39: `resetCall_eq`, the vector's two bytes read low byte first. -/
theorem resetCall_setsRegisters : Obligations.ResetCall := by
  unfold Obligations.ResetCall
  intro s
  exact ⟨joinBytes (peek s 0xFFFD) (peek s 0xFFFC), joinBytes_toNat _ _, resetCall_eq s⟩

theorem triggerIrq_dropped {s : State} (h : s.flag .i = true ∨ s.cpu.irqSlot = .nmi) : triggerIrq s = s := by
  unfold triggerIrq
  rcases h with h | h <;> simp [h]

theorem triggerIrq_taken {s : State} (hi : s.flag .i = false) (hslot : s.cpu.irqSlot ≠ .nmi) :
    triggerIrq s = s.setSlot .irq := by
  simp [triggerIrq, hi, hslot]

theorem takeIrqCall_nil {s : State} (h : s.ext.irqCalls = []) : takeIrqCall s = s := by
  simp [takeIrqCall, h]

theorem takeIrqCall_cons {s : State} {b : Bool} {r : List Bool} (h : s.ext.irqCalls = b :: r) :
    takeIrqCall s =
      if b then triggerIrq (s.setExt { s.ext with irqCalls := r }) else s.setExt { s.ext with irqCalls := r } := by
  cases b <;> simp [takeIrqCall, h]

/-- Settles O41: the cases of `triggerIrq` and of the schedule. -/
theorem interruptRequests : Obligations.InterruptRequests := by
  unfold Obligations.InterruptRequests
  intro s
  exact ⟨rfl, triggerIrq_dropped, triggerIrq_taken, fun _ _ => takeIrqCall_cons, takeIrqCall_nil⟩

/-- Settles O60: it is what construction makes of the blank image, which the loader accepts. -/
theorem resetMeetsInvariant : Obligations.ResetMeetsInvariant := by
  unfold Obligations.ResetMeetsInvariant
  rw [reset_is_resetCall]
  exact construct_inv (RomImage.valid_guarantees blank_valid)

/-! ## The cycles of a step -/

/-- The opcode matrix has no cost above 7 (R81). -/
theorem matrixCycles_le (op : Byte) : matrixCycles op ≤ 7 := by
  revert op; decide

/-- A reading instruction's base cost is its operand's. -/
theorem matrixCycles_of_readOperand {i : Instr} {o : Operand} (h : i.readOperand = some o) :
    matrixCycles i.opcode = readBaseCycles o := by
  cases i
  case adc o | sbc o | and o | ora o | eor o | cmp o | lda o | bit o | cpx o | cpy o | ldx o | ldy o =>
    cases h
    cases o <;> rfl
  all_goals cases h

theorem readBaseCycles_le (o : Operand) : readBaseCycles o ≤ 6 := by
  cases o with
  | imm => exact Nat.le_of_ble_eq_true rfl
  | mem m => cases m <;> exact Nat.le_of_ble_eq_true rfl

/-- The page-cross cycle never goes over 7: only reads pay it, and they cost at most 6. -/
theorem matrixCycles_crossCycle_le (i : Instr) (s : State) :
    matrixCycles i.opcode + crossCycle s i.readOperand ≤ 7 := by
  cases h : i.readOperand with
  | none => exact matrixCycles_le _
  | some o =>
    have hbase := readBaseCycles_le o
    have hcross : crossCycle s (some o) ≤ 1 := by
      cases o with
      | imm => exact Nat.zero_le 1
      | mem m =>
        change (if (resolve s m).crossed = true then 1 else 0) ≤ 1
        split <;> decide
    rw [matrixCycles_of_readOperand h]
    omega

/-- From `s` to `t` between 1 and 7 cycles have been charged. -/
def Takes (s t : State) : Prop := s.cpu.cycles + 1 ≤ t.cpu.cycles ∧ t.cpu.cycles ≤ s.cpu.cycles + 7

theorem branchIf_takes (taken : Bool) (d : Byte) (s : State) : Takes s (branchIf taken d s) := by
  unfold Takes
  cases taken with
  | false =>
    have hcycles : (branchIf false d s).cpu.cycles = s.cpu.cycles + 2 := by rw [branchIf_false]; rfl
    omega
  | true =>
    rw [branchIf_true]
    dsimp only
    split <;> omega

/-- Every instruction takes 1 to 7 cycles (R81, R352). -/
theorem exec_takes {i : Instr} {s t : State} (h : exec i s = .next t) : Takes s t := by
  cases hb : i.branch s.cpu.p with
  | none =>
    have hcycles := (exec_costs hb h).cycles
    have hbase := matrixCycles_ne_zero (opcode_notMem_illegalOpcodes (isIllegal_of_exec h))
    have hle := matrixCycles_crossCycle_le i s
    unfold Takes
    omega
  | some branch =>
    obtain ⟨d, taken⟩ := branch
    obtain ⟨hexec, -⟩ := exec_branch hb
    rw [next_unique h hexec]
    exact branchIf_takes taken d s

/-- Fetching moves neither the beam nor anything else dots move. -/
theorem fetchInstr_position (s : State) : SamePosition s.ppu (fetchInstr s).2.ppu := by
  have hmoves := fetchInstr_moves s
  generalize (fetchInstr s).2 = t at hmoves
  induction hmoves with
  | start => exact .refl _
  | regs _ _ ih => exact ih
  | read a _ ih => exact ih.trans (memRead_position _ a)
  | write a v _ ih => exact ih.trans (memWrite_position _ a v)

/-- A CPU step takes 1 to 7 cycles, in which the beam stands still (R300, R316, R317). -/
theorem cpuStep_takes {s t : State} (h : cpuStep s = .next t) : Takes s t ∧ SamePosition s.ppu t.ppu := by
  obtain ⟨-, rfl⟩ | ⟨-, -, rfl⟩ | ⟨-, -, hrun⟩ := cpuStep_cases h
  · exact ⟨⟨Nat.le_refl _, Nat.add_le_add_left (by decide) _⟩, .refl _⟩
  · rw [serviceInterrupt_eq]
    exact ⟨⟨Nat.add_le_add_left (by decide) _, Nat.le_refl _⟩, .refl _⟩
  · have hexec : exec (fetchInstr (s.setSlot .none)).1 (fetchInstr (s.setSlot .none)).2 = .next t := hrun
    have htakes := exec_takes hexec
    unfold Takes at htakes
    rw [fetchInstr_cpu] at htakes
    exact ⟨htakes, (fetchInstr_position (s.setSlot .none)).trans (exec_position hexec)⟩

/-! ## The beam in a step -/

theorem position_eq (p : Ppu) : p.position = p.frame * 89342 + p.place := by
  unfold Ppu.position Ppu.place
  omega

theorem onScreen_of_inv {s : State} (h : Inv s) : s.ppu.OnScreen := ⟨h.ppu.dot, h.ppu.scanline⟩

theorem place_le {p : Ppu} (h : p.OnScreen) : p.place ≤ 89341 := by
  obtain ⟨hdot, hline⟩ := h
  unfold Ppu.place
  omega

/-- The beam has moved `k` dots from `p` to `q`: within the frame, or into the first dots of the next frame, one place
further when the last dot was skipped (R265). -/
def Beam (k : Nat) (p q : Ppu) : Prop :=
  (q.frame = p.frame ∧ q.place = p.place + k) ∨
  (q.frame = p.frame + 1 ∧ q.scanline = 0 ∧ q.dot < k ∧
    q.dot + 89342 = p.place + k +
      if q.rendering = true ∧ p.frame % 2 = 1 ∧ ¬(p.scanline = 261 ∧ p.dot = 340) then 1 else 0)

/-- Fewer dots than a line has cross at most one frame's end. -/
theorem runDots_beam {s : State} (h : s.ppu.OnScreen) {k : Nat} (hk : k ≤ 340) : Beam k s.ppu (runDots k s).ppu := by
  obtain ⟨n, hn⟩ := frameHas_exists s.ppu
  have hlt := place_lt h hn
  rcases Nat.lt_or_ge (s.ppu.place + k) n with hin | hover
  · obtain ⟨hplace, hframe, -⟩ := runDots_in_frame h hn hin
    exact .inl ⟨hframe, hplace⟩
  · obtain ⟨j, hj⟩ : ∃ j, s.ppu.place + j = n := ⟨n - s.ppu.place, by omega⟩
    obtain ⟨m, rfl⟩ : ∃ m, k = j + m := ⟨k - j, by omega⟩
    obtain ⟨hdot, hline, hframe⟩ := runDots_ends_frame h hn hj
    have hstart : (runDots j s).ppu.OnScreen := by
      unfold Ppu.OnScreen
      omega
    have hzero : (runDots j s).ppu.place = 0 := by
      unfold Ppu.place
      omega
    obtain ⟨n', hn'⟩ := frameHas_exists (runDots j s).ppu
    have hlong : 340 < n' := by rcases hn' with ⟨-, rfl⟩ | ⟨-, rfl⟩ <;> decide
    obtain ⟨hplace, hsame, hscreen, -⟩ := runDots_in_frame hstart hn' (k := m) (by omega)
    rw [← runDots_add] at hplace hsame hscreen
    obtain ⟨hend, -⟩ := hscreen
    rw [hzero, Ppu.place] at hplace
    refine .inr ⟨hsame.trans hframe, by omega, by omega, ?_⟩
    rw [rendering_congr (runDots_mask (j + m) s)]
    unfold Ppu.FrameHas Ppu.SkipsLast at hn
    rcases hn with ⟨hskip, rfl⟩ | ⟨hstay, rfl⟩
    · rw [if_pos hskip]
      omega
    · rw [if_neg hstay]
      omega

/-- A step that goes on: its cycles, and three dots for each. -/
theorem step_beam {s t : State} (hs : Inv s) (h : step s = .next t) :
    ∃ c, 1 ≤ c ∧ c ≤ 7 ∧ t.cpu.cycles = s.cpu.cycles + c ∧ Beam (3 * c) s.ppu t.ppu := by
  obtain ⟨u, hu, rfl⟩ := step_next h
  obtain ⟨slot, calls, htake⟩ := takeIrqCall_eq s
  obtain ⟨⟨hlo, hhi⟩, hpos⟩ := cpuStep_takes hu
  have hscreen := onScreen_of_inv (cpuStep_inv hu (takeIrqCall_inv hs))
  rw [htake] at hlo hhi hpos ⊢
  dsimp only at hlo hhi hpos ⊢
  have hcycles (n : Nat) : (runDots n u).cpu.cycles = u.cpu.cycles := by
    obtain ⟨-, -, -, -, hcpu | hcpu⟩ := runDots_outside n u <;> rw [hcpu]
  refine ⟨u.cpu.cycles - s.cpu.cycles, by omega, by omega, by rw [hcycles]; omega, ?_⟩
  have hbeam := runDots_beam hscreen (k := 3 * (u.cpu.cycles - s.cpu.cycles)) (by omega)
  unfold Beam Ppu.place at hbeam ⊢
  rwa [hpos.frame, hpos.scanline, hpos.dot] at hbeam

/-- Settles O45: the beam's two cases, in positions. -/
theorem dotsPerCycle : Obligations.DotsPerCycle := by
  unfold Obligations.DotsPerCycle
  intro s t hs h
  obtain ⟨c, hlo, hhi, hcycles, hbeam⟩ := step_beam hs h
  refine ⟨by omega, by omega, ?_⟩
  rw [hcycles, Nat.add_sub_cancel_left, position_eq, position_eq]
  rcases hbeam with ⟨hframe, hplace⟩ | ⟨hframe, hline, -, hdot⟩
  · rw [if_neg fun hskip => hskip.2.2.1 hframe]
    omega
  · have hleft : t.ppu.frame ≠ s.ppu.frame := by omega
    have hplace : t.ppu.place = t.ppu.dot := by
      unfold Ppu.place
      omega
    simp only [hleft, ne_eq, not_false_iff, true_and]
    omega

/-! ## The halted machine -/

/-- Nothing of the outside but the schedule of calls, which no read looks at, differs (log 8). -/
theorem peek_withCalls (s : State) (calls : List Bool) (a : Word) :
    peek (s.setExt { s.ext with irqCalls := calls }) a = peek s a := by
  unfold peek memRead
  dsimp only
  split_ifs
  · rfl
  · cases picReg a <;> rfl
  all_goals rfl

/-- An illegal byte at PC stops a CPU step that neither a stall nor a request precedes (R82, R312). -/
theorem cpuStep_of_illegal {s : State} (hstall : s.cpu.stall = 0) (hnmi : s.cpu.irqSlot ≠ .nmi)
    (hmask : s.cpu.irqSlot = .irq → s.flag .i = true) (hill : peek s s.cpu.pc ∈ illegalOpcodes) :
    cpuStep s = .fault (.unimplementedOpcode (peek s s.cpu.pc) s.cpu.pc) := by
  cases hslot : s.cpu.irqSlot with
  | nmi => exact absurd hslot hnmi
  | irq =>
    have hpeek : peek (s.setSlot .none) s.cpu.pc = peek s s.cpu.pc := peek_withCpu s _ _
    rw [cpuStep_of_masked hstall hslot (hmask hslot), ← hpeek]
    rw [← hpeek] at hill
    exact runInstr_of_illegal hill
  | none =>
    rw [cpuStep_of_idle hstall hslot]
    exact runInstr_of_illegal hill

/-- Where no `triggerIRQ()` call is due, the outside's turn moves its schedule only. -/
theorem takeIrqCall_of_noCall {s : State} (h : ∀ r, s.ext.irqCalls ≠ true :: r) :
    ∃ calls, takeIrqCall s = s.setExt { s.ext with irqCalls := calls } := by
  cases hcalls : s.ext.irqCalls with
  | nil =>
    refine ⟨[], ?_⟩
    rw [takeIrqCall_nil hcalls, ← hcalls]
    rfl
  | cons b r =>
    cases b with
    | true => exact absurd hcalls (h r)
    | false => exact ⟨r, takeIrqCall_cons hcalls⟩

theorem takeIrqCall_sameMemory (s : State) : SameMemory s (takeIrqCall s) := by
  obtain ⟨slot, calls, h⟩ := takeIrqCall_eq s
  rw [h]
  exact .of_storages rfl rfl rfl rfl rfl rfl

theorem halted_sameMemory (s : State) : SameMemory s (halted s) :=
  (takeIrqCall_sameMemory s).trans (afterRead_sameMemory _ _)

theorem halted_position (s : State) : (halted s).ppu.position = s.ppu.position := by
  obtain ⟨slot, calls, h⟩ := takeIrqCall_eq s
  refine (memRead_position (takeIrqCall s) s.cpu.pc).position.trans ?_
  rw [h]

/-- The byte at PC stops the halted machine again, unless the outside calls first (R312). -/
theorem step_halted_of_quiet {s : State} {f : Fault} (hstep : step s = .fault f) (hquiet : quiet s.cpu.pc = true)
    (hcall : ∀ r, (halted s).ext.irqCalls ≠ true :: r) : step (halted s) = .fault f := by
  obtain ⟨-, hfault, -⟩ := stepOutcomes s
  obtain ⟨op, hill, rfl, hstall, hnmi, hmask, rfl⟩ := hfault f hstep
  rw [halted_of_quiet hquiet] at hcall ⊢
  obtain ⟨calls, htake⟩ := takeIrqCall_of_noCall hcall
  rw [← takeIrqCall_pc s] at hill ⊢
  refine step_of_fault ?_
  rw [htake]
  have hpeek := peek_withCalls (takeIrqCall s) calls (takeIrqCall s).cpu.pc
  rw [← hpeek] at hill ⊢
  exact cpuStep_of_illegal hstall hnmi hmask hill

/-- `reset()` takes the halted machine up at the vector it had before (R312, R340). -/
theorem resetCall_halted (s : State) :
    (resetCall (halted s)).cpu.pc = (resetCall s).cpu.pc ∧ (resetCall (halted s)).cpu.stall = 0 ∧
    (resetCall (halted s)).cpu.irqSlot = .none := by
  obtain ⟨-, -, -, -, -, -, hbytes⟩ := halted_sameMemory s
  rw [resetCall_eq, resetCall_eq, hbytes _ (by decide), hbytes _ (by decide)]
  exact ⟨rfl, rfl, rfl⟩

/-! ## `stepFrame()` -/

theorem afterSteps_succ {s t : State} (h : step s = .next t) (k : Nat) : afterSteps (k + 1) s = afterSteps k t := by
  rw [afterSteps, h]

/-- The loop ran to the first step that ends in frame `f + 1`. -/
def ReachesNextFrame (f n : Nat) (s : State) : Prop :=
  ∃ (k : Nat) (t : State), afterSteps (k + 1) s = some t ∧
    (∀ j ≤ k, ∃ u : State, afterSteps j s = some u ∧ u.ppu.frame = f) ∧
    runToFrame f n s = .completed t ∧ t.ppu.frame = f + 1 ∧ t.ppu.scanline = 0 ∧ t.ppu.dot ≤ 20

/-- The loop ran to a step of frame `f` that raises an error. -/
def StopsInFrame (f n : Nat) (s : State) : Prop :=
  ∃ (k : Nat) (u : State) (e : Fault), afterSteps k s = some u ∧ u.ppu.frame = f ∧ step u = .fault e ∧
    runToFrame f n s = .aborted e (halted u)

/-- One step more within the frame, in front of the loop. -/
theorem ReachesNextFrame.of_step {f n : Nat} {s t : State} (hstep : step s = .next t) (hframe : s.ppu.frame = f)
    (hrun : runToFrame f (n + 1) s = runToFrame f n t) (h : ReachesNextFrame f n t) : ReachesNextFrame f (n + 1) s := by
  obtain ⟨k, v, hlast, hwithin, hcompleted, hend⟩ := h
  refine ⟨k + 1, v, (afterSteps_succ hstep _).trans hlast, fun j hj => ?_, hrun.trans hcompleted, hend⟩
  cases j with
  | zero => exact ⟨s, rfl, hframe⟩
  | succ j =>
    rw [afterSteps_succ hstep]
    exact hwithin j (by omega)

theorem StopsInFrame.of_step {f n : Nat} {s t : State} (hstep : step s = .next t)
    (hrun : runToFrame f (n + 1) s = runToFrame f n t) (h : StopsInFrame f n t) : StopsInFrame f (n + 1) s := by
  obtain ⟨k, u, e, hlast, hframe, hfault, habort⟩ := h
  exact ⟨k + 1, u, e, (afterSteps_succ hstep k).trans hlast, hframe, hfault, hrun.trans habort⟩

/-- With fuel for every dot left of the frame, at three dots a step, the loop ends in one of the two ways (R301). -/
theorem runToFrame_ends {f n : Nat} {s : State} (hs : Inv s) (hframe : s.ppu.frame = f)
    (hfuel : 89341 < s.ppu.place + 3 * n) : ReachesNextFrame f n s ∨ StopsInFrame f n s := by
  induction n generalizing s with
  | zero =>
    have hplace := place_le (onScreen_of_inv hs)
    omega
  | succ n ih =>
    obtain ⟨t, hstep, hsame, hrun⟩ | ⟨t, hstep, hleft, hrun⟩ | ⟨e, hstep, hrun⟩ | ⟨r, hstep, -⟩ := runToFrame_succ f n s
    · obtain ⟨c, hlo, -, -, ⟨-, hplace⟩ | ⟨hnext, -⟩⟩ := step_beam hs hstep
      · exact (ih (stepKeepsInvariant s t hs hstep) hsame (by omega)).imp (.of_step hstep hframe hrun)
          (.of_step hstep hrun)
      · omega
    · obtain ⟨c, -, hhi, -, ⟨hstill, -⟩ | ⟨hnext, hline, hdot, -⟩⟩ := step_beam hs hstep
      · omega
      · refine .inl ⟨0, t, afterSteps_succ hstep 0, fun j hj => ?_, hrun, by omega, hline, by omega⟩
        obtain rfl := Nat.le_zero.1 hj
        exact ⟨s, rfl, hframe⟩
    · exact .inr ⟨0, s, e, rfl, hframe, hstep, hrun⟩
    · exact absurd hstep ((stepOutcomes s).1 r)

/-- Settles O46: the loop's two ends, and the halted machine of the second. -/
theorem stepFrameEndsInNextFrame : Obligations.StepFrameEndsInNextFrame := by
  unfold Obligations.StepFrameEndsInNextFrame
  intro s hs
  refine (runToFrame_ends (n := 29781) hs rfl (by omega)).imp id ?_
  rintro ⟨k, u, e, hlast, hframe, hfault, habort⟩
  obtain ⟨-, hends, -⟩ := stepOutcomes u
  obtain ⟨op, hill, rfl, -⟩ := hends e hfault
  exact ⟨k, u, halted u, op, hlast, hframe, hill, hfault, habort, halted_cpu u, halted_position u, halted_sameMemory u,
    fun hquiet => ⟨halted_of_quiet hquiet, step_halted_of_quiet hfault hquiet⟩, resetCall_halted u⟩

end Sys2Proof.Machine
end
